-- ==== Sys2Proof/Word.lean ====
section
/-! DEFINITION. Values and the plain questions every format asks of a value. The widths of spec/00_scope.md R6 are parameters
with no upper bound, so a register value, an address, a length, a cursor, an event mask and a command word are natural numbers,
of which the machine takes and writes the bits of the parameter's width (Config.lean; assumption 4). What has a width that no
parameter sets is a bit vector. -/

namespace Sys2Proof

/-- A received byte. -/
abbrev Byte := BitVec 8

/-- The `inst` field of a command (spec/30_encoding.md R94). -/
abbrev InstId := BitVec 5

/-- The low `w` bits of a value: `v[w-1:0]` of spec/00_scope.md R8. -/
def clip (w v : Nat) : Nat := v % 2 ^ w

/-- The `n` bits of a value from bit `p` on: `v[p+n-1:p]` of spec/00_scope.md R8. -/
def slice (v p n : Nat) : Nat := clip n (v >>> p)

/-- `w & ~m` (spec/00_scope.md R8). -/
def without (w m : Nat) : Nat := w ^^^ (w &&& m)

/-- `(w & m) != 0`, the bit test of spec/40_classifier.md R115 and R123. -/
abbrev hasBit (w m : Nat) : Bool := w &&& m != 0

/-- A mask of exactly one bit (spec/30_encoding.md R91). -/
def oneBit (m : Nat) : Bool := m != 0 && m &&& (m - 1) == 0

end Sys2Proof
end

