-- ==== Sys2Proof/Config.lean ====
section
/-! DEFINITION. The implementation parameters of spec/00_scope.md R6 and the model's one free value. Every width and every
bit position and code of spec/30_encoding.md is a field, with the tabulated value as default and the constraints of R6, R85
and R91 as `Config.wf` (assumptions 4, 6). -/

namespace Sys2Proof

/-- Variant A is T32CM11, variant B is T32CZ20 (spec/00_scope.md R1). -/
inductive Variant where
  | A
  | B
  deriving DecidableEq, Repr

/-- Format `IIR_A` (R81): the mask of step 3 and the five codes. -/
structure EncIirA where
  mask     : Nat
  lineErr  : Nat
  rxData   : Nat
  thrEmpty : Nat
  timeout  : Nat
  modem    : Nat
  deriving DecidableEq, Repr

/-- Format `IIR_B` (R83): seven condition bits, the mask and the known set of step 3, the two clear codes. -/
structure EncIirB where
  nonDmaMask : Nat
  known      : Nat
  lineErr    : Nat
  rxData     : Nat
  thrEmpty   : Nat
  timeout    : Nat
  modem      : Nat
  dmaTxDone  : Nat
  dmaRxDone  : Nat
  clrDmaTx   : Nat
  clrDmaRx   : Nat
  deriving DecidableEq, Repr

/-- Format `DMA_STATUS_A` (R85). -/
structure EncDmaA where
  txDone   : Nat
  rxDone   : Nat
  clrDmaTx : Nat
  clrDmaRx : Nat
  deriving DecidableEq, Repr

/-- Format `LSR` (R87) and the clear-pattern of variant B (R88). -/
structure EncLsr where
  dr      : Nat
  oe      : Nat
  pe      : Nat
  fe      : Nat
  bi      : Nat
  txEmpty : Nat
  bClear  : Nat
  deriving DecidableEq, Repr

/-- Format `EV` (R86): the sixteen event masks. -/
structure EncEv where
  dmaTxComplete : Nat
  rxBufferLow   : Nat
  dmaRxToCb     : Nat
  dmaRxReady    : Nat
  unexpected    : Nat
  rxToCb        : Nat
  rxReady       : Nat
  txComplete    : Nat
  errOverrun    : Nat
  errParity     : Nat
  errFraming    : Nat
  errBreak      : Nat
  rxEndedNoData : Nat
  rxEndedToCb   : Nat
  rxMaybeReady  : Nat
  hwFc          : Nat
  deriving DecidableEq, Repr

/-- Format `CMD` (R92, R93): the lowest bit of each field and the eight operation codes. -/
structure EncCmd where
  opAt         : Nat
  instAt       : Nat
  arg0At       : Nat
  arg1At       : Nat
  initCommit   : BitVec 3
  swap         : BitVec 3
  left         : BitVec 3
  txdmaStart   : BitVec 3
  powerOffMark : BitVec 3
  powerOnMark  : BitVec 3
  uninitMark   : BitVec 3
  reserved7    : BitVec 3
  deriving DecidableEq, Repr

/-- Format `RSP` (R97): the eight status codes. -/
structure EncRsp where
  ok             : BitVec 4
  invalidId      : BitVec 4
  notInit        : BitVec 4
  notPowered     : BitVec 4
  dmaNotEnabled  : BitVec 4
  bufferTooSmall : BitVec 4
  badDmaBuffer   : BitVec 4
  unsupported    : BitVec 4
  deriving DecidableEq, Repr

/-- The parameters of one block (R6). Fixed for its life (spec/10_state.md R43). `regw`, `addrw`, `lenw`, `curw` and `evw`
are the widths `REGW`, `ADDRW`, `LENW`, `CURW` and `EVW`. `regAddr` is the OPEN parameter
`REG_ADDR[]` of spec/20_memory.md R51, by selector; no rule uses it. -/
structure Config where
  variant     : Variant
  nInst       : Nat
  regw        : Nat
  addrw       : Nat
  lenw        : Nat
  curw        : Nat
  evw         : Nat
  lowWater    : Nat
  rxDmaMinLen : Nat
  regAddr     : List Nat
  iirA        : EncIirA
  iirB        : EncIirB
  dmaA        : EncDmaA
  lsr         : EncLsr
  ev          : EncEv
  cmd         : EncCmd
  rsp         : EncRsp
  deriving DecidableEq, Repr

/-- The `REGW` bits of a register value (spec/20_memory.md R52). -/
def Config.reg (c : Config) (v : Nat) : Nat := clip c.regw v

/-- The `ADDRW` bits of an address (spec/20_memory.md R55). -/
def Config.addr (c : Config) (v : Nat) : Nat := clip c.addrw v

/-- `v[LENW-1:0]` (spec/40_classifier.md R116). -/
def Config.len (c : Config) (v : Nat) : Nat := clip c.lenw v

/-- The `CURW` bits of a cursor (spec/00_scope.md R8). -/
def Config.cur (c : Config) (v : Nat) : Nat := clip c.curw v

/-- The sixteen event masks in the order of R86. -/
def EncEv.all (e : EncEv) : List Nat :=
  [e.dmaTxComplete, e.rxBufferLow, e.dmaRxToCb, e.dmaRxReady, e.unexpected, e.rxToCb, e.rxReady, e.txComplete,
   e.errOverrun, e.errParity, e.errFraming, e.errBreak, e.rxEndedNoData, e.rxEndedToCb, e.rxMaybeReady, e.hwFc]

/-- The OR of all event masks: the bits an event mask may have (R86). -/
def EncEv.union (e : EncEv) : Nat :=
  e.all.foldl (fun acc m => acc ||| m) 0

/-- The five codes of R81. -/
def EncIirA.codes (e : EncIirA) : List Nat := [e.rxData, e.thrEmpty, e.lineErr, e.timeout, e.modem]

/-- The five non-DMA bits of R83, in handler order (spec/40_classifier.md R124). -/
def EncIirB.nonDma (e : EncIirB) : List Nat := [e.rxData, e.thrEmpty, e.lineErr, e.timeout, e.modem]

/-- R81, R91: five different non-zero values of the masked field. -/
def EncIirA.wf (e : EncIirA) : Bool :=
  e.codes.Nodup && e.codes.all (fun m => m != 0 && m &&& e.mask == m)

/-- The code clears its own condition and no other, where writing a condition's bit clears it (R85: "cleared by writing the
same mask"; spec/20_memory.md R62: "cleared per-interrupt-type"; assumption 6). -/
def clearsOnly (code own : Nat) (others : List Nat) : Bool := hasBit code own && others.all fun m => !hasBit code m

/-- R83, R91: seven different one-bit masks, the five non-DMA ones inside the mask and making up the known set, the two
DMA ones outside it, each of these with its own clear code (spec/20_memory.md R62). -/
def EncIirB.wf (e : EncIirB) : Bool :=
  (e.nonDma ++ [e.dmaTxDone, e.dmaRxDone]).Nodup && (e.nonDma ++ [e.dmaTxDone, e.dmaRxDone]).all oneBit
    && e.nonDma.all (fun m => m &&& e.nonDmaMask == m)
    && e.dmaTxDone &&& e.nonDmaMask == 0 && e.dmaRxDone &&& e.nonDmaMask == 0
    && clearsOnly e.clrDmaTx e.dmaTxDone (e.dmaRxDone :: e.nonDma)
    && clearsOnly e.clrDmaRx e.dmaRxDone (e.dmaTxDone :: e.nonDma)
    && e.known == e.nonDma.foldl (fun acc m => acc ||| m) 0

/-- R85, R91: two different one-bit masks, "each separately clearable". -/
def EncDmaA.wf (e : EncDmaA) : Bool :=
  e.txDone != e.rxDone && oneBit e.txDone && oneBit e.rxDone
    && clearsOnly e.clrDmaTx e.txDone [e.rxDone] && clearsOnly e.clrDmaRx e.rxDone [e.txDone]

/-- R87, R91: different one-bit masks. -/
def EncLsr.wf (e : EncLsr) : Bool :=
  [e.dr, e.oe, e.pe, e.fe, e.bi, e.txEmpty].Nodup && [e.dr, e.oe, e.pe, e.fe, e.bi, e.txEmpty].all oneBit

/-- R86, R91: sixteen different one-bit masks. -/
def EncEv.wf (e : EncEv) : Bool := e.all.Nodup && e.all.all oneBit

/-- The operation codes (R93). -/
def EncCmd.codes (e : EncCmd) : List (BitVec 3) :=
  [e.initCommit, e.swap, e.left, e.txdmaStart, e.powerOffMark, e.powerOnMark, e.uninitMark, e.reserved7]

/-- The fields of a command word: the lowest bit and the width of each (R92). -/
def Config.cmdFields (c : Config) : List (Nat × Nat) :=
  [(c.cmd.opAt, 3), (c.cmd.instAt, 5), (c.cmd.arg0At, c.addrw), (c.cmd.arg1At, c.lenw)]

/-- The bits of a command word that belong to a field: 71 to 0 as tabulated (R92). -/
def Config.cmdBits (c : Config) : Nat :=
  c.cmdFields.foldl (fun acc f => acc ||| (2 ^ f.2 - 1) <<< f.1) 0

/-- R92, R93: four fields that do not overlap, and eight different codes. -/
def Config.cmdWf (c : Config) : Bool :=
  c.cmd.codes.Nodup && decide (c.cmdFields.Pairwise fun f g => f.1 + f.2 ≤ g.1 ∨ g.1 + g.2 ≤ f.1)

/-- The status codes in the order of R97. -/
def EncRsp.codes (e : EncRsp) : List (BitVec 4) :=
  [e.ok, e.invalidId, e.notInit, e.notPowered, e.dmaNotEnabled, e.bufferTooSmall, e.badDmaBuffer, e.unsupported]

/-- R97: eight different codes. -/
def EncRsp.wf (e : EncRsp) : Bool := e.codes.Nodup

/-- The widths (R6): no constraint but that the event mask holds sixteen events. -/
def Config.widthsWf (c : Config) : Bool := decide (16 ≤ c.evw)

/-- The register values among the encodings. -/
def Config.regConsts (c : Config) : List Nat :=
  [c.iirA.mask, c.iirB.nonDmaMask, c.iirB.known, c.iirB.dmaTxDone, c.iirB.dmaRxDone, c.iirB.clrDmaTx, c.iirB.clrDmaRx,
   c.dmaA.txDone, c.dmaA.rxDone, c.dmaA.clrDmaTx, c.dmaA.clrDmaRx]
  ++ [c.lsr.dr, c.lsr.oe, c.lsr.pe, c.lsr.fe, c.lsr.bi, c.lsr.txEmpty, c.lsr.bClear]

/-- Every bit of a register value or an event mask that an encoding names exists (R6, R81 to R88). -/
def Config.constsWf (c : Config) : Bool :=
  c.regConsts.all (fun m => c.reg m == m) && c.ev.all.all (fun m => clip c.evw m == m)

/-- The constraints the spec puts on the parameters: R6 (`LOW_WATER >= 4`, `RX_DMA_MIN_LEN <= 64`), R85, R91, and an
instance count the five-bit `inst` field can name (R94). -/
def Config.wf (c : Config) : Bool :=
  decide (c.nInst ≤ 32) && decide (4 ≤ c.lowWater) && decide (c.rxDmaMinLen ≤ 64)
    && c.iirA.wf && c.iirB.wf && c.dmaA.wf && c.lsr.wf && c.ev.wf && c.cmdWf && c.rsp.wf && c.widthsWf && c.constsWf

/-- The encodings as spec/30_encoding.md and spec/opcode_table.json tabulate them, three instances, and the values the
spec's vectors use for the OPEN parameters (assumption 5). -/
def Config.default (v : Variant) : Config where
  variant     := v
  nInst       := 3
  regw        := 32
  addrw       := 32
  lenw        := 32
  curw        := 32
  evw         := 32
  lowWater    := 8
  rxDmaMinLen := 16
  regAddr     := List.replicate 11 0
  iirA := { mask := 0x7, lineErr := 1, rxData := 2, thrEmpty := 3, timeout := 4, modem := 5 }
  iirB := { nonDmaMask := 0x1F, known := 0x1F, lineErr := 0x01, rxData := 0x02, thrEmpty := 0x04, timeout := 0x08,
            modem := 0x10, dmaTxDone := 0x20, dmaRxDone := 0x40, clrDmaTx := 0x20, clrDmaRx := 0x40 }
  dmaA := { txDone := 0x1, rxDone := 0x2, clrDmaTx := 0x1, clrDmaRx := 0x2 }
  lsr  := { dr := 0x01, oe := 0x02, pe := 0x04, fe := 0x08, bi := 0x10, txEmpty := 0x20, bClear := 0x1E }
  ev   := { dmaTxComplete := 0x0001, rxBufferLow := 0x0002, dmaRxToCb := 0x0004, dmaRxReady := 0x0008,
            unexpected := 0x0010, rxToCb := 0x0020, rxReady := 0x0040, txComplete := 0x0080,
            errOverrun := 0x0100, errParity := 0x0200, errFraming := 0x0400, errBreak := 0x0800,
            rxEndedNoData := 0x1000, rxEndedToCb := 0x2000, rxMaybeReady := 0x4000, hwFc := 0x8000 }
  cmd  := { opAt := 0, instAt := 3, arg0At := 8, arg1At := 40, initCommit := 0, swap := 1, left := 2, txdmaStart := 3,
            powerOffMark := 4, powerOnMark := 5, uninitMark := 6, reserved7 := 7 }
  rsp  := { ok := 0, invalidId := 1, notInit := 2, notPowered := 3, dmaNotEnabled := 4, bufferTooSmall := 5,
            badDmaBuffer := 6, unsupported := 7 }

/-- The answer of the environment to the `k`-th register read that no scripted answer covers: any value at all
(spec/20_memory.md R68). No body: nothing can be proved of it (assumption 3). -/
opaque Config.freeReg : Nat → Nat

end Sys2Proof
end

