-- ==== Sys2Proof/Syntax.lean ====
section
/-! DEFINITION. The instructions: one constructor per row of spec/opcode_table.json (57 rows). A row of a register
format (`IIR_A`, `IIR_B`, `DMA_STATUS_A`, `LSR`) carries the instance whose register was read and `ign`, the bits of the
value that the row does not examine; a command row carries the fields of its word; an output row carries what the output
format holds beside the fixed bits (assumptions 12, 13). -/

namespace Sys2Proof

/-- The rows of spec/opcode_table.json. -/
inductive Instr where
  /-- `IRQ`: one interrupt entry of instance `i` (spec/40_classifier.md R110). -/
  | irq (i : InstId)
  -- format CMD (spec/30_encoding.md R92, R93)
  | initCommit   (i : InstId) (arg0 arg1 : Nat)
  | swap         (i : InstId) (arg0 arg1 : Nat)
  | left         (i : InstId) (arg0 arg1 : Nat)
  | txdmaStart   (i : InstId) (arg0 arg1 : Nat)
  | powerOffMark (i : InstId) (arg0 arg1 : Nat)
  | powerOnMark  (i : InstId) (arg0 arg1 : Nat)
  | uninitMark   (i : InstId) (arg0 arg1 : Nat)
  | reserved7    (i : InstId) (arg0 arg1 : Nat)
  -- format IIR_A (R81)
  | iirALineErr     (i : InstId) (ign : Nat)
  | iirARxData      (i : InstId) (ign : Nat)
  | iirAThrEmpty    (i : InstId) (ign : Nat)
  | iirATimeout     (i : InstId) (ign : Nat)
  | iirAModem       (i : InstId) (ign : Nat)
  | iirANone        (i : InstId) (ign : Nat)
  /-- The unmatched code 6; the operand is the whole value. -/
  | iirAUnexpected6 (i : InstId) (val : Nat)
  /-- Any other unmatched non-zero code, 7 alone under the tabulated encoding; the operand is the whole value. -/
  | iirAUnexpected7 (i : InstId) (val : Nat)
  -- format IIR_B (R83)
  | iirBLineErr   (i : InstId) (ign : Nat)
  | iirBRxData    (i : InstId) (ign : Nat)
  | iirBThrEmpty  (i : InstId) (ign : Nat)
  | iirBTimeout   (i : InstId) (ign : Nat)
  | iirBModem     (i : InstId) (ign : Nat)
  | iirBDmaTxDone (i : InstId) (ign : Nat)
  | iirBDmaRxDone (i : InstId) (ign : Nat)
  /-- No non-DMA bit set; the operand is the whole value. -/
  | iirBNoneMatched (i : InstId) (val : Nat)
  -- format DMA_STATUS_A (R85)
  | dmaStatusATxDone (i : InstId) (ign : Nat)
  | dmaStatusARxDone (i : InstId) (ign : Nat)
  -- format LSR (R87)
  | lsrDr      (i : InstId) (ign : Nat)
  | lsrOe      (i : InstId) (ign : Nat)
  | lsrPe      (i : InstId) (ign : Nat)
  | lsrFe      (i : InstId) (ign : Nat)
  | lsrBi      (i : InstId) (ign : Nat)
  | lsrTxEmpty (i : InstId) (ign : Nat)
  -- format EV (R86)
  | evDmaTxComplete (i : InstId)
  | evRxBufferLow   (i : InstId)
  | evDmaRxToCb     (i : InstId)
  | evDmaRxReady    (i : InstId)
  | evUnexpected    (i : InstId)
  | evRxToCb        (i : InstId)
  | evRxReady       (i : InstId)
  | evTxComplete    (i : InstId)
  | evErrOverrun    (i : InstId)
  | evErrParity     (i : InstId)
  | evErrFraming    (i : InstId)
  | evErrBreak      (i : InstId)
  | evRxEndedNoData (i : InstId)
  | evRxEndedToCb   (i : InstId)
  | evRxMaybeReady  (i : InstId)
  | evHwFc          (i : InstId)
  -- format RSP (R97)
  | rspOk             (i : InstId) (value : Nat)
  | rspInvalidId      (i : InstId)
  | rspNotInit        (i : InstId)
  | rspNotPowered     (i : InstId)
  | rspDmaNotEnabled  (i : InstId)
  | rspBufferTooSmall (i : InstId)
  | rspBadDmaBuffer   (i : InstId)
  | rspUnsupported    (i : InstId)
  deriving DecidableEq, Repr

/-- The instance a row is about. -/
def Instr.inst : Instr → InstId
  | .irq i => i
  | .initCommit i _ _ | .swap i _ _ | .left i _ _ | .txdmaStart i _ _ => i
  | .powerOffMark i _ _ | .powerOnMark i _ _ | .uninitMark i _ _ | .reserved7 i _ _ => i
  | .iirALineErr i _ | .iirARxData i _ | .iirAThrEmpty i _ | .iirATimeout i _ => i
  | .iirAModem i _ | .iirANone i _ | .iirAUnexpected6 i _ | .iirAUnexpected7 i _ => i
  | .iirBLineErr i _ | .iirBRxData i _ | .iirBThrEmpty i _ | .iirBTimeout i _ => i
  | .iirBModem i _ | .iirBDmaTxDone i _ | .iirBDmaRxDone i _ | .iirBNoneMatched i _ => i
  | .dmaStatusATxDone i _ | .dmaStatusARxDone i _ => i
  | .lsrDr i _ | .lsrOe i _ | .lsrPe i _ | .lsrFe i _ | .lsrBi i _ | .lsrTxEmpty i _ => i
  | .evDmaTxComplete i | .evRxBufferLow i | .evDmaRxToCb i | .evDmaRxReady i => i
  | .evUnexpected i | .evRxToCb i | .evRxReady i | .evTxComplete i => i
  | .evErrOverrun i | .evErrParity i | .evErrFraming i | .evErrBreak i => i
  | .evRxEndedNoData i | .evRxEndedToCb i | .evRxMaybeReady i | .evHwFc i => i
  | .rspOk i _ | .rspInvalidId i | .rspNotInit i | .rspNotPowered i => i
  | .rspDmaNotEnabled i | .rspBufferTooSmall i | .rspBadDmaBuffer i | .rspUnsupported i => i

/-- The status of a response, in the order of its code (spec/30_encoding.md R97). -/
inductive Status where
  | ok
  | invalidId
  | notInit
  | notPowered
  | dmaNotEnabled
  | bufferTooSmall
  | badDmaBuffer
  | unsupported
  deriving DecidableEq, Repr

/-- A word together with the port or register it stands on: the bare words of two formats coincide, and the port is what
tells them apart (assumption 12). -/
inductive Packet where
  | irqEntry   (i : InstId)
  | cmd        (w : Nat)
  | iirA       (i : InstId) (w : Nat)
  | iirB       (i : InstId) (w : Nat)
  | dmaStatusA (i : InstId) (w : Nat)
  | lsr        (i : InstId) (w : Nat)
  | ev         (i : InstId) (m : Nat)
  | rsp        (i : InstId) (status : BitVec 4) (value : Nat)
  deriving DecidableEq, Repr

/-- The `inst` field of a command word, bits 7:3 under the tabulated layout (R92, R94). -/
def cmdInst (c : Config) (w : Nat) : InstId := BitVec.ofNat 5 (slice w c.cmd.instAt 5)

/-- The instance a packet is about; a command names it in its own field. -/
def Packet.inst (c : Config) : Packet → InstId
  | .irqEntry i | .iirA i _ | .iirB i _ | .dmaStatusA i _ | .lsr i _ | .ev i _ | .rsp i _ _ => i
  | .cmd w => cmdInst c w

end Sys2Proof
end

