-- ==== Sys2Proof/WellFormed.lean ====
section
/-! DEFINITION. Which terms of `Instr` stand for a word of the encoding: the instance exists (commands may name any
five-bit number, R94), a register value has `REGW` bits, its unexamined bits do not overlap the examined ones, the arguments of
a command have `ADDRW` and `LENW` bits (R92), and a response's value has `LENW` bits (R97). -/

namespace Sys2Proof

/-- The value matches none of the five codes of R81 and is not zero (spec/40_classifier.md R121). -/
def EncIirA.unmatched (e : EncIirA) (w : Nat) : Bool :=
  (w &&& e.mask) != 0 && !(e.codes.contains (w &&& e.mask))

/-- Well-formedness of an instruction under the parameters `c`. -/
def Instr.wf (c : Config) (r : Instr) : Bool :=
  let here := decide (r.inst.toNat < c.nInst)
  let reg (v : Nat) : Bool := here && c.reg v == v
  match r with
  | .initCommit _ a b | .swap _ a b | .left _ a b | .txdmaStart _ a b => c.addr a == a && c.len b == b
  | .powerOffMark _ a b | .powerOnMark _ a b | .uninitMark _ a b | .reserved7 _ a b => c.addr a == a && c.len b == b
  | .rspOk _ v => c.len v == v
  | .rspInvalidId _ | .rspNotInit _ | .rspNotPowered _ => true
  | .rspDmaNotEnabled _ | .rspBufferTooSmall _ | .rspBadDmaBuffer _ | .rspUnsupported _ => true
  | .irq _ => here
  | .iirALineErr _ g | .iirARxData _ g | .iirAThrEmpty _ g | .iirATimeout _ g => reg g && g &&& c.iirA.mask == 0
  | .iirAModem _ g | .iirANone _ g => reg g && g &&& c.iirA.mask == 0
  | .iirAUnexpected6 _ w => reg w && c.iirA.unmatched w && w &&& c.iirA.mask == 6
  | .iirAUnexpected7 _ w => reg w && c.iirA.unmatched w && w &&& c.iirA.mask != 6
  | .iirBLineErr _ g => reg g && g &&& c.iirB.lineErr == 0
  | .iirBRxData _ g => reg g && g &&& c.iirB.rxData == 0
  | .iirBThrEmpty _ g => reg g && g &&& c.iirB.thrEmpty == 0
  | .iirBTimeout _ g => reg g && g &&& c.iirB.timeout == 0
  | .iirBModem _ g => reg g && g &&& c.iirB.modem == 0
  | .iirBDmaTxDone _ g => reg g && g &&& c.iirB.dmaTxDone == 0
  | .iirBDmaRxDone _ g => reg g && g &&& c.iirB.dmaRxDone == 0
  | .iirBNoneMatched _ w => reg w && (w &&& c.iirB.nonDmaMask) &&& c.iirB.known == 0
  | .dmaStatusATxDone _ g => reg g && g &&& c.dmaA.txDone == 0
  | .dmaStatusARxDone _ g => reg g && g &&& c.dmaA.rxDone == 0
  | .lsrDr _ g => reg g && g &&& c.lsr.dr == 0
  | .lsrOe _ g => reg g && g &&& c.lsr.oe == 0
  | .lsrPe _ g => reg g && g &&& c.lsr.pe == 0
  | .lsrFe _ g => reg g && g &&& c.lsr.fe == 0
  | .lsrBi _ g => reg g && g &&& c.lsr.bi == 0
  | .lsrTxEmpty _ g => reg g && g &&& c.lsr.txEmpty == 0
  | .evDmaTxComplete _ | .evRxBufferLow _ | .evDmaRxToCb _ | .evDmaRxReady _ => here
  | .evUnexpected _ | .evRxToCb _ | .evRxReady _ | .evTxComplete _ => here
  | .evErrOverrun _ | .evErrParity _ | .evErrFraming _ | .evErrBreak _ => here
  | .evRxEndedNoData _ | .evRxEndedToCb _ | .evRxMaybeReady _ | .evHwFc _ => here

end Sys2Proof
end

