-- ==== Sys2Proof/Decode.lean ====
section
/-! DEFINITION. The decoder, one function per format of spec/30_encoding.md R80, and the encoder written from the same
tables. An equality format gives one row; a bit-tested format gives every row whose bit is set, in the order in which the
block treats them (spec/40_classifier.md R126). -/

namespace Sys2Proof

/-- Why a packet is no word of its format. -/
inductive DecodeError where
  /-- A bit-tested value none of whose tested bits is set: no row of its format matches. -/
  | noRowMatches
  /-- A response status that is none of the eight codes, 8 to 15 in the table: "never produced" (R97). -/
  | statusNeverProduced
  /-- A response value other than 0 with a status other than `OK` (R97). -/
  | valueNotZero
  deriving DecidableEq, Repr

/-- What a packet decodes to: its rows, or the reason there are none. -/
inductive Decoded where
  | rows     (rs : List Instr)
  | rejected (e : DecodeError)
  deriving DecidableEq, Repr

/-- One bit-tested row: present exactly when the bit `m` of `w` is set, with the other bits as its operand. -/
def bitRow (row : InstId → Nat → Instr) (m : Nat) (i : InstId) (w : Nat) : Option Instr :=
  if hasBit w m then some (row i (without w m)) else none

/-- `IIR_A` (R81, R82; spec/40_classifier.md R120, R121): equality on the masked value. -/
def decodeIirA (c : Config) (i : InstId) (w : Nat) : Instr :=
  let v := w &&& c.iirA.mask
  let ign := without w c.iirA.mask
  if v == c.iirA.rxData then .iirARxData i ign
  else if v == c.iirA.thrEmpty then .iirAThrEmpty i ign
  else if v == c.iirA.lineErr then .iirALineErr i ign
  else if v == c.iirA.timeout then .iirATimeout i ign
  else if v == c.iirA.modem then .iirAModem i ign
  else if v == 0 then .iirANone i ign
  else if v == 6 then .iirAUnexpected6 i w
  else .iirAUnexpected7 i w

/-- The five tests of spec/40_classifier.md R123, each independent of the others. -/
def rowIirBRxData (c : Config) (i : InstId) (w : Nat) : Option Instr := bitRow .iirBRxData c.iirB.rxData i w

/-- See `rowIirBRxData`. -/
def rowIirBThrEmpty (c : Config) (i : InstId) (w : Nat) : Option Instr := bitRow .iirBThrEmpty c.iirB.thrEmpty i w

/-- See `rowIirBRxData`. -/
def rowIirBLineErr (c : Config) (i : InstId) (w : Nat) : Option Instr := bitRow .iirBLineErr c.iirB.lineErr i w

/-- See `rowIirBRxData`. -/
def rowIirBTimeout (c : Config) (i : InstId) (w : Nat) : Option Instr := bitRow .iirBTimeout c.iirB.timeout i w

/-- See `rowIirBRxData`. -/
def rowIirBModem (c : Config) (i : InstId) (w : Nat) : Option Instr := bitRow .iirBModem c.iirB.modem i w

/-- The variant B tests of steps 1 and 2 (spec/40_classifier.md R115). -/
def rowIirBDmaTxDone (c : Config) (i : InstId) (w : Nat) : Option Instr := bitRow .iirBDmaTxDone c.iirB.dmaTxDone i w

/-- See `rowIirBDmaTxDone`. -/
def rowIirBDmaRxDone (c : Config) (i : InstId) (w : Nat) : Option Instr := bitRow .iirBDmaRxDone c.iirB.dmaRxDone i w

/-- "None of the five non-DMA bits is set in `v`" (spec/40_classifier.md R125). -/
def rowIirBNoneMatched (c : Config) (i : InstId) (w : Nat) : Option Instr :=
  if (w &&& c.iirB.nonDmaMask) &&& c.iirB.known == 0 then some (.iirBNoneMatched i w) else none

/-- `IIR_B` (R83, R84): every row that the value matches, in the order of spec/60_exceptions.md R201. -/
def decodeIirB (c : Config) (i : InstId) (w : Nat) : List Instr :=
  [rowIirBDmaTxDone c i w, rowIirBDmaRxDone c i w, rowIirBRxData c i w, rowIirBThrEmpty c i w, rowIirBLineErr c i w,
   rowIirBTimeout c i w, rowIirBModem c i w, rowIirBNoneMatched c i w].filterMap id

/-- The variant A tests of steps 1 and 2 (R85; spec/40_classifier.md R115). -/
def rowDmaStatusATxDone (c : Config) (i : InstId) (w : Nat) : Option Instr := bitRow .dmaStatusATxDone c.dmaA.txDone i w

/-- See `rowDmaStatusATxDone`. -/
def rowDmaStatusARxDone (c : Config) (i : InstId) (w : Nat) : Option Instr := bitRow .dmaStatusARxDone c.dmaA.rxDone i w

/-- `DMA_STATUS_A` (R85). -/
def decodeDmaStatusA (c : Config) (i : InstId) (w : Nat) : List Instr :=
  [rowDmaStatusATxDone c i w, rowDmaStatusARxDone c i w].filterMap id

/-- The data-ready test of the receive loops (spec/41_condition_handlers.md R142, R150). -/
def rowLsrDr (c : Config) (i : InstId) (w : Nat) : Option Instr := bitRow .lsrDr c.lsr.dr i w

/-- `LSR` (R87): every bit the format names. -/
def decodeLsr (c : Config) (i : InstId) (w : Nat) : List Instr :=
  [rowLsrDr c i w, bitRow .lsrOe c.lsr.oe i w, bitRow .lsrPe c.lsr.pe i w, bitRow .lsrFe c.lsr.fe i w,
   bitRow .lsrBi c.lsr.bi i w, bitRow .lsrTxEmpty c.lsr.txEmpty i w].filterMap id

/-- The sixteen rows of format `EV` with their masks (R86). -/
def evRows (c : Config) (i : InstId) : List (Nat × Instr) :=
  [(c.ev.dmaTxComplete, .evDmaTxComplete i), (c.ev.rxBufferLow, .evRxBufferLow i), (c.ev.dmaRxToCb, .evDmaRxToCb i),
   (c.ev.dmaRxReady, .evDmaRxReady i), (c.ev.unexpected, .evUnexpected i), (c.ev.rxToCb, .evRxToCb i),
   (c.ev.rxReady, .evRxReady i), (c.ev.txComplete, .evTxComplete i), (c.ev.errOverrun, .evErrOverrun i),
   (c.ev.errParity, .evErrParity i), (c.ev.errFraming, .evErrFraming i), (c.ev.errBreak, .evErrBreak i),
   (c.ev.rxEndedNoData, .evRxEndedNoData i), (c.ev.rxEndedToCb, .evRxEndedToCb i),
   (c.ev.rxMaybeReady, .evRxMaybeReady i), (c.ev.hwFc, .evHwFc i)]

/-- `EV` (R86): the events of a mask, as the application tests them "with bitwise-AND" (spec/60_exceptions.md R202). -/
def decodeEv (c : Config) (i : InstId) (m : Nat) : List Instr :=
  ((evRows c i).filter (fun p => hasBit m p.1)).map (fun p => p.2)

/-- The status a code stands for (R97). -/
def EncRsp.statusOf (e : EncRsp) (code : BitVec 4) : Option Status :=
  if code = e.ok then some .ok
  else if code = e.invalidId then some .invalidId
  else if code = e.notInit then some .notInit
  else if code = e.notPowered then some .notPowered
  else if code = e.dmaNotEnabled then some .dmaNotEnabled
  else if code = e.bufferTooSmall then some .bufferTooSmall
  else if code = e.badDmaBuffer then some .badDmaBuffer
  else if code = e.unsupported then some .unsupported
  else none

/-- The row of a failing status. -/
def rspRow (i : InstId) : Status → Instr
  | .ok => .rspOk i 0
  | .invalidId => .rspInvalidId i
  | .notInit => .rspNotInit i
  | .notPowered => .rspNotPowered i
  | .dmaNotEnabled => .rspDmaNotEnabled i
  | .bufferTooSmall => .rspBufferTooSmall i
  | .badDmaBuffer => .rspBadDmaBuffer i
  | .unsupported => .rspUnsupported i

/-- `RSP` (R97): the eight status codes, a value of `LENW` bits with `OK` only (assumption 18). -/
def decodeRsp (c : Config) (i : InstId) (status : BitVec 4) (value : Nat) : Decoded :=
  match c.rsp.statusOf status with
  | none => .rejected .statusNeverProduced
  | some .ok => .rows [.rspOk i (c.len value)]
  | some st => if value = 0 then .rows [rspRow i st] else .rejected .valueNotZero

/-- `CMD` (R92, R93): under the tabulated layout `op` in bits 2:0, `inst` in 7:3, `arg0` in 39:8, `arg1` in 71:40. Every word
is a command; a bit that belongs to no field is ignored. -/
def decodeCmd (c : Config) (w : Nat) : Instr :=
  let i := cmdInst c w
  let arg0 := slice w c.cmd.arg0At c.addrw
  let arg1 := slice w c.cmd.arg1At c.lenw
  let op : BitVec 3 := BitVec.ofNat 3 (slice w c.cmd.opAt 3)
  if op = c.cmd.initCommit then .initCommit i arg0 arg1
  else if op = c.cmd.swap then .swap i arg0 arg1
  else if op = c.cmd.left then .left i arg0 arg1
  else if op = c.cmd.txdmaStart then .txdmaStart i arg0 arg1
  else if op = c.cmd.powerOffMark then .powerOffMark i arg0 arg1
  else if op = c.cmd.powerOnMark then .powerOnMark i arg0 arg1
  else if op = c.cmd.uninitMark then .uninitMark i arg0 arg1
  else .reserved7 i arg0 arg1

/-- A bit-tested format: its rows, or the refusal that none matches. -/
def Decoded.ofRows : List Instr → Decoded
  | [] => .rejected .noRowMatches
  | rs => .rows rs

/-- The decoder: total, every packet gives its rows or a named rejection. -/
def decode (c : Config) : Packet → Decoded
  | .irqEntry i => .rows [.irq i]
  | .cmd w => .rows [decodeCmd c w]
  | .iirA i w => .rows [decodeIirA c i w]
  | .iirB i w => .ofRows (decodeIirB c i w)
  | .dmaStatusA i w => .ofRows (decodeDmaStatusA c i w)
  | .lsr i w => .ofRows (decodeLsr c i w)
  | .ev i m => .ofRows (decodeEv c i m)
  | .rsp i status value => decodeRsp c i status value

/-- The status code of R97. -/
def EncRsp.code (e : EncRsp) : Status → BitVec 4
  | .ok => e.ok
  | .invalidId => e.invalidId
  | .notInit => e.notInit
  | .notPowered => e.notPowered
  | .dmaNotEnabled => e.dmaNotEnabled
  | .bufferTooSmall => e.bufferTooSmall
  | .badDmaBuffer => e.badDmaBuffer
  | .unsupported => e.unsupported

/-- A field of `n` bits of a command word at its place. -/
def cmdField (v place n : Nat) : Nat := clip n v <<< place

/-- A command word from its fields (R92). -/
def cmdWord (c : Config) (op : BitVec 3) (i : InstId) (arg0 arg1 : Nat) : Nat :=
  cmdField op.toNat c.cmd.opAt 3 ||| cmdField i.toNat c.cmd.instAt 5 ||| cmdField arg0 c.cmd.arg0At c.addrw
    ||| cmdField arg1 c.cmd.arg1At c.lenw

/-- The encoder: the word of each row on its port. -/
def encode (c : Config) : Instr → Packet
  | .irq i => .irqEntry i
  | .initCommit i a b => .cmd (cmdWord c c.cmd.initCommit i a b)
  | .swap i a b => .cmd (cmdWord c c.cmd.swap i a b)
  | .left i a b => .cmd (cmdWord c c.cmd.left i a b)
  | .txdmaStart i a b => .cmd (cmdWord c c.cmd.txdmaStart i a b)
  | .powerOffMark i a b => .cmd (cmdWord c c.cmd.powerOffMark i a b)
  | .powerOnMark i a b => .cmd (cmdWord c c.cmd.powerOnMark i a b)
  | .uninitMark i a b => .cmd (cmdWord c c.cmd.uninitMark i a b)
  | .reserved7 i a b => .cmd (cmdWord c c.cmd.reserved7 i a b)
  | .iirALineErr i g => .iirA i (g ||| c.iirA.lineErr)
  | .iirARxData i g => .iirA i (g ||| c.iirA.rxData)
  | .iirAThrEmpty i g => .iirA i (g ||| c.iirA.thrEmpty)
  | .iirATimeout i g => .iirA i (g ||| c.iirA.timeout)
  | .iirAModem i g => .iirA i (g ||| c.iirA.modem)
  | .iirANone i g => .iirA i g
  | .iirAUnexpected6 i w => .iirA i w
  | .iirAUnexpected7 i w => .iirA i w
  | .iirBLineErr i g => .iirB i (g ||| c.iirB.lineErr)
  | .iirBRxData i g => .iirB i (g ||| c.iirB.rxData)
  | .iirBThrEmpty i g => .iirB i (g ||| c.iirB.thrEmpty)
  | .iirBTimeout i g => .iirB i (g ||| c.iirB.timeout)
  | .iirBModem i g => .iirB i (g ||| c.iirB.modem)
  | .iirBDmaTxDone i g => .iirB i (g ||| c.iirB.dmaTxDone)
  | .iirBDmaRxDone i g => .iirB i (g ||| c.iirB.dmaRxDone)
  | .iirBNoneMatched i w => .iirB i w
  | .dmaStatusATxDone i g => .dmaStatusA i (g ||| c.dmaA.txDone)
  | .dmaStatusARxDone i g => .dmaStatusA i (g ||| c.dmaA.rxDone)
  | .lsrDr i g => .lsr i (g ||| c.lsr.dr)
  | .lsrOe i g => .lsr i (g ||| c.lsr.oe)
  | .lsrPe i g => .lsr i (g ||| c.lsr.pe)
  | .lsrFe i g => .lsr i (g ||| c.lsr.fe)
  | .lsrBi i g => .lsr i (g ||| c.lsr.bi)
  | .lsrTxEmpty i g => .lsr i (g ||| c.lsr.txEmpty)
  | .evDmaTxComplete i => .ev i c.ev.dmaTxComplete
  | .evRxBufferLow i => .ev i c.ev.rxBufferLow
  | .evDmaRxToCb i => .ev i c.ev.dmaRxToCb
  | .evDmaRxReady i => .ev i c.ev.dmaRxReady
  | .evUnexpected i => .ev i c.ev.unexpected
  | .evRxToCb i => .ev i c.ev.rxToCb
  | .evRxReady i => .ev i c.ev.rxReady
  | .evTxComplete i => .ev i c.ev.txComplete
  | .evErrOverrun i => .ev i c.ev.errOverrun
  | .evErrParity i => .ev i c.ev.errParity
  | .evErrFraming i => .ev i c.ev.errFraming
  | .evErrBreak i => .ev i c.ev.errBreak
  | .evRxEndedNoData i => .ev i c.ev.rxEndedNoData
  | .evRxEndedToCb i => .ev i c.ev.rxEndedToCb
  | .evRxMaybeReady i => .ev i c.ev.rxMaybeReady
  | .evHwFc i => .ev i c.ev.hwFc
  | .rspOk i v => .rsp i c.rsp.ok v
  | .rspInvalidId i => .rsp i c.rsp.invalidId 0
  | .rspNotInit i => .rsp i c.rsp.notInit 0
  | .rspNotPowered i => .rsp i c.rsp.notPowered 0
  | .rspDmaNotEnabled i => .rsp i c.rsp.dmaNotEnabled 0
  | .rspBufferTooSmall i => .rsp i c.rsp.bufferTooSmall 0
  | .rspBadDmaBuffer i => .rsp i c.rsp.badDmaBuffer 0
  | .rspUnsupported i => .rsp i c.rsp.unsupported 0

/-- The packet a bare word of the opcode table is taken to stand on: 9 to 32 bits, a register value, taken as the
identification value of variant A on instance 0; any other size, a command (assumption 14). -/
def tablePacket (nbits w : Nat) : Packet :=
  if 8 < nbits ∧ nbits ≤ 32 then .iirA 0 (clip 32 w) else .cmd (clip 72 w)

/-- The instruction the decoder reads from a bare word of the opcode table (assumption 14). -/
def decodeTableWord (nbits w : Nat) : Option Instr :=
  match decode (Config.default .A) (tablePacket nbits w) with
  | .rows (r :: _) => some r
  | _ => none

end Sys2Proof
end

