-- ==== Sys2Proof/Machine/State.lean ====
section
/-! DEFINITION. The machine's state as plain data: the per-instance record and sequencer of spec/10_state.md, the
environment's write side, buffer memory, and the model's own inputs and trace (INVENTORY.md lists every field). A value of a
parameterised width is a natural number (Word.lean). -/

namespace Sys2Proof.Machine

/-- The registers the block accesses (spec/20_memory.md R51), in selector order. -/
inductive Reg where
  | IIR
  | LSR
  | RBR
  | DMA_STATUS
  | DMA_TX_EN
  | DMA_RX_EN
  | DMA_RX_ADDR
  | DMA_RX_LEN
  | DMA_RX_LEFT
  | DMA_TX_ADDR
  | DMA_TX_LEN
  deriving DecidableEq, Repr

/-- The configuration fields no rule reads (spec/10_state.md R38), as bare numbers (assumption 19). -/
structure CfgOther where
  txPin              : Nat
  rxPin              : Nat
  rtsPin             : Nat
  ctsPin             : Nat
  baudRate           : Nat
  dataBits           : Nat
  stopBits           : Nat
  parity             : Nat
  fifoTrigger        : Nat
  hwFlowControl      : Bool
  chipInterrupts     : Bool
  wakeOnInterrupt    : Bool
  runWhenSleeping    : Bool
  interruptPriority  : Nat
  clockSource        : Nat
  sleepBaudRate      : Nat
  sleepClockSource   : Nat
  deriving DecidableEq, Repr

/-- The configuration record `S[i].cfg` (R23 to R28) and the side-band `cfg_in` (spec/30_encoding.md R96). -/
structure Cfg where
  txDmaEn         : Bool
  rxDmaEn         : Bool
  rxCb            : Option Nat
  evCb            : Option Nat
  rxDmaBuffer     : Nat
  rxDmaBuffLength : Nat
  other           : CfgOther
  deriving DecidableEq, Repr

/-- The sequencer `phase[i]` (spec/10_state.md R30). `cRxDataLoop` and `cTimeoutLoop` are the repeating parts of `C_RXDATA`
and `C_TIMEOUT`; `kExecSwap` and `kExecFill` are `K_EXEC` of `SWAP` and of `INIT_COMMIT`. The K phases carry what the
command in progress still needs: `SWAP`'s arguments, the fill's next index. `K_CHECK` and `K_RESPOND` begin and end within
a step and are never rested in (assumption 17). -/
inductive Phase where
  | idle
  | cTxDma
  | cRxDma
  | cDrain
  | cDecode
  | cRxData
  | cRxDataLoop
  | cThre
  | cLine
  | cTimeout
  | cTimeoutLoop
  | cModem
  | cDispatch
  | kDrain (newBuffer newLength : Nat)
  | kExecSwap (newBuffer newLength : Nat)
  | kExecFill (k : Nat)
  deriving DecidableEq, Repr

/-- The write side of the UART and its DMA engine, the block's environment: the last value written to each register the
block programs (spec/20_memory.md R51, R63), and the address and length the RX DMA latched (R64). The block reads none of
it (assumption 15). -/
structure Uart where
  dmaTxEn       : Nat
  dmaRxEn       : Nat
  dmaRxAddr     : Nat
  dmaRxLen      : Nat
  dmaTxAddr     : Nat
  dmaTxLen      : Nat
  rxLatchedAddr : Nat
  rxLatchedLen  : Nat
  deriving DecidableEq, Repr

/-- Everything held per instance: the record `S[i]` (R21 to R29), the sequencer (R30), the working registers (R31 to R36),
the interrupt entries held while the engine is busy (spec/20_memory.md R72), and the environment's write side. -/
structure Engine where
  initialized : Bool
  powered     : Bool
  cfg         : Cfg
  cursor      : Nat
  phase       : Phase
  ev          : Nat
  iir         : Nat
  v           : Nat
  left        : Nat
  n           : Nat
  b           : Byte
  l           : Nat
  heldIrq     : Nat
  uart        : Uart
  deriving DecidableEq, Repr

/-- One entry of the action trace (spec/00_scope.md R5), tagged with its instance. -/
inductive Act where
  /-- `R(reg)=v` -/
  | regRead  (i : InstId) (r : Reg) (v : Nat)
  /-- `W(reg,v)` -/
  | regWrite (i : InstId) (r : Reg) (v : Nat)
  /-- `M(a)=b` -/
  | memRead  (i : InstId) (a : Nat) (b : Byte)
  /-- `MW(a,b)` -/
  | memWrite (i : InstId) (a : Nat) (b : Byte)
  /-- `CB(b)` -/
  | byteSink (i : InstId) (b : Byte)
  /-- `EV(m)` -/
  | eventSink (i : InstId) (m : Nat)
  /-- `RET(status,value)` -/
  | ret      (i : InstId) (status : Status) (value : Nat)
  deriving DecidableEq, Repr

/-- A coming answer of the environment: the next read of register `r` of instance `i` answers `v` (the `R -> v` scripts of
spec/30_encoding.md R100). -/
structure Answer where
  i : InstId
  r : Reg
  v : Nat
  deriving DecidableEq, Repr

/-- What the outside world does next (assumption 2). -/
inductive Turn where
  /-- one event on `irq_entry[i]` (spec/60_exceptions.md R203) -/
  | irq (i : InstId)
  /-- a command word with its side-band record on port `cmd` (spec/00_scope.md R4) -/
  | cmd (w : Nat) (cfgIn : Cfg)
  /-- the RX DMA stores a byte into buffer memory (spec/20_memory.md R67, R70) -/
  | dmaStore (a : Nat) (b : Byte)
  /-- process start or power loss (spec/70_reset_and_hazards.md R221), at any time: the model's own input, since the source
  gives the block no reset port (assumption 23) -/
  | reset
  /-- engine `i` makes one step -/
  | run (i : InstId)
  /-- port `cmd` offers the oldest waiting command again -/
  | host
  deriving DecidableEq, Repr

/-- Buffer memory: address and byte, addresses strictly rising, no entry equal to what an unlisted address reads as. -/
abbrev Memory := List Host.Cell

/-- The machine. -/
structure State where
  conf    : Config
  engines : List Engine
  mem     : Memory
  cfgIn   : Cfg
  cmdq    : List (Nat × Cfg)
  agenda  : List Turn
  answers : List Answer
  freeIx  : Nat
  trace   : List Act
  deriving DecidableEq, Repr

/-- Why a step faults: never. The block has no trap (spec/60_exceptions.md section 1): a failing command answers a status
and the machine goes on, so no constructor exists and no step can end in a fault. -/
inductive Fault where
  deriving DecidableEq, Repr

/-- Why a step has no meaning. -/
inductive Refusal where
  /-- Raised by `exec` for a row that has no meaning yet; safe. No row is left (Machine/Dispatch.lean). -/
  | notModelled (mnemonic : String)
  /-- Raised by `INIT_COMMIT` and `SWAP` of an instance that exists where the buffer they name runs past the top of the address
  space (spec/20_memory.md R55, spec/93_implementation_defined.md U7: refuse); safe (assumption 9). -/
  | bufferPastTop
  /-- Raised by an interrupt entry or a register or event row of an instance that does not exist (spec/10_state.md R20: an
  activation always has a valid instance); safe (assumption 21). A response row is not refused (assumption 24). -/
  | noSuchInstance
  deriving DecidableEq, Repr

/-- `cfg.other` at reset: unspecified by R220; zero (assumption 7). -/
def CfgOther.reset : CfgOther where
  txPin := 0
  rxPin := 0
  rtsPin := 0
  ctsPin := 0
  baudRate := 0
  dataBits := 0
  stopBits := 0
  parity := 0
  fifoTrigger := 0
  hwFlowControl := false
  chipInterrupts := false
  wakeOnInterrupt := false
  runWhenSleeping := false
  interruptPriority := 0
  clockSource := 0
  sleepBaudRate := 0
  sleepClockSource := 0

/-- The configuration at reset (spec/70_reset_and_hazards.md R220). -/
def Cfg.reset : Cfg where
  txDmaEn := false
  rxDmaEn := false
  rxCb := none
  evCb := none
  rxDmaBuffer := 0
  rxDmaBuffLength := 0
  other := CfgOther.reset

/-- The environment's write side at reset: not in the source (R222); zero (assumption 15). -/
def Uart.reset : Uart where
  dmaTxEn := 0
  dmaRxEn := 0
  dmaRxAddr := 0
  dmaRxLen := 0
  dmaTxAddr := 0
  dmaTxLen := 0
  rxLatchedAddr := 0
  rxLatchedLen := 0

/-- One instance at reset (R220); the working registers are unspecified there, zero here (assumption 7). -/
def Engine.reset : Engine where
  initialized := false
  powered := false
  cfg := Cfg.reset
  cursor := 0
  phase := .idle
  ev := 0
  iir := 0
  v := 0
  left := 0
  n := 0
  b := 0
  l := 0
  heldIrq := 0
  uart := Uart.reset

/-- The reset state of a block with the parameters `c` (R220): every instance reset, nothing pending. -/
def State.resetWith (c : Config) : State where
  conf := c
  engines := List.replicate c.nInst Engine.reset
  mem := []
  cfgIn := Cfg.reset
  cmdq := []
  agenda := []
  answers := []
  freeIx := 0
  trace := []

/-- The machine right after reset: variant A with the values of `Config.default` (assumption 5). -/
def State.reset : State := State.resetWith (Config.default .A)

end Sys2Proof.Machine
end

