-- ==== Sys2Proof/Machine/Ops.lean ====
section
/-! DEFINITION. The shared operations of the engine: access to an instance's record, the access primitives of
spec/20_memory.md section 2, the sinks, the response of a command, and the entry and return of an activation
(spec/60_exceptions.md section 4), which is this block's counterpart of taking and leaving an exception. -/

namespace Sys2Proof.Machine

/-- What the machine's step answers. -/
abbrev Result := Host.Outcome State Fault Refusal

/-- `i` names an instance (spec/10_state.md R20). -/
abbrev State.has (s : State) (i : InstId) : Prop := i.toNat < s.conf.nInst

/-- The record of instance `i`. -/
def State.eng (s : State) (i : InstId) : Engine := s.engines[i.toNat]?.getD Engine.reset

/-- Change the record of instance `i` and of no other. -/
def State.upd (s : State) (i : InstId) (f : Engine → Engine) : State :=
  { s with engines := s.engines.modify i.toNat f }

/-- Append one action to the trace (spec/00_scope.md R5). -/
def State.emit (s : State) (a : Act) : State := { s with trace := s.trace ++ [a] }

/-- Move the sequencer of instance `i` to phase `p` (spec/00_scope.md R9: `phase <- P`). -/
def State.setPhase (s : State) (i : InstId) (p : Phase) : State := s.upd i fun x => { x with phase := p }

/-- Process start or power loss during a run (spec/70_reset_and_hazards.md R221): every instance is reset and port `cmd` is
empty. Buffer memory is not the block's and keeps its bytes, and what the outside world does next and what it has seen stay
(assumption 23). -/
def restart (s : State) : State :=
  { State.resetWith s.conf with
    mem := s.mem, agenda := s.agenda, answers := s.answers, freeIx := s.freeIx, trace := s.trace }

/-! ### Buffer memory -/

/-- What a byte that nothing has written reads as (assumption 8). -/
def Memory.blank : Byte := 0

/-- The byte at an address. -/
def Memory.get : Memory → Nat → Byte
  | [], _ => Memory.blank
  | (k, c) :: rest, a => if k = a then c else Memory.get rest a

/-- Store a byte, keeping the canonical form. -/
def Memory.put : Memory → Nat → Byte → Memory
  | [], a, b => if b = Memory.blank then [] else [(a, b)]
  | (k, c) :: rest, a, b =>
    if a < k then (if b = Memory.blank then (k, c) :: rest else (a, b) :: (k, c) :: rest)
    else if a = k then (if b = Memory.blank then rest else (a, b) :: rest)
    else (k, c) :: Memory.put rest a b

/-- The canonical form: addresses strictly rising, no entry equal to a blank byte. -/
abbrev Memory.wf (m : Memory) : Prop :=
  m.Pairwise (fun p q => p.1 < q.1) ∧ ∀ p ∈ m, p.2 ≠ Memory.blank

/-- The byte at address `a`, without the access. -/
def State.byteAt (s : State) (a : Nat) : Byte := Memory.get s.mem a

/-- Change the byte at address `a`, without an access of the block: a store of the RX DMA (spec/20_memory.md R67). -/
def State.putByte (s : State) (a : Nat) (b : Byte) : State := { s with mem := Memory.put s.mem a b }

/-- `MemRead(a, 1)` (spec/20_memory.md R54): no side effect but the trace. -/
def memRead (i : InstId) (a : Nat) (s : State) : Byte × State := (s.byteAt a, s.emit (.memRead i a (s.byteAt a)))

/-- `MemWrite(a, 1, b)` (R54). -/
def memWrite (i : InstId) (a : Nat) (b : Byte) (s : State) : State := (s.putByte a b).emit (.memWrite i a b)

/-! ### Registers -/

/-- The first scripted answer for register `r` of instance `i`, and the script without it. -/
def takeAnswer (i : InstId) (r : Reg) : List Answer → Option (Nat × List Answer)
  | [] => none
  | a :: rest =>
    if a.i = i ∧ a.r = r then some (a.v, rest)
    else (takeAnswer i r rest).map fun p => (p.1, a :: p.2)

/-- What the environment answers to the next read of register `r` of instance `i`, and what is left of the answers: the next
scripted answer for that register, any value where none is scripted (assumption 3). -/
def nextAnswer (i : InstId) (r : Reg) (s : State) : Nat × State :=
  match takeAnswer i r s.answers with
  | some (v, rest) => (v, { s with answers := rest })
  | none => (Config.freeReg s.freeIx, { s with freeIx := s.freeIx + 1 })

/-- `RegRead(i, R)` (spec/20_memory.md R52, R53, R68): one read of `REGW` bits, answered by the environment. -/
def regRead (i : InstId) (r : Reg) (s : State) : Nat × State :=
  let (a, s) := nextAnswer i r s
  let v := s.conf.reg a
  (v, s.emit (.regRead i r v))

/-- What a register write does on the environment's side: the value stands in the register, and the RX DMA latches address
and length "only while RX DMA is transitioning from disabled to enabled" (R64). -/
def Uart.write (u : Uart) (r : Reg) (v : Nat) : Uart :=
  match r with
  | .DMA_TX_EN => { u with dmaTxEn := v }
  | .DMA_RX_EN =>
    if u.dmaRxEn = 0 ∧ v ≠ 0 then
      { u with dmaRxEn := v, rxLatchedAddr := u.dmaRxAddr, rxLatchedLen := u.dmaRxLen }
    else { u with dmaRxEn := v }
  | .DMA_RX_ADDR => { u with dmaRxAddr := v }
  | .DMA_RX_LEN => { u with dmaRxLen := v }
  | .DMA_TX_ADDR => { u with dmaTxAddr := v }
  | .DMA_TX_LEN => { u with dmaTxLen := v }
  | .IIR | .LSR | .RBR | .DMA_STATUS | .DMA_RX_LEFT => u

/-- `RegWrite(i, R, v)` (R52): one write of `REGW` bits, which always completes. -/
def regWrite (i : InstId) (r : Reg) (v : Nat) (s : State) : State :=
  let v := s.conf.reg v
  (s.upd i fun x => { x with uart := x.uart.write r v }).emit (.regWrite i r v)

/-! ### Sinks and response -/

/-- `ByteSink(i, b)` (spec/00_scope.md R9): a call that always completes (spec/60_exceptions.md R206). -/
def byteSink (i : InstId) (b : Byte) (s : State) : State := s.emit (.byteSink i b)

/-- `EventSink(i, m)`. -/
def eventSink (i : InstId) (m : Nat) (s : State) : State := s.emit (.eventSink i m)

/-- `return status` (spec/60_exceptions.md R190, spec/42_dma_cursor.md R185): the one response, after which the engine is
idle. For an instance that does not exist only the response is made (R191, spec/30_encoding.md R94; for another status than
`E_INVALID_ID` DESIGN CHOICE, assumption 24). -/
def respond (i : InstId) (status : Status) (value : Nat) (s : State) : State :=
  (s.setPhase i .idle).emit (.ret i status value)

/-! ### Activation entry and return -/

/-- Entry of an activation (spec/40_classifier.md R113, spec/60_exceptions.md R203): `ev <- 0`, on variant B the one read of
`IIR`, then step 1. -/
def enterActivation (i : InstId) (s : State) : State :=
  let s := s.upd i fun x => { x with ev := 0 }
  match s.conf.variant with
  | .A => s.setPhase i .cTxDma
  | .B =>
    let (w, s) := regRead i .IIR s
    s.upd i fun x => { x with iir := w, phase := .cTxDma }

/-- Step 9 and return (spec/40_classifier.md R128, R129; spec/60_exceptions.md R205): one event call with the accumulated
mask, also when it is 0, if an event callback is registered; then the engine is idle. -/
def leaveActivation (i : InstId) (s : State) : State :=
  let x := s.eng i
  let s := if x.cfg.evCb.isSome then eventSink i x.ev s else s
  s.setPhase i .idle

/-- An interrupt entry that finds the engine busy is held (spec/20_memory.md R72; assumption 10). -/
def holdIrq (i : InstId) (s : State) : State := s.upd i fun x => { x with heldIrq := x.heldIrq + 1 }

/-- An interrupt entry and a row of a register or event format act on an instance that exists (assumption 21). -/
def onInst (i : InstId) (f : State → State) (s : State) : Result :=
  if s.has i then .next (f s) else .refused .noSuchInstance

/-- The frame of every command (spec/42_dma_cursor.md R185, R186): the range check first; a command that finds the engine
busy waits with its side-band record (spec/20_memory.md R72; assumption 11); else its own rule. -/
def command (w : Nat) (i : InstId) (own : State → Result) (s : State) : Result :=
  if s.has i then
    if (s.eng i).phase = .idle then own s
    else .next { s with cmdq := s.cmdq ++ [(w, s.cfgIn)] }
  else .next (respond i .invalidId 0 s)

end Sys2Proof.Machine
end

