-- ==== Sys2Proof/Machine/Operands.lean ====
section
/-! DEFINITION. The operand forms and checks of the commands and of the drain: readiness, the buffer checks, the address of
a buffer byte. -/

namespace Sys2Proof.Machine

/-- `check_ready` after the range check (spec/42_dma_cursor.md R170): the failing status, none when ready. -/
def checkReady (x : Engine) : Option Status :=
  if x.initialized = false then some .notInit
  else if x.powered = false then some .notPowered
  else none

/-- Ready, and the configuration flag of the direction is set (R172, R180, R182). -/
def checkDma (x : Engine) (enabled : Bool) : Option Status :=
  match checkReady x with
  | some st => some st
  | none => if enabled = false then some .dmaNotEnabled else none

/-- The checks of `SWAP` in order (R171, R173; spec/60_exceptions.md R192). -/
def checkSwap (c : Config) (x : Engine) (newLength : Nat) : Option Status :=
  match checkDma x x.cfg.rxDmaEn with
  | some st => some st
  | none => if newLength < c.rxDmaMinLen then some .bufferTooSmall else none

/-- The record on port `cmd` as `INIT_COMMIT` samples it (spec/30_encoding.md R96): an address of `ADDRW` bits and a length of
`LENW` bits. -/
def sampled (c : Config) (cfg : Cfg) : Cfg :=
  { cfg with rxDmaBuffer := c.addr cfg.rxDmaBuffer, rxDmaBuffLength := c.len cfg.rxDmaBuffLength }

/-- Validator check 4 of `INIT_COMMIT` (R176). -/
def checkInit (c : Config) (cfg : Cfg) : Option Status :=
  if cfg.rxDmaEn = true ∧ (cfg.rxDmaBuffer = 0 ∨ cfg.rxDmaBuffLength < c.rxDmaMinLen
      ∨ cfg.rxDmaBuffLength % 4 ≠ 0) then some .badDmaBuffer
  else none

/-- Check of the three marks after the range check (R183, R184). -/
def checkInitialized (x : Engine) : Option Status :=
  if x.initialized = false then some .notInit else none

/-- `rx_dma_buffer + rx_dma_buff_length <= 2^ADDRW` (spec/20_memory.md R55). -/
abbrev fits (c : Config) (buffer length : Nat) : Prop := buffer + length ≤ 2 ^ c.addrw

/-- The address of byte `k` of a buffer, computed in `ADDRW` bits (R55). -/
def bufByte (c : Config) (buffer k : Nat) : Nat := c.addr (buffer + k)

/-- The remaining length: `RegRead(i, DMA_RX_LEFT)[LENW-1:0]` into `left` (spec/40_classifier.md R117). -/
def readLeft (i : InstId) (s : State) : Nat × State :=
  let (w, s) := regRead i .DMA_RX_LEFT s
  let left := s.conf.len w
  (left, s.upd i fun x => { x with left := left })

/-- The byte read from the receive-buffer register: `RegRead(i, RBR)[7:0]` into `b` (spec/41_condition_handlers.md R142). -/
def readRbr (i : InstId) (s : State) : Byte × State :=
  let (w, s) := regRead i .RBR s
  let b := BitVec.ofNat 8 w
  (b, s.upd i fun x => { x with b := b })

/-- The line status: `RegRead(i, LSR)` into `l`. -/
def readLsr (i : InstId) (s : State) : Nat × State :=
  let (w, s) := regRead i .LSR s
  (w, s.upd i fun x => { x with l := w })

/-- Where the scan of the drain ends: the buffer's length, "truncated to a common width" where it is wider than the cursor
(spec/42_dma_cursor.md R164), so that `cursor + 1` never wraps (R166). -/
def scanEnd (c : Config) (x : Engine) : Nat := c.cur x.cfg.rxDmaBuffLength

/-- One turn of the drain helper (R164 to R166). True when the scan goes on: the byte at the cursor
was inside the buffer and not zero, so it was delivered and the cursor moved past it. A zero byte is neither delivered nor
passed. -/
def drainTurn (i : InstId) (s : State) : Bool × State :=
  let x := s.eng i
  if x.cursor < scanEnd s.conf x then
    let (b, s) := memRead i (bufByte s.conf x.cfg.rxDmaBuffer x.cursor) s
    let s := s.upd i fun x => { x with b := b }
    if b = 0 then (false, s)
    else (true, (byteSink i b s).upd i fun x => { x with cursor := s.conf.cur (x.cursor + 1) })
  else (false, s)

/-- The register writes and the bookkeeping of `SWAP` (R171, R175): disable, address, length, enable; then the stored
pointer and length and the cursor. -/
def swapCommit (i : InstId) (newBuffer newLength : Nat) (s : State) : State :=
  let s := regWrite i .DMA_RX_EN 0 s
  let s := regWrite i .DMA_RX_ADDR newBuffer s
  let s := regWrite i .DMA_RX_LEN newLength s
  let s := regWrite i .DMA_RX_EN 1 s
  s.upd i fun x =>
    { x with cfg := { x.cfg with rxDmaBuffer := newBuffer, rxDmaBuffLength := newLength }, cursor := 0 }

/-- One turn of `ZeroFill` (R178): `MemWrite(a + k, 1, 0x00)`, ascending. True while bytes remain. -/
def fillTurn (i : InstId) (k : Nat) (s : State) : Bool × State :=
  let cfg := (s.eng i).cfg
  if k < cfg.rxDmaBuffLength then
    (true, (memWrite i (bufByte s.conf cfg.rxDmaBuffer k) 0 s).setPhase i (.kExecFill (k + 1)))
  else (false, s)

end Sys2Proof.Machine
end

