-- ==== Sys2Proof/Machine/Flags.lean ====
section
/-! DEFINITION. The event mask `ev`, the block's only flags (spec/10_state.md R37, spec/30_encoding.md R86): every way an
event bit is set, one operation per event, and the computations that decide between events. -/

namespace Sys2Proof.Machine

/-- `ev <- ev | m` (spec/40_classifier.md R130). -/
def orEv (i : InstId) (m : Nat) (s : State) : State := s.upd i fun x => { x with ev := x.ev ||| m }

/-- `EV_DMA_TX_COMPLETE` (R114). -/
def setDmaTxComplete (i : InstId) (s : State) : State := orEv i s.conf.ev.dmaTxComplete s

/-- `EV_RX_BUFFER_LOW` (R117). -/
def setRxBufferLow (i : InstId) (s : State) : State := orEv i s.conf.ev.rxBufferLow s

/-- `EV_DMA_RX_TO_CB` (R118). -/
def setDmaRxToCb (i : InstId) (s : State) : State := orEv i s.conf.ev.dmaRxToCb s

/-- `EV_DMA_RX_READY` (R118). -/
def setDmaRxReady (i : InstId) (s : State) : State := orEv i s.conf.ev.dmaRxReady s

/-- `EV_UNEXPECTED` (R121, R125). -/
def setUnexpected (i : InstId) (s : State) : State := orEv i s.conf.ev.unexpected s

/-- `EV_RX_TO_CB` (spec/41_condition_handlers.md R142). -/
def setRxToCb (i : InstId) (s : State) : State := orEv i s.conf.ev.rxToCb s

/-- `EV_RX_READY` (R143). -/
def setRxReady (i : InstId) (s : State) : State := orEv i s.conf.ev.rxReady s

/-- `EV_TX_COMPLETE` (R144). -/
def setTxComplete (i : InstId) (s : State) : State := orEv i s.conf.ev.txComplete s

/-- `EV_ERR_OVERRUN` (R146). -/
def setErrOverrun (i : InstId) (s : State) : State := orEv i s.conf.ev.errOverrun s

/-- `EV_ERR_PARITY` (R146). -/
def setErrParity (i : InstId) (s : State) : State := orEv i s.conf.ev.errParity s

/-- `EV_ERR_FRAMING` (R146). -/
def setErrFraming (i : InstId) (s : State) : State := orEv i s.conf.ev.errFraming s

/-- `EV_ERR_BREAK` (R146). -/
def setErrBreak (i : InstId) (s : State) : State := orEv i s.conf.ev.errBreak s

/-- `EV_RX_ENDED_NO_DATA` (R150). -/
def setRxEndedNoData (i : InstId) (s : State) : State := orEv i s.conf.ev.rxEndedNoData s

/-- `EV_RX_ENDED_TO_CB` (R150). -/
def setRxEndedToCb (i : InstId) (s : State) : State := orEv i s.conf.ev.rxEndedToCb s

/-- `EV_RX_MAYBE_READY` (R151). -/
def setRxMaybeReady (i : InstId) (s : State) : State := orEv i s.conf.ev.rxMaybeReady s

/-- `EV_HW_FC` (R153). -/
def setHwFc (i : InstId) (s : State) : State := orEv i s.conf.ev.hwFc s

/-- The low-water test (R117): strict, unsigned. -/
def lowWaterEvent (i : InstId) (left : Nat) (s : State) : State :=
  if left < s.conf.lowWater then setRxBufferLow i s else s

/-- The four error tests of R146 on the line status `l`: all four, none short-circuits. -/
def lineErrorEvents (i : InstId) (l : Nat) (s : State) : State :=
  let e := s.conf.lsr
  let s := if hasBit l e.oe then setErrOverrun i s else s
  let s := if hasBit l e.pe then setErrParity i s else s
  let s := if hasBit l e.fe then setErrFraming i s else s
  if hasBit l e.bi then setErrBreak i s else s

/-- Variant B's unexpected (R125): only if no other event bit was set in the entire pass. -/
def unexpectedIfNone (i : InstId) (s : State) : State :=
  if (s.eng i).ev = 0 then setUnexpected i s else s

end Sys2Proof.Machine
end

