-- ==== Sys2Proof/Machine/Handlers.lean ====
section
/-! DEFINITION. The condition handlers of spec/41_condition_handlers.md and the two DMA steps of spec/40_classifier.md, as
operations shared by the rows of both variants: "the handlers are identical on both variants except for the one extra
write" (R140). `after` is the phase that follows. -/

namespace Sys2Proof.Machine

/-- `H_RXDATA` (R141 to R143). With a receive callback the first byte is read and delivered without a data-ready test and
the loop follows; without one no register is touched. -/
def hRxData (i : InstId) (after : Phase) (s : State) : State :=
  if (s.eng i).cfg.rxCb.isSome then
    let (b, s) := readRbr i s
    (byteSink i b s).setPhase i .cRxDataLoop
  else (setRxReady i s).setPhase i after

/-- `H_THRE` (R144): no register action. -/
def hThre (i : InstId) (after : Phase) (s : State) : State := (setTxComplete i s).setPhase i after

/-- `H_LINE` (R146, R147): one `LSR` read, the four tests, and on variant B the clear-pattern write, unconditionally. -/
def hLine (variant : Variant) (i : InstId) (after : Phase) (s : State) : State :=
  let (l, s) := readLsr i s
  let s := lineErrorEvents i l s
  let s := match variant with
    | .A => s
    | .B => regWrite i .LSR s.conf.lsr.bClear s
  s.setPhase i after

/-- `H_TIMEOUT` (R149 to R151). With a receive callback the loop follows with no byte counted; without one no register is
touched. -/
def hTimeout (i : InstId) (after : Phase) (s : State) : State :=
  if (s.eng i).cfg.rxCb.isSome then s.upd i fun x => { x with n := 0, phase := .cTimeoutLoop }
  else (setRxMaybeReady i s).setPhase i after

/-- `H_MODEM` (R153, R154): no register action; the condition stays pending. -/
def hModem (i : InstId) (after : Phase) (s : State) : State := (setHwFc i s).setPhase i after

/-- One delivered byte of a receive loop (R142, R150): data-ready was set, so `RBR` is read and the byte delivered; the
timeout handler counts it. -/
def receiveByte (i : InstId) (s : State) : State :=
  let (b, s) := readRbr i s
  (byteSink i b s).upd i fun x => { x with n := if x.phase = .cTimeoutLoop then x.n + 1 else x.n }

/-- Step 1 with the condition pending (spec/40_classifier.md R114): if TX DMA is enabled, clear, disable, set the event. -/
def dmaTxDone (i : InstId) (clearReg : Reg) (clearCode : Nat) (s : State) : State :=
  let s := if (s.eng i).cfg.txDmaEn then
      setDmaTxComplete i (regWrite i .DMA_TX_EN 0 (regWrite i clearReg clearCode s))
    else s
  s.setPhase i .cRxDma

/-- Step 2 with the condition pending (R116 to R118): if RX DMA is enabled, clear, test the remaining length, then drain to
the callback (in the phases that follow) or report readiness. -/
def dmaRxDone (i : InstId) (clearReg : Reg) (clearCode : Nat) (s : State) : State :=
  if (s.eng i).cfg.rxDmaEn then
    let s := regWrite i clearReg clearCode s
    let (left, s) := readLeft i s
    let s := lowWaterEvent i left s
    if (s.eng i).cfg.rxCb.isSome then s.setPhase i .cDrain
    else (setDmaRxReady i s).setPhase i .cDecode
  else s.setPhase i .cDecode

/-- The phase after the receive loop of `C_RXDATA`: variant A handles one condition, variant B tests the next. -/
def afterRxData : Variant → Phase
  | .A => .cDispatch
  | .B => .cThre

/-- The phase after the receive loop of `C_TIMEOUT`. -/
def afterTimeout : Variant → Phase
  | .A => .cDispatch
  | .B => .cModem

end Sys2Proof.Machine
end

