-- ==== Sys2Proof/Machine/Activation.lean ====
section
/-! DEFINITION. The row `IRQ` (spec/40_classifier.md R110, R111, R113). An activation lasts several steps: this row is its
entry, the sequencer (Machine/Sequencer.lean) runs its steps 1 to 9. -/

namespace Sys2Proof.Machine

/-- `IRQ i`: one interrupt entry. An idle engine enters an activation; a busy one holds the entry (spec/20_memory.md R72).
No readiness check is made (R112). -/
def execIrq (i : InstId) (s : State) : Result :=
  onInst i (fun s => if (s.eng i).phase = .idle then enterActivation i s else holdIrq i s) s

end Sys2Proof.Machine
end

