-- ==== Sys2Proof/Machine/Commands.lean ====
section
/-! DEFINITION. Format `CMD`: the host commands of spec/42_dma_cursor.md. Every failing command answers at once and has no
other effect (spec/60_exceptions.md R190); a buffer past the top of the address space is refused (spec/20_memory.md R55). -/

namespace Sys2Proof.Machine

/-- A command whose checks give a failing status answers it; else it has its effect. -/
def checked (i : InstId) (fails : Option Status) (effect : State → Result) (s : State) : Result :=
  match fails with
  | some status => .next (respond i status 0 s)
  | none => effect s

/-- The premise of `INIT_COMMIT` and `SWAP` (spec/20_memory.md R55): a command whose buffer runs past the top of the address
space is refused, whatever else holds of it. -/
def withinSpace (buffer length : Nat) (own : State → Result) (s : State) : Result :=
  if fits s.conf buffer length then own s else .refused .bufferPastTop

/-- The record that `INIT_COMMIT` writes (R177): the whole of `S[i]`. -/
def commitRecord (c : Cfg) (x : Engine) : Engine :=
  { x with cfg := c, powered := true, initialized := true, cursor := 0 }

/-- `INIT_COMMIT i {cfg_in}` (R176 to R179). With an RX DMA buffer the zero fill follows in phase `kExecFill`. -/
def execInitCommit (i : InstId) (arg0 arg1 : Nat) (s : State) : Result :=
  command (cmdWord s.conf s.conf.cmd.initCommit i arg0 arg1) i (fun s =>
    let cfg := sampled s.conf s.cfgIn
    withinSpace cfg.rxDmaBuffer cfg.rxDmaBuffLength (checked i (checkInit s.conf cfg) fun s =>
      if cfg.rxDmaEn = true then .next ((s.upd i (commitRecord cfg)).setPhase i (.kExecFill 0))
      else .next (respond i .ok 0 (s.upd i (commitRecord cfg)))) s) s

/-- `SWAP i, new_buffer, new_length` (R171 to R175), of whose operands the block has `ADDRW` and `LENW` bits. With a receive
callback the force-drain of the old buffer comes first, in phase `kDrain`. -/
def execSwap (i : InstId) (arg0 arg1 : Nat) (s : State) : Result :=
  command (cmdWord s.conf s.conf.cmd.swap i arg0 arg1) i (fun s =>
    let newBuffer := s.conf.addr arg0
    let newLength := s.conf.len arg1
    withinSpace newBuffer newLength (checked i (checkSwap s.conf (s.eng i) newLength) fun s =>
      if (s.eng i).cfg.rxCb.isSome then .next (s.setPhase i (.kDrain newBuffer newLength))
      else .next (respond i .ok 0 (swapCommit i newBuffer newLength s))) s) s

/-- `LEFT i` (R180). -/
def execLeft (i : InstId) (arg0 arg1 : Nat) (s : State) : Result :=
  command (cmdWord s.conf s.conf.cmd.left i arg0 arg1) i (fun s =>
    checked i (checkDma (s.eng i) (s.eng i).cfg.rxDmaEn) (fun s =>
      let (left, s) := readLeft i s
      .next (respond i .ok left s)) s) s

/-- `TXDMA_START i, buffer, length` (R182): neither argument is checked; the block has `ADDRW` and `LENW` bits of them. -/
def execTxdmaStart (i : InstId) (arg0 arg1 : Nat) (s : State) : Result :=
  command (cmdWord s.conf s.conf.cmd.txdmaStart i arg0 arg1) i (fun s =>
    let buffer := s.conf.addr arg0
    let length := s.conf.len arg1
    checked i (checkDma (s.eng i) (s.eng i).cfg.txDmaEn) (fun s =>
      .next (respond i .ok 0
        (regWrite i .DMA_TX_EN 1 (regWrite i .DMA_TX_LEN length (regWrite i .DMA_TX_ADDR buffer s))))) s) s

/-- `POWER_OFF_MARK i` (R183). -/
def execPowerOffMark (i : InstId) (arg0 arg1 : Nat) (s : State) : Result :=
  command (cmdWord s.conf s.conf.cmd.powerOffMark i arg0 arg1) i (fun s =>
    checked i (checkInitialized (s.eng i)) (fun s =>
      .next (respond i .ok 0 (s.upd i fun x => { x with powered := false }))) s) s

/-- `POWER_ON_MARK i` (R183): the cursor keeps its value. -/
def execPowerOnMark (i : InstId) (arg0 arg1 : Nat) (s : State) : Result :=
  command (cmdWord s.conf s.conf.cmd.powerOnMark i arg0 arg1) i (fun s =>
    checked i (checkInitialized (s.eng i)) (fun s =>
      .next (respond i .ok 0 (s.upd i fun x => { x with powered := true }))) s) s

/-- `UNINIT_MARK i` (R184): configuration and cursor stay. -/
def execUninitMark (i : InstId) (arg0 arg1 : Nat) (s : State) : Result :=
  command (cmdWord s.conf s.conf.cmd.uninitMark i arg0 arg1) i (fun s =>
    checked i (checkInitialized (s.eng i)) (fun s =>
      .next (respond i .ok 0 (s.upd i fun x => { x with powered := false, initialized := false }))) s) s

/-- The reserved command (spec/30_encoding.md R98). -/
def execReserved7 (i : InstId) (arg0 arg1 : Nat) (s : State) : Result :=
  command (cmdWord s.conf s.conf.cmd.reserved7 i arg0 arg1) i (fun s => .next (respond i .unsupported 0 s)) s

end Sys2Proof.Machine
end

