-- ==== Sys2Proof/Machine/DmaStatus.lean ====
section
/-! DEFINITION. Format `DMA_STATUS_A`: steps 1 and 2 on variant A, cleared through the dedicated register
(spec/40_classifier.md R114 to R116). -/

namespace Sys2Proof.Machine

/-- `DMA_STATUS_A.TX_DONE` (R114, R115). -/
def execDmaStatusATxDone (i : InstId) (_ign : Nat) (s : State) : Result :=
  onInst i (dmaTxDone i .DMA_STATUS s.conf.dmaA.clrDmaTx) s

/-- `DMA_STATUS_A.RX_DONE` (R115, R116). -/
def execDmaStatusARxDone (i : InstId) (_ign : Nat) (s : State) : Result :=
  onInst i (dmaRxDone i .DMA_STATUS s.conf.dmaA.clrDmaRx) s

end Sys2Proof.Machine
end

