-- ==== Sys2Proof/Machine/Events.lean ====
section
/-! DEFINITION. Format `EV` (spec/30_encoding.md R86): each row enters its event into the mask of its instance. The
handlers do the same with the same operations (Machine/Flags.lean) inside their own step (assumption 13). -/

namespace Sys2Proof.Machine

/-- `EV_DMA_TX_COMPLETE` (spec/40_classifier.md R114). -/
def execEvDmaTxComplete (i : InstId) (s : State) : Result := onInst i (setDmaTxComplete i) s

/-- `EV_RX_BUFFER_LOW` (spec/40_classifier.md R117). -/
def execEvRxBufferLow (i : InstId) (s : State) : Result := onInst i (setRxBufferLow i) s

/-- `EV_DMA_RX_TO_CB` (spec/40_classifier.md R118). -/
def execEvDmaRxToCb (i : InstId) (s : State) : Result := onInst i (setDmaRxToCb i) s

/-- `EV_DMA_RX_READY` (spec/40_classifier.md R118). -/
def execEvDmaRxReady (i : InstId) (s : State) : Result := onInst i (setDmaRxReady i) s

/-- `EV_UNEXPECTED` (spec/40_classifier.md R121, R125). -/
def execEvUnexpected (i : InstId) (s : State) : Result := onInst i (setUnexpected i) s

/-- `EV_RX_TO_CB` (spec/41_condition_handlers.md R142). -/
def execEvRxToCb (i : InstId) (s : State) : Result := onInst i (setRxToCb i) s

/-- `EV_RX_READY` (spec/41_condition_handlers.md R143). -/
def execEvRxReady (i : InstId) (s : State) : Result := onInst i (setRxReady i) s

/-- `EV_TX_COMPLETE` (spec/41_condition_handlers.md R144). -/
def execEvTxComplete (i : InstId) (s : State) : Result := onInst i (setTxComplete i) s

/-- `EV_ERR_OVERRUN` (spec/41_condition_handlers.md R146). -/
def execEvErrOverrun (i : InstId) (s : State) : Result := onInst i (setErrOverrun i) s

/-- `EV_ERR_PARITY` (spec/41_condition_handlers.md R146). -/
def execEvErrParity (i : InstId) (s : State) : Result := onInst i (setErrParity i) s

/-- `EV_ERR_FRAMING` (spec/41_condition_handlers.md R146). -/
def execEvErrFraming (i : InstId) (s : State) : Result := onInst i (setErrFraming i) s

/-- `EV_ERR_BREAK` (spec/41_condition_handlers.md R146). -/
def execEvErrBreak (i : InstId) (s : State) : Result := onInst i (setErrBreak i) s

/-- `EV_RX_ENDED_NO_DATA` (spec/41_condition_handlers.md R150). -/
def execEvRxEndedNoData (i : InstId) (s : State) : Result := onInst i (setRxEndedNoData i) s

/-- `EV_RX_ENDED_TO_CB` (spec/41_condition_handlers.md R150). -/
def execEvRxEndedToCb (i : InstId) (s : State) : Result := onInst i (setRxEndedToCb i) s

/-- `EV_RX_MAYBE_READY` (spec/41_condition_handlers.md R151). -/
def execEvRxMaybeReady (i : InstId) (s : State) : Result := onInst i (setRxMaybeReady i) s

/-- `EV_HW_FC` (spec/41_condition_handlers.md R153). -/
def execEvHwFc (i : InstId) (s : State) : Result := onInst i (setHwFc i) s

end Sys2Proof.Machine
end

