-- ==== Sys2Proof/Machine/IirA.lean ====
section
/-! DEFINITION. Format `IIR_A`: the handler each code of the identification register selects on variant A
(spec/40_classifier.md R120 to R122). At most one runs in an activation, so step 9 follows. -/

namespace Sys2Proof.Machine

/-- `IIR_A.LINE_ERR` (R146). -/
def execIirALineErr (i : InstId) (_ign : Nat) (s : State) : Result := onInst i (hLine .A i .cDispatch) s

/-- `IIR_A.RX_DATA` (R141). -/
def execIirARxData (i : InstId) (_ign : Nat) (s : State) : Result := onInst i (hRxData i .cDispatch) s

/-- `IIR_A.THR_EMPTY` (R144). -/
def execIirAThrEmpty (i : InstId) (_ign : Nat) (s : State) : Result := onInst i (hThre i .cDispatch) s

/-- `IIR_A.TIMEOUT` (R149). -/
def execIirATimeout (i : InstId) (_ign : Nat) (s : State) : Result := onInst i (hTimeout i .cDispatch) s

/-- `IIR_A.MODEM` (R153). -/
def execIirAModem (i : InstId) (_ign : Nat) (s : State) : Result := onInst i (hModem i .cDispatch) s

/-- `IIR_A.NONE` (R121): "If `v == 0`, nothing." -/
def execIirANone (i : InstId) (_ign : Nat) (s : State) : Result := onInst i (fun s => s.setPhase i .cDispatch) s

/-- `IIR_A.UNEXPECTED_6` (R121): the event whatever steps 1 and 2 set, no register access. -/
def execIirAUnexpected6 (i : InstId) (_val : Nat) (s : State) : Result :=
  onInst i (fun s => (setUnexpected i s).setPhase i .cDispatch) s

/-- `IIR_A.UNEXPECTED_7` (R121): as the other unmatched code. -/
def execIirAUnexpected7 (i : InstId) (_val : Nat) (s : State) : Result :=
  onInst i (fun s => (setUnexpected i s).setPhase i .cDispatch) s

end Sys2Proof.Machine
end

