-- ==== Sys2Proof/Machine/IirB.lean ====
section
/-! DEFINITION. Format `IIR_B`: the handler each bit of the identification register selects on variant B
(spec/40_classifier.md R114 to R118, R123 to R125), each followed by the next test of R124's order. -/

namespace Sys2Proof.Machine

/-- `IIR_B.LINE_ERR` (R146, R147). -/
def execIirBLineErr (i : InstId) (_ign : Nat) (s : State) : Result := onInst i (hLine .B i .cTimeout) s

/-- `IIR_B.RX_DATA` (R141). -/
def execIirBRxData (i : InstId) (_ign : Nat) (s : State) : Result := onInst i (hRxData i .cThre) s

/-- `IIR_B.THR_EMPTY` (R144). -/
def execIirBThrEmpty (i : InstId) (_ign : Nat) (s : State) : Result := onInst i (hThre i .cLine) s

/-- `IIR_B.TIMEOUT` (R149). -/
def execIirBTimeout (i : InstId) (_ign : Nat) (s : State) : Result := onInst i (hTimeout i .cModem) s

/-- `IIR_B.MODEM` (R153). -/
def execIirBModem (i : InstId) (_ign : Nat) (s : State) : Result := onInst i (hModem i .cDispatch) s

/-- `IIR_B.DMA_TX_DONE` (R114, R115): cleared through `IIR`. -/
def execIirBDmaTxDone (i : InstId) (_ign : Nat) (s : State) : Result :=
  onInst i (dmaTxDone i .IIR s.conf.iirB.clrDmaTx) s

/-- `IIR_B.DMA_RX_DONE` (R115, R116): cleared through `IIR`. -/
def execIirBDmaRxDone (i : InstId) (_ign : Nat) (s : State) : Result :=
  onInst i (dmaRxDone i .IIR s.conf.iirB.clrDmaRx) s

/-- `IIR_B.NONE_MATCHED` (R125). -/
def execIirBNoneMatched (i : InstId) (_val : Nat) (s : State) : Result :=
  onInst i (fun s => (unexpectedIfNone i s).setPhase i .cDispatch) s

end Sys2Proof.Machine
end

