-- ==== Sys2Proof/Machine/LineStatus.lean ====
section
/-! DEFINITION. Format `LSR`: what the block does on finding each bit of a line-status value set
(spec/41_condition_handlers.md R142, R146, R150). -/

namespace Sys2Proof.Machine

/-- `LSR.DR` (R142, R150): one more byte in a receive loop. -/
def execLsrDr (i : InstId) (_ign : Nat) (s : State) : Result := onInst i (receiveByte i) s

/-- `LSR.OE` (R146). -/
def execLsrOe (i : InstId) (_ign : Nat) (s : State) : Result := onInst i (setErrOverrun i) s

/-- `LSR.PE` (R146). -/
def execLsrPe (i : InstId) (_ign : Nat) (s : State) : Result := onInst i (setErrParity i) s

/-- `LSR.FE` (R146). -/
def execLsrFe (i : InstId) (_ign : Nat) (s : State) : Result := onInst i (setErrFraming i) s

/-- `LSR.BI` (R146). -/
def execLsrBi (i : InstId) (_ign : Nat) (s : State) : Result := onInst i (setErrBreak i) s

/-- `LSR.TX_EMPTY` (spec/30_encoding.md R87): "the block never tests it", so it has no effect. -/
def execLsrTxEmpty (i : InstId) (_ign : Nat) (s : State) : Result := onInst i id s

end Sys2Proof.Machine
end

