-- ==== Sys2Proof/Machine/Responses.lean ====
section
/-! DEFINITION. Format `RSP` (spec/30_encoding.md R97, spec/60_exceptions.md R190, R191): each row makes its response, after
which the engine is idle. On an instance that does not exist there is no engine and a row makes its response only: the spec
gives that for `E_INVALID_ID` (spec/10_state.md R20) and is silent for the seven others, where it is a DESIGN CHOICE
(assumption 24). -/

namespace Sys2Proof.Machine

/-- `RET(OK, value)`; `value` has `LENW` bits and is 0 but for `LEFT` (R97). On an instance that does not exist: the same
response and nothing else (DESIGN CHOICE, assumption 24). -/
def execRspOk (i : InstId) (value : Nat) (s : State) : Result := .next (respond i .ok (s.conf.len value) s)

/-- `RET(E_INVALID_ID)` (R191): the answer to a command of an instance that does not exist (spec/10_state.md R20). -/
def execRspInvalidId (i : InstId) (s : State) : Result := .next (respond i .invalidId 0 s)

/-- `RET(E_NOT_INIT)` (R191). On an instance that does not exist: assumption 24. -/
def execRspNotInit (i : InstId) (s : State) : Result := .next (respond i .notInit 0 s)

/-- `RET(E_NOT_POWERED)` (R191). On an instance that does not exist: assumption 24. -/
def execRspNotPowered (i : InstId) (s : State) : Result := .next (respond i .notPowered 0 s)

/-- `RET(E_DMA_NOT_ENABLED)` (R191). On an instance that does not exist: assumption 24. -/
def execRspDmaNotEnabled (i : InstId) (s : State) : Result := .next (respond i .dmaNotEnabled 0 s)

/-- `RET(E_BUFFER_TOO_SMALL)` (R191). On an instance that does not exist: assumption 24. -/
def execRspBufferTooSmall (i : InstId) (s : State) : Result := .next (respond i .bufferTooSmall 0 s)

/-- `RET(E_BAD_DMA_BUFFER)` (R191). On an instance that does not exist: assumption 24. -/
def execRspBadDmaBuffer (i : InstId) (s : State) : Result := .next (respond i .badDmaBuffer 0 s)

/-- `RET(E_UNSUPPORTED)` (R191). On an instance that does not exist: assumption 24. -/
def execRspUnsupported (i : InstId) (s : State) : Result := .next (respond i .unsupported 0 s)

end Sys2Proof.Machine
end

