-- ==== Sys2Proof/Machine/Dispatch.lean ====
section
/-! DEFINITION. One arm per row of spec/opcode_table.json. -/

namespace Sys2Proof.Machine

/-- The effect of an instruction. -/
def exec (i : Instr) (s : State) : Host.Outcome State Fault Refusal :=
  match i with
  | .irq k => Sys2Proof.Machine.execIrq k s
  | .initCommit k a b => Sys2Proof.Machine.execInitCommit k a b s
  | .swap k a b => Sys2Proof.Machine.execSwap k a b s
  | .left k a b => Sys2Proof.Machine.execLeft k a b s
  | .txdmaStart k a b => Sys2Proof.Machine.execTxdmaStart k a b s
  | .powerOffMark k a b => Sys2Proof.Machine.execPowerOffMark k a b s
  | .powerOnMark k a b => Sys2Proof.Machine.execPowerOnMark k a b s
  | .uninitMark k a b => Sys2Proof.Machine.execUninitMark k a b s
  | .reserved7 k a b => Sys2Proof.Machine.execReserved7 k a b s
  | .iirALineErr k w => Sys2Proof.Machine.execIirALineErr k w s
  | .iirARxData k w => Sys2Proof.Machine.execIirARxData k w s
  | .iirAThrEmpty k w => Sys2Proof.Machine.execIirAThrEmpty k w s
  | .iirATimeout k w => Sys2Proof.Machine.execIirATimeout k w s
  | .iirAModem k w => Sys2Proof.Machine.execIirAModem k w s
  | .iirANone k w => Sys2Proof.Machine.execIirANone k w s
  | .iirAUnexpected6 k w => Sys2Proof.Machine.execIirAUnexpected6 k w s
  | .iirAUnexpected7 k w => Sys2Proof.Machine.execIirAUnexpected7 k w s
  | .iirBLineErr k w => Sys2Proof.Machine.execIirBLineErr k w s
  | .iirBRxData k w => Sys2Proof.Machine.execIirBRxData k w s
  | .iirBThrEmpty k w => Sys2Proof.Machine.execIirBThrEmpty k w s
  | .iirBTimeout k w => Sys2Proof.Machine.execIirBTimeout k w s
  | .iirBModem k w => Sys2Proof.Machine.execIirBModem k w s
  | .iirBDmaTxDone k w => Sys2Proof.Machine.execIirBDmaTxDone k w s
  | .iirBDmaRxDone k w => Sys2Proof.Machine.execIirBDmaRxDone k w s
  | .iirBNoneMatched k w => Sys2Proof.Machine.execIirBNoneMatched k w s
  | .dmaStatusATxDone k w => Sys2Proof.Machine.execDmaStatusATxDone k w s
  | .dmaStatusARxDone k w => Sys2Proof.Machine.execDmaStatusARxDone k w s
  | .lsrDr k w => Sys2Proof.Machine.execLsrDr k w s
  | .lsrOe k w => Sys2Proof.Machine.execLsrOe k w s
  | .lsrPe k w => Sys2Proof.Machine.execLsrPe k w s
  | .lsrFe k w => Sys2Proof.Machine.execLsrFe k w s
  | .lsrBi k w => Sys2Proof.Machine.execLsrBi k w s
  | .lsrTxEmpty k w => Sys2Proof.Machine.execLsrTxEmpty k w s
  | .evDmaTxComplete k => Sys2Proof.Machine.execEvDmaTxComplete k s
  | .evRxBufferLow k => Sys2Proof.Machine.execEvRxBufferLow k s
  | .evDmaRxToCb k => Sys2Proof.Machine.execEvDmaRxToCb k s
  | .evDmaRxReady k => Sys2Proof.Machine.execEvDmaRxReady k s
  | .evUnexpected k => Sys2Proof.Machine.execEvUnexpected k s
  | .evRxToCb k => Sys2Proof.Machine.execEvRxToCb k s
  | .evRxReady k => Sys2Proof.Machine.execEvRxReady k s
  | .evTxComplete k => Sys2Proof.Machine.execEvTxComplete k s
  | .evErrOverrun k => Sys2Proof.Machine.execEvErrOverrun k s
  | .evErrParity k => Sys2Proof.Machine.execEvErrParity k s
  | .evErrFraming k => Sys2Proof.Machine.execEvErrFraming k s
  | .evErrBreak k => Sys2Proof.Machine.execEvErrBreak k s
  | .evRxEndedNoData k => Sys2Proof.Machine.execEvRxEndedNoData k s
  | .evRxEndedToCb k => Sys2Proof.Machine.execEvRxEndedToCb k s
  | .evRxMaybeReady k => Sys2Proof.Machine.execEvRxMaybeReady k s
  | .evHwFc k => Sys2Proof.Machine.execEvHwFc k s
  | .rspOk k w => Sys2Proof.Machine.execRspOk k w s
  | .rspInvalidId k => Sys2Proof.Machine.execRspInvalidId k s
  | .rspNotInit k => Sys2Proof.Machine.execRspNotInit k s
  | .rspNotPowered k => Sys2Proof.Machine.execRspNotPowered k s
  | .rspDmaNotEnabled k => Sys2Proof.Machine.execRspDmaNotEnabled k s
  | .rspBufferTooSmall k => Sys2Proof.Machine.execRspBufferTooSmall k s
  | .rspBadDmaBuffer k => Sys2Proof.Machine.execRspBadDmaBuffer k s
  | .rspUnsupported k => Sys2Proof.Machine.execRspUnsupported k s

end Sys2Proof.Machine
end

