-- ==== Sys2Proof/Machine/Sequencer.lean ====
section
/-! DEFINITION. The sequencer: what an engine does in each phase of spec/10_state.md R30, in the order of
spec/40_classifier.md R111 and spec/42_dma_cursor.md R171, R177, and which agent moves next. Each function answers the row
to be executed, if the step has one, and the state in which it is executed. -/

namespace Sys2Proof.Machine

/-- The step's own action ends in the phase `p`, with no row. -/
def advance (i : InstId) (p : Phase) (s : State) : Option Instr × State := (none, s.setPhase i p)

/-- A bit-tested row if its bit is set, else the phase `p`. -/
def test (row : Option Instr) (i : InstId) (p : Phase) (s : State) : Option Instr × State :=
  match row with
  | some r => (some r, s)
  | none => advance i p s

/-- Step 1 (spec/40_classifier.md R114, R115). Variant A reads `DMA_STATUS`, only when TX DMA is enabled; variant B tests the
latched value. -/
def seqTxDma (i : InstId) (s : State) : Option Instr × State :=
  match s.conf.variant with
  | .A =>
    if (s.eng i).cfg.txDmaEn then
      let (w, s) := regRead i .DMA_STATUS s
      test (rowDmaStatusATxDone s.conf i w) i .cRxDma s
    else advance i .cRxDma s
  | .B => test (rowIirBDmaTxDone s.conf i (s.eng i).iir) i .cRxDma s

/-- Step 2 (R115, R116). -/
def seqRxDma (i : InstId) (s : State) : Option Instr × State :=
  match s.conf.variant with
  | .A =>
    if (s.eng i).cfg.rxDmaEn then
      let (w, s) := regRead i .DMA_STATUS s
      test (rowDmaStatusARxDone s.conf i w) i .cDecode s
    else advance i .cDecode s
  | .B => test (rowIirBDmaRxDone s.conf i (s.eng i).iir) i .cDecode s

/-- The drain of step 2, one byte; at its end the event `EV_DMA_RX_TO_CB` whatever was delivered (R118). -/
def seqDrain (i : InstId) (s : State) : Option Instr × State :=
  match drainTurn i s with
  | (true, s) => (none, s)
  | (false, s) => (some (.evDmaRxToCb i), s.setPhase i .cDecode)

/-- The opening of step 3 (R119): variant A reads `IIR` and has its row; variant B masks the latched value and goes on to the
five tests. -/
def seqDecode (i : InstId) (s : State) : Option Instr × State :=
  match s.conf.variant with
  | .A =>
    let (w, s) := regRead i .IIR s
    (some (decodeIirA s.conf i w), s.upd i fun x => { x with v := w &&& s.conf.iirA.mask })
  | .B => (none, s.upd i fun x => { x with v := x.iir &&& s.conf.iirB.nonDmaMask, phase := .cRxData })

/-- The last test of variant B and, where none of the five bits is set, the unexpected row (R123, R125). -/
def seqModem (i : InstId) (s : State) : Option Instr × State :=
  match rowIirBModem s.conf i (s.eng i).v with
  | some r => (some r, s)
  | none => test (rowIirBNoneMatched s.conf i (s.eng i).v) i .cDispatch s

/-- The receive loop of `H_RXDATA` (spec/41_condition_handlers.md R142). -/
def seqRxDataLoop (i : InstId) (s : State) : Option Instr × State :=
  let (l, s) := readLsr i s
  match rowLsrDr s.conf i l with
  | some r => (some r, s)
  | none => (some (.evRxToCb i), s.setPhase i (afterRxData s.conf.variant))

/-- The receive loop of `H_TIMEOUT` (R150), with the dummy read of R152 when it found no byte. -/
def seqTimeoutLoop (i : InstId) (s : State) : Option Instr × State :=
  let (l, s) := readLsr i s
  match rowLsrDr s.conf i l with
  | some r => (some r, s)
  | none =>
    if (s.eng i).n = 0 then
      let (_, s) := regRead i .RBR s
      (some (.evRxEndedNoData i), s.setPhase i (afterTimeout s.conf.variant))
    else (some (.evRxEndedToCb i), s.setPhase i (afterTimeout s.conf.variant))

/-- The force-drain of `SWAP`, one byte (spec/42_dma_cursor.md R174): it sets no event. -/
def seqSwapDrain (i : InstId) (newBuffer newLength : Nat) (s : State) : Option Instr × State :=
  match drainTurn i s with
  | (true, s) => (none, s)
  | (false, s) => advance i (.kExecSwap newBuffer newLength) s

/-- The zero fill of `INIT_COMMIT`, one byte, then its response (R177, R178). -/
def seqFill (i : InstId) (k : Nat) (s : State) : Option Instr × State :=
  match fillTurn i k s with
  | (true, s) => (none, s)
  | (false, s) => (some (.rspOk i 0), s)

/-- What engine `i` does next. -/
def seqEngine (i : InstId) (s : State) : Option Instr × State :=
  match (s.eng i).phase with
  | .idle => (none, s)
  | .cTxDma => seqTxDma i s
  | .cRxDma => seqRxDma i s
  | .cDrain => seqDrain i s
  | .cDecode => seqDecode i s
  | .cRxData => test (rowIirBRxData s.conf i (s.eng i).v) i .cThre s
  | .cRxDataLoop => seqRxDataLoop i s
  | .cThre => test (rowIirBThrEmpty s.conf i (s.eng i).v) i .cLine s
  | .cLine => test (rowIirBLineErr s.conf i (s.eng i).v) i .cTimeout s
  | .cTimeout => test (rowIirBTimeout s.conf i (s.eng i).v) i .cModem s
  | .cTimeoutLoop => seqTimeoutLoop i s
  | .cModem => seqModem i s
  | .cDispatch => (none, leaveActivation i s)
  | .kDrain a n => seqSwapDrain i a n s
  | .kExecSwap a n => (some (.rspOk i 0), swapCommit i a n s)
  | .kExecFill k => seqFill i k s

/-! ### Which agent moves (assumption 2) -/

/-- Engine `i` is in the middle of an operation. -/
abbrev State.busy (s : State) (i : InstId) : Prop := (s.eng i).phase ≠ .idle

/-- Engine `i` is idle and holds an interrupt entry (spec/20_memory.md R72). -/
abbrev State.holds (s : State) (i : InstId) : Prop := (s.eng i).phase = .idle ∧ (s.eng i).heldIrq ≠ 0

/-- A turn of engine `i`: its next step; an idle engine starts an activation for an entry it holds. -/
def engineTurn (i : InstId) (s : State) : Option Instr × State :=
  if ¬ s.has i then (none, s)
  else if s.busy i then seqEngine i s
  else if (s.eng i).heldIrq = 0 then (none, s)
  else (some (.irq i), s.upd i fun x => { x with heldIrq := x.heldIrq - 1 })

/-- A turn of port `cmd`: its oldest command is taken if its engine is idle or does not exist, and else waits. -/
def hostTurn (s : State) : Option Instr × State :=
  match s.cmdq with
  | [] => (none, s)
  | (w, c) :: rest =>
    let r := decodeCmd s.conf w
    if s.has r.inst ∧ s.busy r.inst then (none, s)
    else (some r, { s with cmdq := rest, cfgIn := c })

/-- The five-bit numbers that name an instance. -/
def State.ids (s : State) : List InstId := (List.range (min s.conf.nInst 32)).map (BitVec.ofNat 5)

/-- The agent that moves when the outside world says nothing: the first busy engine, else the first engine that holds an
entry, else port `cmd`. -/
def autoTurn (s : State) : Option Instr × State :=
  match s.ids.find? (fun i => s.busy i) with
  | some i => engineTurn i s
  | none =>
    match s.ids.find? (fun i => s.holds i) with
    | some i => engineTurn i s
    | none => hostTurn s

/-- The row of the next step, if it has one, and the state in which it is executed. -/
def nextInstr (s : State) : Option Instr × State :=
  match s.agenda with
  | [] => autoTurn s
  | .irq i :: rest => (some (.irq i), { s with agenda := rest })
  | .cmd w c :: rest => hostTurn { s with agenda := rest, cmdq := s.cmdq ++ [(w, c)] }
  | .reset :: rest => (none, restart { s with agenda := rest })
  | .dmaStore a b :: rest => (none, { s with agenda := rest }.putByte (s.conf.addr a) b)
  | .run i :: rest => engineTurn i { s with agenda := rest }
  | .host :: rest => hostTurn { s with agenda := rest }

/-- Make a packet the next thing the machine takes (assumption 14): a command is put first in line at port `cmd`, with an
empty side-band record and its engine idle; an identification value is made the next answer of `IIR` on variant A, with the
engine at the opening of step 3. -/
def placePacket (p : Packet) (s : State) : State :=
  match p with
  | .cmd w =>
    { s with agenda := .host :: s.agenda, cmdq := (w, Cfg.reset) :: s.cmdq }.setPhase (decodeCmd s.conf w).inst .idle
  | .iirA i w =>
    { s with conf := { s.conf with variant := .A }, agenda := .run i :: s.agenda,
             answers := ⟨i, .IIR, w⟩ :: s.answers }.setPhase i .cDecode
  | _ => s

end Sys2Proof.Machine
end

