-- ==== Sys2Proof/Machine/Step.lean ====
section
/-! DEFINITION. One step: the sequencer says whose turn it is and which row it has, and the row is executed. -/

namespace Sys2Proof.Machine

/-- One step of the machine. -/
def step (s : State) : Host.Outcome State Fault Refusal :=
  match nextInstr s with
  | (some r, s) => exec r s
  | (none, s) => .next s

/-- The state in which the next step takes and runs the table word `w` (assumption 14). -/
def State.withFetchWord (s : State) (nbits w : Nat) : State := placePacket (tablePacket nbits w) s

end Sys2Proof.Machine
end

