-- ==== Sys2Proof/Safety.lean ====
section
/-! DEFINITION. The terms statements are made in: the machine's invariant, what a row leaves unchanged, the events the
rules attach to a value, and the spec's rules about the environment as named premises (spec/20_memory.md R68). -/

namespace Sys2Proof.Machine

/-! ### Invariant -/

/-- What every instance keeps: no powered but uninitialized instance (spec/93_implementation_defined.md U11); with RX DMA
enabled the cursor is inside the buffer (spec/10_state.md R39) and not past the end of its scan (spec/42_dma_cursor.md R166), and
the length not below the minimum (R28); the buffer is inside the address space (spec/20_memory.md R55); `ev` holds event bits
only (spec/30_encoding.md R86); every register has its width (spec/00_scope.md R6); the arguments a K phase carries have
passed their checks. -/
structure Engine.Inv (c : Config) (x : Engine) : Prop where
  powered : x.powered = true → x.initialized = true
  cursor  : x.cfg.rxDmaEn = true → x.cursor ≤ x.cfg.rxDmaBuffLength ∧ x.cursor ≤ scanEnd c x
  buffer  : fits c x.cfg.rxDmaBuffer x.cfg.rxDmaBuffLength
  minimum : x.cfg.rxDmaEn = true → c.rxDmaMinLen ≤ x.cfg.rxDmaBuffLength
  events  : x.ev &&& c.ev.union = x.ev
  values  : c.reg x.iir = x.iir ∧ c.reg x.v = x.v ∧ c.reg x.l = x.l ∧ c.len x.left = x.left
  record  : c.addr x.cfg.rxDmaBuffer = x.cfg.rxDmaBuffer ∧ c.len x.cfg.rxDmaBuffLength = x.cfg.rxDmaBuffLength ∧
    c.cur x.cursor = x.cursor
  phase   : match x.phase with
    | .kDrain a n | .kExecSwap a n =>
      fits c a n ∧ c.rxDmaMinLen ≤ n ∧ c.addr a = a ∧ c.len n = n
    | .kExecFill k => k ≤ x.cfg.rxDmaBuffLength
    | _ => True

/-- One record per instance, each meeting its invariant, and memory in canonical form, inside the address space. -/
structure State.Inv (s : State) : Prop where
  size    : s.engines.length = s.conf.nInst
  engines : ∀ x ∈ s.engines, x.Inv s.conf
  memory  : Memory.wf s.mem
  space   : ∀ p ∈ s.mem, p.1 < 2 ^ s.conf.addrw

/-! ### Frames -/

/-- `i` names an instance that has its record. -/
abbrev State.live (s : State) (i : InstId) : Prop := s.has i ∧ s.engines.length = s.conf.nInst

/-- `t` differs from `s` at most in the record of instance `i`, the trace and the environment's answers: parameters, every
other instance, every byte of memory, port `cmd` and the agenda are unchanged. -/
structure OnlyEngine (i : InstId) (s t : State) : Prop where
  conf   : t.conf = s.conf
  size   : t.engines.length = s.engines.length
  others : ∀ j, j ≠ i → t.eng j = s.eng j
  bytes  : ∀ a, t.byteAt a = s.byteAt a
  cfgIn  : t.cfgIn = s.cfgIn
  cmdq   : t.cmdq = s.cmdq
  agenda : t.agenda = s.agenda

/-- The actions from `s` to `t` are exactly `acts`, and none of them reads a register. -/
structure Acts (s t : State) (acts : List Act) : Prop where
  trace   : t.trace = s.trace ++ acts
  answers : t.answers = s.answers
  freeIx  : t.freeIx = s.freeIx

/-- The actions from `s` to `t` are exactly `acts`, among which one read, of register `r` of instance `i`, is answered by the
environment. -/
structure ActsWithRead (i : InstId) (r : Reg) (s t : State) (acts : List Act) : Prop where
  trace   : t.trace = s.trace ++ acts
  answers : t.answers = (regRead i r s).2.answers
  freeIx  : t.freeIx = (regRead i r s).2.freeIx

/-- What the environment answers to the next read of register `r` of instance `i`. -/
def State.answer (s : State) (i : InstId) (r : Reg) : Nat := (regRead i r s).1

/-- The row `r` runs on instance `i`, performs exactly the actions `acts`, none of them a register read, and leaves `x` as
the record of instance `i`. -/
def Runs (i : InstId) (r : Instr) (s : State) (acts : List Act) (x : Engine) : Prop :=
  ∃ t, exec r s = .next t ∧ OnlyEngine i s t ∧ Acts s t acts ∧ t.eng i = x

/-- As `Runs`, with one read, of register `q` of instance `i`, among the actions. -/
def RunsReading (i : InstId) (q : Reg) (r : Instr) (s : State) (acts : List Act) (x : Engine) : Prop :=
  ∃ t, exec r s = .next t ∧ OnlyEngine i s t ∧ ActsWithRead i q s t acts ∧ t.eng i = x

/-- The next step is a turn of engine `i` after which the agenda is `rest`: it performs exactly the actions `acts`, leaves the
environment with the answers of `final`, and leaves `x` as the record of instance `i`. -/
def Takes (i : InstId) (s : State) (rest : List Turn) (acts : List Act) (final : State) (x : Engine) : Prop :=
  ∃ t, step s = .next t ∧ OnlyEngine i { s with agenda := rest } t ∧ t.trace = s.trace ++ acts ∧
    t.answers = final.answers ∧ t.freeIx = final.freeIx ∧ t.eng i = x

/-! ### The events of the rules -/

/-- The events of R86, each with its row. -/
def eventTable (c : Config) (i : InstId) : List (Nat × Instr) :=
  [(c.ev.dmaTxComplete, .evDmaTxComplete i), (c.ev.rxBufferLow, .evRxBufferLow i), (c.ev.dmaRxToCb, .evDmaRxToCb i),
    (c.ev.dmaRxReady, .evDmaRxReady i), (c.ev.unexpected, .evUnexpected i), (c.ev.rxToCb, .evRxToCb i),
    (c.ev.rxReady, .evRxReady i), (c.ev.txComplete, .evTxComplete i)] ++
  [(c.ev.errOverrun, .evErrOverrun i), (c.ev.errParity, .evErrParity i), (c.ev.errFraming, .evErrFraming i),
    (c.ev.errBreak, .evErrBreak i), (c.ev.rxEndedNoData, .evRxEndedNoData i), (c.ev.rxEndedToCb, .evRxEndedToCb i),
    (c.ev.rxMaybeReady, .evRxMaybeReady i), (c.ev.hwFc, .evHwFc i)]

/-- One event per error bit present (spec/41_condition_handlers.md R146). -/
def lineErrors (c : Config) (l : Nat) : Nat :=
  (if hasBit l c.lsr.oe then c.ev.errOverrun else 0) ||| (if hasBit l c.lsr.pe then c.ev.errParity else 0)
    ||| (if hasBit l c.lsr.fe then c.ev.errFraming else 0) ||| (if hasBit l c.lsr.bi then c.ev.errBreak else 0)

/-- The event of an identification value on variant A, no receive callback registered, no line error
(spec/40_classifier.md R120, R121; spec/41_condition_handlers.md R143, R144, R151, R153). -/
def plainEventA (c : Config) (w : Nat) : Nat :=
  let v := w &&& c.iirA.mask
  if v = c.iirA.rxData then c.ev.rxReady
  else if v = c.iirA.thrEmpty then c.ev.txComplete
  else if v = c.iirA.timeout then c.ev.rxMaybeReady
  else if v = c.iirA.modem then c.ev.hwFc
  else if v = 0 then 0
  else c.ev.unexpected

/-- The events of an identification value on variant B, no receive callback registered, `l` the line status
(spec/40_classifier.md R123, R125). -/
def plainEventsB (c : Config) (w l : Nat) : Nat :=
  if w &&& c.iirB.known = 0 then c.ev.unexpected
  else (if hasBit w c.iirB.rxData then c.ev.rxReady else 0) ||| (if hasBit w c.iirB.thrEmpty then c.ev.txComplete else 0)
    ||| (if hasBit w c.iirB.lineErr then lineErrors c l else 0)
    ||| (if hasBit w c.iirB.timeout then c.ev.rxMaybeReady else 0) ||| (if hasBit w c.iirB.modem then c.ev.hwFc else 0)

/-! ### Premises about the environment -/

/-- The coming answers of a receive loop that finds the bytes `bs`, each announced by a line status with data-ready set, and
then data-ready clear (spec/20_memory.md R59, R60). -/
def loopAnswers (i : InstId) (bs : List (Nat × Nat)) : List Answer :=
  bs.flatMap fun p => [⟨i, .LSR, p.1⟩, ⟨i, .RBR, p.2⟩]

/-- The accesses and deliveries of those turns of the loop. -/
def loopActs (c : Config) (i : InstId) (bs : List (Nat × Nat)) : List Act :=
  bs.flatMap fun p =>
    [.regRead i .LSR (c.reg p.1), .regRead i .RBR (c.reg p.2), .byteSink i (BitVec.ofNat 8 (c.reg p.2))]

/-- The RX DMA has stored no zero byte among the `m` bytes from the cursor on, and the scan ends after them: at its end or at a
zero byte (spec/42_dma_cursor.md R164, R167). -/
def pendingBytes (s : State) (x : Engine) (m : Nat) : Prop :=
  x.cursor + m ≤ scanEnd s.conf x ∧
  (∀ k < m, s.byteAt (bufByte s.conf x.cfg.rxDmaBuffer (x.cursor + k)) ≠ 0) ∧
  (x.cursor + m < scanEnd s.conf x →
    s.byteAt (bufByte s.conf x.cfg.rxDmaBuffer (x.cursor + m)) = 0)

/-- The reads and deliveries of `m` bytes from the cursor on, and the read of the zero byte that ends the scan inside the
buffer (R164, R165). -/
def drainActs (i : InstId) (s : State) (x : Engine) (m : Nat) : List Act :=
  (List.range m).flatMap (fun k =>
    let a := bufByte s.conf x.cfg.rxDmaBuffer (x.cursor + k)
    [Act.memRead i a (s.byteAt a), Act.byteSink i (s.byteAt a)])
  ++ (if x.cursor + m < scanEnd s.conf x then
        [Act.memRead i (bufByte s.conf x.cfg.rxDmaBuffer (x.cursor + m)) 0] else [])

/-! ### Actions and flags -/

/-- The instance an action is about. -/
def Act.inst : Act → InstId
  | .regRead i _ _ | .regWrite i _ _ | .memRead i _ _ | .memWrite i _ _ => i
  | .byteSink i _ | .eventSink i _ | .ret i _ _ => i

/-- Every value of an action has its width: a register value `REGW` bits, an address `ADDRW`, an event mask `EVW`, a response
value `LENW` (spec/00_scope.md R6, spec/20_memory.md R52, R55, spec/30_encoding.md R86, R97). -/
def Act.hasWidths (c : Config) : Act → Prop
  | .regRead _ _ v | .regWrite _ _ v => c.reg v = v
  | .memRead _ a _ | .memWrite _ a _ => c.addr a = a
  | .byteSink _ _ => True
  | .eventSink _ m => clip c.evw m = m
  | .ret _ _ v => c.len v = v

/-- A change of the state an answer holds, if it is a next state. -/
def Result.map (f : State → State) : Result → Result
  | .next t => .next (f t)
  | .fault e => .fault e
  | .refused e => .refused e

/-- The same state with other flags in the record of instance `i`. -/
def State.withFlags (s : State) (i : InstId) (initialized powered : Bool) : State :=
  s.upd i fun x => { x with initialized := initialized, powered := powered }

/-- The command meets the premise of spec/20_memory.md R55: the buffer it names does not run past the top of the address
space. -/
def State.meetsPremise (s : State) : Instr → Bool
  | .initCommit _ _ _ =>
    let c := sampled s.conf s.cfgIn
    decide (c.rxDmaBuffer + c.rxDmaBuffLength ≤ 2 ^ s.conf.addrw)
  | .swap _ newBuffer newLength => decide (s.conf.addr newBuffer + s.conf.len newLength ≤ 2 ^ s.conf.addrw)
  | _ => true

/-- Why a command fails: the causes of spec/60_exceptions.md R191 in the order of R192. -/
def State.failure (s : State) (r : Instr) : Option Status :=
  let x := s.eng r.inst
  let notReady : Option Status :=
    if x.initialized = false then some .notInit else if x.powered = false then some .notPowered else none
  if ¬ s.has r.inst then some .invalidId
  else match r with
    | .reserved7 _ _ _ => some .unsupported
    | .initCommit _ _ _ =>
      let c := sampled s.conf s.cfgIn
      if c.rxDmaEn = true ∧ (c.rxDmaBuffer = 0 ∨ c.rxDmaBuffLength < s.conf.rxDmaMinLen
          ∨ ¬ 4 ∣ c.rxDmaBuffLength) then some .badDmaBuffer else none
    | .swap _ _ newLength =>
      notReady <|> (if x.cfg.rxDmaEn = false then some .dmaNotEnabled
        else if s.conf.len newLength < s.conf.rxDmaMinLen then some .bufferTooSmall else none)
    | .left _ _ _ => notReady <|> (if x.cfg.rxDmaEn = false then some .dmaNotEnabled else none)
    | .txdmaStart _ _ _ => notReady <|> (if x.cfg.txDmaEn = false then some .dmaNotEnabled else none)
    | .powerOffMark _ _ _ | .powerOnMark _ _ _ | .uninitMark _ _ _ =>
      if x.initialized = false then some .notInit else none
    | _ => none

end Sys2Proof.Machine

namespace Sys2Proof

/-- The rows of an activation: everything but the commands and their responses. -/
def Instr.ofActivation : Instr → Bool
  | .initCommit _ _ _ | .swap _ _ _ | .left _ _ _ | .txdmaStart _ _ _ => false
  | .powerOffMark _ _ _ | .powerOnMark _ _ _ | .uninitMark _ _ _ | .reserved7 _ _ _ => false
  | .rspOk _ _ | .rspInvalidId _ | .rspNotInit _ | .rspNotPowered _ => false
  | .rspDmaNotEnabled _ | .rspBufferTooSmall _ | .rspBadDmaBuffer _ | .rspUnsupported _ => false
  | .irq _ => true
  | .iirALineErr _ _ | .iirARxData _ _ | .iirAThrEmpty _ _ | .iirATimeout _ _ => true
  | .iirAModem _ _ | .iirANone _ _ | .iirAUnexpected6 _ _ | .iirAUnexpected7 _ _ => true
  | .iirBLineErr _ _ | .iirBRxData _ _ | .iirBThrEmpty _ _ | .iirBTimeout _ _ => true
  | .iirBModem _ _ | .iirBDmaTxDone _ _ | .iirBDmaRxDone _ _ | .iirBNoneMatched _ _ => true
  | .dmaStatusATxDone _ _ | .dmaStatusARxDone _ _ => true
  | .lsrDr _ _ | .lsrOe _ _ | .lsrPe _ _ | .lsrFe _ _ | .lsrBi _ _ | .lsrTxEmpty _ _ => true
  | .evDmaTxComplete _ | .evRxBufferLow _ | .evDmaRxToCb _ | .evDmaRxReady _ => true
  | .evUnexpected _ | .evRxToCb _ | .evRxReady _ | .evTxComplete _ => true
  | .evErrOverrun _ | .evErrParity _ | .evErrFraming _ | .evErrBreak _ => true
  | .evRxEndedNoData _ | .evRxEndedToCb _ | .evRxMaybeReady _ | .evHwFc _ => true

/-- The row is of an equality format, whose word has one row only. -/
def Instr.alone : Instr → Bool
  | .iirBLineErr _ _ | .iirBRxData _ _ | .iirBThrEmpty _ _ | .iirBTimeout _ _ => false
  | .iirBModem _ _ | .iirBDmaTxDone _ _ | .iirBDmaRxDone _ _ | .iirBNoneMatched _ _ => false
  | .dmaStatusATxDone _ _ | .dmaStatusARxDone _ _ => false
  | .lsrDr _ _ | .lsrOe _ _ | .lsrPe _ _ | .lsrFe _ _ | .lsrBi _ _ | .lsrTxEmpty _ _ => false
  | .irq _ => true
  | .initCommit _ _ _ | .swap _ _ _ | .left _ _ _ | .txdmaStart _ _ _ => true
  | .powerOffMark _ _ _ | .powerOnMark _ _ _ | .uninitMark _ _ _ | .reserved7 _ _ _ => true
  | .iirALineErr _ _ | .iirARxData _ _ | .iirAThrEmpty _ _ | .iirATimeout _ _ => true
  | .iirAModem _ _ | .iirANone _ _ | .iirAUnexpected6 _ _ | .iirAUnexpected7 _ _ => true
  | .evDmaTxComplete _ | .evRxBufferLow _ | .evDmaRxToCb _ | .evDmaRxReady _ => true
  | .evUnexpected _ | .evRxToCb _ | .evRxReady _ | .evTxComplete _ => true
  | .evErrOverrun _ | .evErrParity _ | .evErrFraming _ | .evErrBreak _ => true
  | .evRxEndedNoData _ | .evRxEndedToCb _ | .evRxMaybeReady _ | .evHwFc _ => true
  | .rspOk _ _ | .rspInvalidId _ | .rspNotInit _ | .rspNotPowered _ => true
  | .rspDmaNotEnabled _ | .rspBufferTooSmall _ | .rspBadDmaBuffer _ | .rspUnsupported _ => true

end Sys2Proof
end

