-- ==== Sys2Proof/Certificates/Slice0/Obligations.lean ====
section
/-! DEFINITION. The statements about the machine, from the numbered rules of spec/. A statement holds for every parameter
record unless it says otherwise; `live i` says that instance `i` exists and has its record. -/

open Sys2Proof Sys2Proof.Machine

/-! ### Encoding -/

/-- A few words of spec/opcode_table.json and spec/95_test_vectors.md 2.7, 2.8 decode to the rows they stand for. That a row
carries the bits it does not examine and a bit-tested word is a list of rows is the model's form (assumption 12), and that the
status 9 is rejected is the model's reading of "never produced" (assumption 18). -/
def Obligations.TableWordsDecodeToTheirRows : Prop :=
  decode (Config.default .A) (.cmd 0x000000202000010001) = .rows [.swap 0 0x20000100 32] ∧
  decode (Config.default .A) (.cmd 0x000000052000020013) = .rows [.txdmaStart 2 0x20000200 5] ∧
  decode (Config.default .A) (.cmd 0x00000000000000000C) = .rows [.powerOffMark 1 0 0] ∧
  decode (Config.default .A) (.iirA 1 0x0B) = .rows [.iirAThrEmpty 1 0x08] ∧
  decode (Config.default .B) (.iirB 0 0x15) =
    .rows [.iirBThrEmpty 0 0x11, .iirBLineErr 0 0x14, .iirBModem 0 0x05] ∧
  decode (Config.default .B) (.iirB 0 0x60) =
    .rows [.iirBDmaTxDone 0 0x40, .iirBDmaRxDone 0 0x20, .iirBNoneMatched 0 0x60] ∧
  decode (Config.default .A) (.dmaStatusA 2 0x02) = .rows [.dmaStatusARxDone 2 0] ∧
  decode (Config.default .A) (.lsr 0 0x0A) = .rows [.lsrOe 0 0x08, .lsrFe 0 0x02] ∧
  decode (Config.default .A) (.ev 0 0x0500) = .rows [.evErrOverrun 0, .evErrFraming 0] ∧
  decode (Config.default .A) (.rsp 2 4 0) = .rows [.rspDmaNotEnabled 2] ∧
  decode (Config.default .A) (.rsp 2 9 0) = .rejected .statusNeverProduced ∧
  decode (Config.default .A) (.irqEntry 2) = .rows [.irq 2]

/-- Decoding the encoding of a well-formed instruction gives it back, under every admissible parameterisation; the word of an
equality, command, event or response row has no other row. -/
def Obligations.EncodedInstructionsDecodeBack : Prop :=
  ∀ (c : Config) (r : Instr), c.wf = true → r.wf c = true →
    ∃ rs, decode c (encode c r) = .rows rs ∧ r ∈ rs ∧ (r.alone = true → rs = [r])

/-- Every word is one command and no bit of a field is dropped; a bit that belongs to no field is ignored (assumption 6). Under
the tabulated layout and widths all 72 bits belong to a field: `op` stands in bits 2:0 (R93), `inst` in 7:3, `arg0` in 39:8 and
`arg1` in 71:40 (R92). -/
def Obligations.EveryCommandWordIsOneCommand : Prop :=
  ∀ (c : Config) (w : Nat), c.cmdWf = true →
    decode c (.cmd w) = .rows [decodeCmd c w] ∧ encode c (decodeCmd c w) = .cmd (w &&& c.cmdBits) ∧
    (c.cmd = (Config.default .A).cmd → c.addrw = 32 → c.lenw = 32 → w < 2 ^ 72 →
      encode c (decodeCmd c w) = .cmd w ∧
      ∀ (op inst a b : Nat) (row : InstId → Nat → Nat → Instr),
        op < 2 ^ 3 → inst < 2 ^ 5 → a < 2 ^ 32 → b < 2 ^ 32 →
        w = op + 2 ^ 3 * inst + 2 ^ 8 * a + 2 ^ 40 * b →
        [Instr.initCommit, .swap, .left, .txdmaStart, .powerOffMark, .powerOnMark, .uninitMark, .reserved7][op]? = some row →
        decodeCmd c w = row (BitVec.ofNat 5 inst) a b)

/-- Variant A compares the masked value with each code by equality: each code has its row, zero has the row of no condition,
any other value an unexpected row. -/
def Obligations.VariantADecodesByEquality : Prop :=
  ∀ (c : Config) (i : InstId) (w : Nat), c.wf = true →
    let v := w &&& c.iirA.mask
    let ign := without w c.iirA.mask
    (v = c.iirA.rxData → decodeIirA c i w = .iirARxData i ign) ∧
    (v = c.iirA.thrEmpty → decodeIirA c i w = .iirAThrEmpty i ign) ∧
    (v = c.iirA.lineErr → decodeIirA c i w = .iirALineErr i ign) ∧
    (v = c.iirA.timeout → decodeIirA c i w = .iirATimeout i ign) ∧
    (v = c.iirA.modem → decodeIirA c i w = .iirAModem i ign) ∧
    (v = 0 → decodeIirA c i w = .iirANone i ign) ∧
    (v ≠ 0 → v ∉ c.iirA.codes →
      decodeIirA c i w = .iirAUnexpected6 i w ∨ decodeIirA c i w = .iirAUnexpected7 i w)

/-- Variant B tests each condition bit on its own, whatever the other bits are; the row of no condition is there exactly when
none of the five non-DMA bits is set. -/
def Obligations.VariantBTestsEveryBitAlone : Prop :=
  ∀ (c : Config) (i : InstId) (w : Nat), c.wf = true →
    ((∃ g, Instr.iirBRxData i g ∈ decodeIirB c i w) ↔ w &&& c.iirB.rxData ≠ 0) ∧
    ((∃ g, Instr.iirBThrEmpty i g ∈ decodeIirB c i w) ↔ w &&& c.iirB.thrEmpty ≠ 0) ∧
    ((∃ g, Instr.iirBLineErr i g ∈ decodeIirB c i w) ↔ w &&& c.iirB.lineErr ≠ 0) ∧
    ((∃ g, Instr.iirBTimeout i g ∈ decodeIirB c i w) ↔ w &&& c.iirB.timeout ≠ 0) ∧
    ((∃ g, Instr.iirBModem i g ∈ decodeIirB c i w) ↔ w &&& c.iirB.modem ≠ 0) ∧
    ((∃ g, Instr.iirBDmaTxDone i g ∈ decodeIirB c i w) ↔ w &&& c.iirB.dmaTxDone ≠ 0) ∧
    ((∃ g, Instr.iirBDmaRxDone i g ∈ decodeIirB c i w) ↔ w &&& c.iirB.dmaRxDone ≠ 0) ∧
    ((∃ g, Instr.iirBNoneMatched i g ∈ decodeIirB c i w) ↔ ∀ m ∈ c.iirB.nonDma, w &&& m = 0)

/-- The bit-tested formats `LSR` (R87), `DMA_STATUS_A` (R85) and `EV` (R86): the rows of a word are exactly those whose bit is
set, whatever the other bits are. That a row of a register format carries those other bits is the model's form (assumption
12). -/
def Obligations.BitTestedFormatsHoldTheSetBits : Prop :=
  ∀ (c : Config) (i : InstId) (w : Nat) (r : Instr),
    (r ∈ decodeLsr c i w ↔
      ∃ p ∈ [(c.lsr.dr, Instr.lsrDr), (c.lsr.oe, .lsrOe), (c.lsr.pe, .lsrPe), (c.lsr.fe, .lsrFe), (c.lsr.bi, .lsrBi),
          (c.lsr.txEmpty, .lsrTxEmpty)],
        w &&& p.1 ≠ 0 ∧ r = p.2 i (without w p.1)) ∧
    (r ∈ decodeDmaStatusA c i w ↔
      ∃ p ∈ [(c.dmaA.txDone, Instr.dmaStatusATxDone), (c.dmaA.rxDone, .dmaStatusARxDone)],
        w &&& p.1 ≠ 0 ∧ r = p.2 i (without w p.1)) ∧
    (r ∈ decodeEv c i w ↔ ∃ p ∈ eventTable c i, w &&& p.1 ≠ 0 ∧ r = p.2)

/-- Format `RSP` (R97) for every status and every value. A status that is none of the eight codes, 8 to 15 in the table, is
rejected, and so is a value beside a failing status: that such a word is rejected, and not merely never produced, is the
model's reading (assumption 18). `OK` has a value of `LENW` bits. -/
def Obligations.ResponseWordsOutsideTheTableAreRejected : Prop :=
  ∀ (c : Config) (i : InstId) (status : BitVec 4) (value : Nat), c.rsp.wf = true →
    (status ∉ c.rsp.codes → decode c (.rsp i status value) = .rejected .statusNeverProduced) ∧
    (c.rsp = (Config.default .A).rsp → 8 ≤ status.toNat →
      decode c (.rsp i status value) = .rejected .statusNeverProduced) ∧
    (status = c.rsp.ok → decode c (.rsp i status value) = .rows [.rspOk i (c.len value)]) ∧
    (∀ p ∈ [(c.rsp.invalidId, Instr.rspInvalidId i), (c.rsp.notInit, .rspNotInit i), (c.rsp.notPowered, .rspNotPowered i),
        (c.rsp.dmaNotEnabled, .rspDmaNotEnabled i), (c.rsp.bufferTooSmall, .rspBufferTooSmall i),
        (c.rsp.badDmaBuffer, .rspBadDmaBuffer i), (c.rsp.unsupported, .rspUnsupported i)],
      status = p.1 →
        (value = 0 → decode c (.rsp i status value) = .rows [p.2]) ∧
        (value ≠ 0 → decode c (.rsp i status value) = .rejected .valueNotZero))

/-- R85, R62: under every admissible parameterisation each DMA condition has its own clear code, which is not 0 and is not that
of the other; where writing a condition's bit clears it, the code clears that condition and no other. That a code has the bit of
its condition is read from R85's "cleared by writing the same mask" (assumption 6). -/
def Obligations.DmaConditionsAreSeparatelyClearable : Prop :=
  ∀ c : Config, c.wf = true →
    (c.dmaA.clrDmaTx ≠ 0 ∧ c.dmaA.clrDmaRx ≠ 0 ∧ c.dmaA.clrDmaTx ≠ c.dmaA.clrDmaRx ∧
      c.dmaA.clrDmaTx &&& c.dmaA.txDone = c.dmaA.txDone ∧ c.dmaA.clrDmaTx &&& c.dmaA.rxDone = 0 ∧
      c.dmaA.clrDmaRx &&& c.dmaA.rxDone = c.dmaA.rxDone ∧ c.dmaA.clrDmaRx &&& c.dmaA.txDone = 0) ∧
    (c.iirB.clrDmaTx ≠ 0 ∧ c.iirB.clrDmaRx ≠ 0 ∧ c.iirB.clrDmaTx ≠ c.iirB.clrDmaRx ∧
      c.iirB.clrDmaTx &&& c.iirB.dmaTxDone = c.iirB.dmaTxDone ∧ c.iirB.clrDmaRx &&& c.iirB.dmaRxDone = c.iirB.dmaRxDone ∧
      (∀ m ∈ c.iirB.dmaRxDone :: c.iirB.nonDma, c.iirB.clrDmaTx &&& m = 0) ∧
      (∀ m ∈ c.iirB.dmaTxDone :: c.iirB.nonDma, c.iirB.clrDmaRx &&& m = 0))

/-! ### Reset, parameters, invariant -/

/-- What reset leaves in every instance (R220): the source's `initialized = 0`, and for the rest the spec's own choices D25
and D34. -/
def Obligations.ResetState : Prop :=
  ∀ (c : Config) (i : InstId), i.toNat < c.nInst →
    let x := (State.resetWith c).eng i
    (State.resetWith c).live i ∧ x.initialized = false ∧ x.powered = false ∧ x.cfg.txDmaEn = false ∧
    x.cfg.rxDmaEn = false ∧ x.cfg.rxCb = none ∧ x.cfg.evCb = none ∧ x.cfg.rxDmaBuffer = 0 ∧
    x.cfg.rxDmaBuffLength = 0 ∧ x.cursor = 0 ∧ x.phase = .idle

/-- The invariant holds at reset, whatever the parameters. -/
def Obligations.ResetMeetsTheInvariant : Prop :=
  ∀ c : Config, (State.resetWith c).Inv

/-- Every step keeps the invariant: buffer inside the address space, cursor inside the buffer with RX DMA on, no
powered but uninitialized instance, only event bits in `ev`, every register of its width, memory in canonical form. That a
register is a natural number of which the step keeps the bits of its width is the model's form (assumption 4). -/
def Obligations.StepKeepsTheInvariant : Prop :=
  ∀ s t : State, s.Inv → step s = .next t → t.Inv

/-- No step changes a parameter (R43). -/
def Obligations.StepKeepsTheParameters : Prop :=
  ∀ s t : State, step s = .next t → t.conf = s.conf

/-- Under the tabulated event positions bits 31..16 of `ev` are 0 wherever the invariant holds (R86). -/
def Obligations.EventMaskHasSixteenBits : Prop :=
  ∀ (s : State) (i : InstId), s.Inv → s.conf.ev = (Config.default .A).ev → (s.eng i).ev < 2 ^ 16

/-! ### Whole-machine rules -/

/-- R42: a row neither writes nor reads the record of another instance. It changes its own instance only and every access it
makes is of that instance; and whatever the record of another instance holds, the row does the same and leaves that record
as it was. -/
def Obligations.InstancesAreIndependent : Prop :=
  ∀ (r : Instr) (s : State),
    (∀ t, exec r s = .next t →
      (∀ j, j ≠ r.inst → t.eng j = s.eng j) ∧ ∃ acts, t.trace = s.trace ++ acts ∧ ∀ a ∈ acts, a.inst = r.inst) ∧
    ∀ (j : InstId) (f : Engine → Engine), j ≠ r.inst →
      exec r (s.upd j f) = Result.map (fun t => t.upd j f) (exec r s)

/-- R42 for a turn of engine `i`: it neither writes nor reads the record of another instance, and the trace only grows, by
actions of instance `i`. -/
def Obligations.EngineTurnIsLocal : Prop :=
  ∀ (s : State) (i : InstId) (rest : List Turn), s.agenda = .run i :: rest →
    (∀ t, step s = .next t →
      (∀ j, j ≠ i → t.eng j = s.eng j) ∧ t.agenda = rest ∧ ∃ acts, t.trace = s.trace ++ acts ∧ ∀ a ∈ acts, a.inst = i) ∧
    ∀ (j : InstId) (f : Engine → Engine), j ≠ i → step (s.upd j f) = Result.map (fun t => t.upd j f) (step s)

/-- R6: from a state that meets the invariant, every value of every action a step performs has its width: register values
`REGW` bits, addresses `ADDRW`, event masks `EVW`, response values `LENW`. The widths and what is kept of a wider value are
the model's parameters (assumption 4). -/
def Obligations.EveryActionHasItsWidth : Prop :=
  ∀ s t : State, s.Inv → s.conf.wf = true → step s = .next t →
    ∃ acts, t.trace = s.trace ++ acts ∧ ∀ a ∈ acts, a.hasWidths s.conf

/-- A row of an activation leaves every instance's flags, configuration and cursor, all of memory and port `cmd` unchanged. On
an instance that does not exist, which no activation has (R20), it is refused by name, and on no other (assumption 21). -/
def Obligations.ActivationRowsLeaveTheRecord : Prop :=
  ∀ (r : Instr) (s : State), r.ofActivation = true →
    (exec r s = .refused .noSuchInstance ↔ ¬ s.has r.inst) ∧
    ∀ t, exec r s = .next t →
      (∀ j, (t.eng j).initialized = (s.eng j).initialized ∧ (t.eng j).powered = (s.eng j).powered ∧
        (t.eng j).cfg = (s.eng j).cfg ∧ (t.eng j).cursor = (s.eng j).cursor) ∧
      (∀ a, t.byteAt a = s.byteAt a) ∧ t.cfgIn = s.cfgIn ∧ t.cmdq = s.cmdq ∧ t.agenda = s.agenda

/-- R29, R160: a step changes a cursor only by the drain, which moves it one further past a byte inside the buffer, or by
`INIT_COMMIT`, `SWAP` or a restart of the block, which set it to 0. That the drain does not pass a zero byte is the spec's
decision D19 (R165); the restart is the model's form of R221 (assumption 23). The cursor never wraps and never exceeds
the buffer's length (R166), truncated to the cursor's width where that is narrower (R164). -/
def Obligations.OnlyTheDrainAdvancesTheCursor : Prop :=
  ∀ (s t : State) (i : InstId), step s = .next t →
    let x := s.eng i
    let y := t.eng i
    y.cursor = x.cursor ∨
    (y.cursor = x.cursor + 1 ∧ y.cursor ≤ s.conf.cur x.cfg.rxDmaBuffLength ∧ y.cursor ≤ x.cfg.rxDmaBuffLength ∧
      (x.phase = .cDrain ∨ ∃ a n, x.phase = .kDrain a n) ∧
      s.byteAt (bufByte s.conf x.cfg.rxDmaBuffer x.cursor) ≠ 0) ∨
    (y.cursor = 0 ∧
      ((x.phase = .idle ∧ ∃ a b, (nextInstr s).1 = some (.initCommit i a b) ∨ (nextInstr s).1 = some (.swap i a b)) ∨
        ((∃ a n, x.phase = .kExecSwap a n) ∧ (nextInstr s).1 = some (.rspOk i 0)) ∨
        s.agenda.head? = some .reset))

/-- Neither an interrupt entry nor any turn of an engine depends on `initialized` or `powered` (R112, the spec's decision D18):
with other flags the same step is made and only the flags differ. -/
def Obligations.ActivationsMakeNoReadinessCheck : Prop :=
  ∀ (s : State) (i j : InstId) (initialized powered : Bool) (rest : List Turn),
    (s.agenda = .irq j :: rest ∨ s.agenda = .run j :: rest) →
    step (s.withFlags i initialized powered) = Result.map (fun t => t.withFlags i initialized powered) (step s)

/-! ### Memory and registers -/

/-- A store changes the byte at its address and no other, and keeps the canonical form. -/
def Obligations.StoreChangesOneByte : Prop :=
  ∀ (s : State) (a b : Nat) (v : Byte), Memory.wf s.mem →
    Memory.wf (s.putByte a v).mem ∧ (s.putByte a v).byteAt b = if b = a then v else s.byteAt b

/-- A DMA store lands between two steps of the engines: it changes one byte and nothing else (R70). The agenda that brings it
is the model's (assumption 2), and so is that an address has its `ADDRW` bits (assumption 4). -/
def Obligations.DmaStoreLandsBetweenSteps : Prop :=
  ∀ (s : State) (a : Nat) (v : Byte) (rest : List Turn), Memory.wf s.mem → s.agenda = .dmaStore a v :: rest →
    ∃ t, step s = .next t ∧ t.engines = s.engines ∧ t.trace = s.trace ∧ t.answers = s.answers ∧ t.freeIx = s.freeIx ∧
      t.cfgIn = s.cfgIn ∧ t.cmdq = s.cmdq ∧ t.conf = s.conf ∧ t.agenda = rest ∧ Memory.wf t.mem ∧
      ∀ b, t.byteAt b = if b = s.conf.addr a then v else s.byteAt b

/-- A register read takes the first answer the environment has for that register, and no other; any value answers where there
is none. Nothing else of the machine changes but the trace. The script of answers and the free value are the model's form of
the oracle of R68 (assumption 3), of whose answer the block has the `REGW` bits (assumption 4). -/
def Obligations.RegisterReadTakesTheNextAnswer : Prop :=
  ∀ (s : State) (i : InstId) (r : Reg) (v : Nat) (before after : List Answer),
    (∀ p ∈ before, ¬ (p.i = i ∧ p.r = r)) →
    (s.answers = before ++ ⟨i, r, v⟩ :: after →
      regRead i r s =
        (s.conf.reg v, { s with answers := before ++ after, trace := s.trace ++ [Act.regRead i r (s.conf.reg v)] })) ∧
    (s.answers = before →
      let v := s.conf.reg (Config.freeReg s.freeIx)
      regRead i r s = (v, { s with freeIx := s.freeIx + 1, trace := s.trace ++ [Act.regRead i r v] }))

/-! ### Steps -/

/-- A step executes the row that is decoded: an interrupt entry, the command word at the port, the identification value that
variant A reads, the bits that variant B tests one after the other, the status a DMA step tests, the line status of a receive
loop whose data-ready bit is set. Every read is answered by the environment, scripted or not. Which agent moves comes from the
agenda and what a read answers from the script, both the model's (assumptions 2, 3); the order of variant B's tests is the
spec's decision D16 (R124), the place and number of the reads of `IIR` and `DMA_STATUS` its decision D15 (R113, R115). A
command that waits in line and the port's own turn are `PortTakesTheOldestCommand`. -/
def Obligations.StepRunsTheDecodedInstruction : Prop :=
  ∀ (s : State) (i : InstId) (rest : List Turn),
    let s' := { s with agenda := rest }
    let x := s.eng i
    let value := s.answer i
    let took := fun (r : Reg) => (regRead i r s').2
    (s.agenda = .irq i :: rest → step s = exec (.irq i) s') ∧
    (∀ w c, s.agenda = .cmd w c :: rest → s.cmdq = [] →
      ¬ (s.has (decodeCmd s.conf w).inst ∧ s.busy (decodeCmd s.conf w).inst) →
      step s = exec (decodeCmd s.conf w) { s' with cfgIn := c }) ∧
    (s.agenda = .run i :: rest → s.live i →
      (x.phase = .cDecode → s.conf.variant = .A →
        step s = exec (decodeIirA s.conf i (value .IIR))
          ((took .IIR).upd i fun x => { x with v := value .IIR &&& s.conf.iirA.mask })) ∧
      (x.phase = .cDecode → s.conf.variant = .B →
        step s = .next (s'.upd i fun x => { x with v := x.iir &&& s.conf.iirB.nonDmaMask, phase := .cRxData })) ∧
      (∀ m row q,
        (x.phase, m, row, q) ∈
          [(Phase.cRxData, s.conf.iirB.rxData, Instr.iirBRxData, Phase.cThre),
           (Phase.cThre, s.conf.iirB.thrEmpty, Instr.iirBThrEmpty, Phase.cLine),
           (Phase.cLine, s.conf.iirB.lineErr, Instr.iirBLineErr, Phase.cTimeout),
           (Phase.cTimeout, s.conf.iirB.timeout, Instr.iirBTimeout, Phase.cModem)] →
        step s = if x.v &&& m ≠ 0 then exec (row i (without x.v m)) s' else .next (s'.setPhase i q)) ∧
      (x.phase = .cModem →
        step s = if x.v &&& s.conf.iirB.modem ≠ 0 then exec (.iirBModem i (without x.v s.conf.iirB.modem)) s'
          else if x.v &&& s.conf.iirB.nonDmaMask &&& s.conf.iirB.known = 0 then exec (.iirBNoneMatched i x.v) s'
          else .next (s'.setPhase i .cDispatch)) ∧
      (∀ en m mA rowA rowB q,
        (x.phase, en, m, mA, rowA, rowB, q) ∈
          [(Phase.cTxDma, x.cfg.txDmaEn, s.conf.iirB.dmaTxDone, s.conf.dmaA.txDone, Instr.dmaStatusATxDone,
              Instr.iirBDmaTxDone, Phase.cRxDma),
           (Phase.cRxDma, x.cfg.rxDmaEn, s.conf.iirB.dmaRxDone, s.conf.dmaA.rxDone, Instr.dmaStatusARxDone,
              Instr.iirBDmaRxDone, Phase.cDecode)] →
        (s.conf.variant = .A → en = false → step s = .next (s'.setPhase i q)) ∧
        (s.conf.variant = .A → en = true →
          step s = if value .DMA_STATUS &&& mA ≠ 0 then exec (rowA i (without (value .DMA_STATUS) mA)) (took .DMA_STATUS)
            else .next ((took .DMA_STATUS).setPhase i q)) ∧
        (s.conf.variant = .B →
          step s = if x.iir &&& m ≠ 0 then exec (rowB i (without x.iir m)) s' else .next (s'.setPhase i q))) ∧
      (x.phase = .cRxDataLoop ∨ x.phase = .cTimeoutLoop → value .LSR &&& s.conf.lsr.dr ≠ 0 →
        step s = exec (.lsrDr i (without (value .LSR) s.conf.lsr.dr))
          ((took .LSR).upd i fun x => { x with l := value .LSR })))

/-- Port `cmd` takes its commands in the order in which they came (R72, assumption 11). At the port's own turn, when a further
command arrives, and when the outside world says nothing and no engine is busy or holds an entry (assumption 2), the oldest
waiting command runs with the record that came with it, if its engine is idle or does not exist; if its engine is busy it
keeps its place and nothing happens. -/
def Obligations.PortTakesTheOldestCommand : Prop :=
  ∀ (s : State) (rest : List Turn) (w : Nat) (c : Cfg) (q : List (Nat × Cfg)),
    let r := decodeCmd s.conf w
    (s.agenda = .host :: rest ∧ s.cmdq = (w, c) :: q) ∨
      (∃ w' c' q', s.agenda = .cmd w' c' :: rest ∧ s.cmdq = (w, c) :: q' ∧ q = q' ++ [(w', c')]) ∨
      (s.agenda = [] ∧ rest = [] ∧ s.cmdq = (w, c) :: q ∧ ∀ j, s.has j → ¬ s.busy j ∧ (s.eng j).heldIrq = 0) →
    (¬ (s.has r.inst ∧ s.busy r.inst) → step s = exec r { s with agenda := rest, cmdq := q, cfgIn := c }) ∧
    (s.has r.inst ∧ s.busy r.inst → step s = .next { s with agenda := rest, cmdq := (w, c) :: q })

/-- After reset the next step takes and runs a table word placed at port `cmd`. That a bare word of at most 8 or of more than
32 bits is taken as a command of the host is the model's choice and no rule of the spec (assumption 14). -/
def Obligations.PlacedCommandRunsFirst : Prop :=
  ∀ nbits w : Nat, nbits ≤ 8 ∨ 32 < nbits →
    ∃ r, decodeTableWord nbits w = some r ∧ step (State.reset.withFetchWord nbits w) = exec r State.reset

/-- After reset the next step takes and runs a placed identification value: a bare word of 9 to 32 bits is what `IIR` answers at
the opening of step 3 on instance 0 of variant A. That such a word is taken so is the model's choice and no rule of the spec
(assumption 14). -/
def Obligations.PlacedIdentificationRunsFirst : Prop :=
  ∀ nbits w : Nat, 8 < nbits → nbits ≤ 32 →
    let v := clip 32 w
    ∃ r, decodeTableWord nbits w = some r ∧
      step (State.reset.withFetchWord nbits w) =
        exec r ({ State.reset with trace := [Act.regRead 0 .IIR v] }.upd 0 fun x =>
          { x with v := v &&& State.reset.conf.iirA.mask, phase := .cDecode })

/-- The entry held while a command ran (R72) starts an activation at the engine's next turn after the response. That held
entries are counted is the model's reading (assumption 10). -/
def Obligations.HeldEntryStartsAfterTheCommand : Prop :=
  ∀ (s : State) (i : InstId) (rest : List Turn), s.live i → s.agenda = .run i :: rest → (s.eng i).phase = .idle →
    (s.eng i).heldIrq ≠ 0 →
    step s = exec (.irq i) ({ s with agenda := rest }.upd i fun x => { x with heldIrq := x.heldIrq - 1 })

/-- A command that finds its engine busy has no effect; it waits at the port (R72) with the record that came with it
(assumption 11), its word without the bits that belong to no field. -/
def Obligations.CommandWaitsForABusyEngine : Prop :=
  ∀ (s : State) (w : Nat), s.conf.cmdWf = true →
    let r := decodeCmd s.conf w
    s.has r.inst → (s.eng r.inst).phase ≠ .idle →
    exec r s = .next { s with cmdq := s.cmdq ++ [(w &&& s.conf.cmdBits, s.cfgIn)] }

/-- R221: at a restart every instance is again as reset leaves it, whatever it was doing. That process start and power loss are
a turn of the agenda, that port `cmd` is emptied with them, and that buffer memory and the environment stay is the model's
choice (assumption 23). -/
def Obligations.RestartResetsEveryInstance : Prop :=
  ∀ (s : State) (rest : List Turn), s.agenda = .reset :: rest →
    ∃ t, step s = .next t ∧ t.conf = s.conf ∧ (∀ i, t.eng i = (State.resetWith s.conf).eng i) ∧
      (∀ i, s.has i → t.live i) ∧ t.cmdq = [] ∧ t.cfgIn = Cfg.reset ∧ t.agenda = rest ∧ (∀ a, t.byteAt a = s.byteAt a) ∧
      t.answers = s.answers ∧ t.freeIx = s.freeIx ∧ t.trace = s.trace

/-! ### The activation -/

/-- An interrupt entry of an idle engine enters an activation (R113, the spec's decision D15; R203): `ev` is 0, on variant A
no register is read, on variant B `IIR` is read once and latched. -/
def Obligations.InterruptEntryStartsAnActivation : Prop :=
  ∀ (s : State) (i : InstId), s.live i → (s.eng i).phase = .idle →
    (s.conf.variant = .A → Runs i (.irq i) s [] { s.eng i with ev := 0, phase := .cTxDma }) ∧
    (s.conf.variant = .B → RunsReading i .IIR (.irq i) s [.regRead i .IIR (s.answer i .IIR)]
      { s.eng i with ev := 0, iir := s.answer i .IIR, phase := .cTxDma })

/-- Activations of one instance do not nest (R206): an entry that finds the engine busy is counted (assumption 10) and
nothing else happens. -/
def Obligations.ActivationsDoNotNest : Prop :=
  ∀ (s : State) (i : InstId), s.live i → (s.eng i).phase ≠ .idle →
    Runs i (.irq i) s [] { s.eng i with heldIrq := (s.eng i).heldIrq + 1 }

/-- The rows of step 1 (R114, R115): with TX DMA enabled the two writes and the event, without it nothing. -/
def Obligations.DmaTransmitDone : Prop :=
  ∀ (s : State) (i : InstId) (g : Nat), s.live i → s.conf.wf = true →
    let x := s.eng i
    let done := { x with ev := x.ev ||| s.conf.ev.dmaTxComplete, phase := .cRxDma, uart := { x.uart with dmaTxEn := 0 } }
    (x.cfg.txDmaEn = true →
      Runs i (.dmaStatusATxDone i g) s [.regWrite i .DMA_STATUS s.conf.dmaA.clrDmaTx, .regWrite i .DMA_TX_EN 0] done ∧
      Runs i (.iirBDmaTxDone i g) s [.regWrite i .IIR s.conf.iirB.clrDmaTx, .regWrite i .DMA_TX_EN 0] done) ∧
    (x.cfg.txDmaEn = false →
      Runs i (.dmaStatusATxDone i g) s [] { x with phase := .cRxDma } ∧
      Runs i (.iirBDmaTxDone i g) s [] { x with phase := .cRxDma })

/-- The rows of step 2 (R116 to R118): with RX DMA enabled the clear, the one length read and the events, without it nothing.
That "below" is strict is the spec's decision D31 (R117). -/
def Obligations.DmaReceiveDone : Prop :=
  ∀ (s : State) (i : InstId) (g : Nat), s.live i → s.conf.wf = true →
    let x := s.eng i
    let read := s.answer i .DMA_RX_LEFT
    let left := s.conf.len read
    let low : Nat := if left < s.conf.lowWater then s.conf.ev.rxBufferLow else 0
    let done := if x.cfg.rxCb = none then
        { x with left := left, ev := x.ev ||| low ||| s.conf.ev.dmaRxReady, phase := .cDecode }
      else { x with left := left, ev := x.ev ||| low, phase := .cDrain }
    (x.cfg.rxDmaEn = true →
      RunsReading i .DMA_RX_LEFT (.dmaStatusARxDone i g) s
        [.regWrite i .DMA_STATUS s.conf.dmaA.clrDmaRx, .regRead i .DMA_RX_LEFT read] done ∧
      RunsReading i .DMA_RX_LEFT (.iirBDmaRxDone i g) s
        [.regWrite i .IIR s.conf.iirB.clrDmaRx, .regRead i .DMA_RX_LEFT read] done) ∧
    (x.cfg.rxDmaEn = false →
      Runs i (.dmaStatusARxDone i g) s [] { x with phase := .cDecode } ∧
      Runs i (.iirBDmaRxDone i g) s [] { x with phase := .cDecode })

/-- Step 1 (R114): if the condition of an enabled direction is pending it is cleared, transmit is disabled and
`EV_DMA_TX_COMPLETE` is set, and else nothing is written. That variant A reads `DMA_STATUS` once, only if TX DMA is enabled,
and variant B tests the value it latched at the entry is the spec's decision D15 (R113, R115). -/
def Obligations.DmaTransmitStep : Prop :=
  ∀ (s : State) (i : InstId) (rest : List Turn), s.live i → s.conf.wf = true →
    s.agenda = .run i :: rest → (s.eng i).phase = .cTxDma →
    let w := s.answer i .DMA_STATUS
    let x := { s.eng i with phase := .cRxDma }
    let done := { x with ev := x.ev ||| s.conf.ev.dmaTxComplete, uart := { x.uart with dmaTxEn := 0 } }
    (s.conf.variant = .A → x.cfg.txDmaEn = false → Takes i s rest [] s x) ∧
    (s.conf.variant = .A → x.cfg.txDmaEn = true →
      Takes i s rest (.regRead i .DMA_STATUS w :: (if w &&& s.conf.dmaA.txDone ≠ 0 then
          [.regWrite i .DMA_STATUS s.conf.dmaA.clrDmaTx, .regWrite i .DMA_TX_EN 0] else []))
        (regRead i .DMA_STATUS s).2 (if w &&& s.conf.dmaA.txDone ≠ 0 then done else x)) ∧
    (s.conf.variant = .B →
      let pending := x.cfg.txDmaEn = true ∧ x.iir &&& s.conf.iirB.dmaTxDone ≠ 0
      Takes i s rest (if pending then [.regWrite i .IIR s.conf.iirB.clrDmaTx, .regWrite i .DMA_TX_EN 0] else []) s
        (if pending then done else x))

/-- Step 2 up to the delivery (R116, R117): if the condition of an enabled direction is pending, it is cleared, the remaining
length is read once, `EV_RX_BUFFER_LOW` is set exactly if it is below the threshold, and the drain follows with a receive
callback, `EV_DMA_RX_READY` without one; else nothing is written and no length is read. That "below" is strict is the spec's
decision D31 (R117), the number of status reads on variant A and the latched test on variant B its decision D15 (R115). -/
def Obligations.DmaReceiveStep : Prop :=
  ∀ (s : State) (i : InstId) (rest : List Turn), s.live i → s.conf.wf = true →
    s.agenda = .run i :: rest → (s.eng i).phase = .cRxDma →
    let x := s.eng i
    let w := s.answer i .DMA_STATUS
    let sA := (regRead i .DMA_STATUS s).2
    let bitA := w &&& s.conf.dmaA.rxDone
    let bitB := x.iir &&& s.conf.iirB.dmaRxDone
    let done := fun (read : Nat) =>
      let left := s.conf.len read
      let low : Nat := if left < s.conf.lowWater then s.conf.ev.rxBufferLow else 0
      if x.cfg.rxCb = none then
        { x with left := left, ev := x.ev ||| low ||| s.conf.ev.dmaRxReady, phase := .cDecode }
      else { x with left := left, ev := x.ev ||| low, phase := .cDrain }
    (s.conf.variant = .A → x.cfg.rxDmaEn = true → bitA ≠ 0 →
      Takes i s rest [.regRead i .DMA_STATUS w, .regWrite i .DMA_STATUS s.conf.dmaA.clrDmaRx,
          .regRead i .DMA_RX_LEFT (sA.answer i .DMA_RX_LEFT)]
        (regRead i .DMA_RX_LEFT sA).2 (done (sA.answer i .DMA_RX_LEFT))) ∧
    (s.conf.variant = .A → x.cfg.rxDmaEn = true → bitA = 0 →
      Takes i s rest [.regRead i .DMA_STATUS w] sA { x with phase := .cDecode }) ∧
    (s.conf.variant = .B → x.cfg.rxDmaEn = true → bitB ≠ 0 →
      Takes i s rest [.regWrite i .IIR s.conf.iirB.clrDmaRx, .regRead i .DMA_RX_LEFT (s.answer i .DMA_RX_LEFT)]
        (regRead i .DMA_RX_LEFT s).2 (done (s.answer i .DMA_RX_LEFT))) ∧
    (s.conf.variant = .B → x.cfg.rxDmaEn = true → bitB = 0 → Takes i s rest [] s { x with phase := .cDecode }) ∧
    (x.cfg.rxDmaEn = false → Takes i s rest [] s { x with phase := .cDecode })

/-- R144: THR empty is reported with no register action, on both variants. -/
def Obligations.ThrEmptyReportsTxComplete : Prop :=
  ∀ (s : State) (i : InstId) (g : Nat), s.live i →
    Runs i (.iirAThrEmpty i g) s [] { s.eng i with ev := (s.eng i).ev ||| s.conf.ev.txComplete, phase := .cDispatch } ∧
    Runs i (.iirBThrEmpty i g) s [] { s.eng i with ev := (s.eng i).ev ||| s.conf.ev.txComplete, phase := .cLine }

/-- R153, R154: modem status is reported and not cleared: no register action. -/
def Obligations.ModemStatusIsReportedNotCleared : Prop :=
  ∀ (s : State) (i : InstId) (g : Nat), s.live i →
    Runs i (.iirAModem i g) s [] { s.eng i with ev := (s.eng i).ev ||| s.conf.ev.hwFc, phase := .cDispatch } ∧
    Runs i (.iirBModem i g) s [] { s.eng i with ev := (s.eng i).ev ||| s.conf.ev.hwFc, phase := .cDispatch }

/-- The line-error rows (R146): one read of `LSR`, every error present reported, none that is not. On variant B the write of the
clear-pattern follows (R147); that it is unconditional and comes after the read is the spec's decision D11. -/
def Obligations.LineErrorReportsEveryErrorPresent : Prop :=
  ∀ (s : State) (i : InstId) (g : Nat), s.live i → s.conf.wf = true →
    let l := s.answer i .LSR
    let x := { s.eng i with l := l, ev := (s.eng i).ev ||| lineErrors s.conf l }
    RunsReading i .LSR (.iirALineErr i g) s [.regRead i .LSR l] { x with phase := .cDispatch } ∧
    RunsReading i .LSR (.iirBLineErr i g) s [.regRead i .LSR l, .regWrite i .LSR s.conf.lsr.bClear]
      { x with phase := .cTimeout }

/-- R143: RX data without a receive callback touches no register and sets the ready event. With a callback the first byte is
read and delivered unconditionally and the loop follows (the opening of R142). -/
def Obligations.RxDataReportsOrDelivers : Prop :=
  ∀ (s : State) (i : InstId) (g : Nat), s.live i →
    let x := s.eng i
    let b := BitVec.ofNat 8 (s.answer i .RBR)
    let acts := [Act.regRead i .RBR (s.answer i .RBR), Act.byteSink i b]
    (x.cfg.rxCb = none →
      Runs i (.iirARxData i g) s [] { x with ev := x.ev ||| s.conf.ev.rxReady, phase := .cDispatch } ∧
      Runs i (.iirBRxData i g) s [] { x with ev := x.ev ||| s.conf.ev.rxReady, phase := .cThre }) ∧
    (x.cfg.rxCb ≠ none →
      RunsReading i .RBR (.iirARxData i g) s acts { x with b := b, phase := .cRxDataLoop } ∧
      RunsReading i .RBR (.iirBRxData i g) s acts { x with b := b, phase := .cRxDataLoop })

/-- R151: character timeout without a receive callback touches no register and sets the maybe-ready event. With a callback
the loop begins with no byte counted and no byte read (the opening of R150). -/
def Obligations.TimeoutReportsOrEntersItsLoop : Prop :=
  ∀ (s : State) (i : InstId) (g : Nat), s.live i →
    let x := s.eng i
    (x.cfg.rxCb = none →
      Runs i (.iirATimeout i g) s [] { x with ev := x.ev ||| s.conf.ev.rxMaybeReady, phase := .cDispatch } ∧
      Runs i (.iirBTimeout i g) s [] { x with ev := x.ev ||| s.conf.ev.rxMaybeReady, phase := .cModem }) ∧
    (x.cfg.rxCb ≠ none →
      Runs i (.iirATimeout i g) s [] { x with n := 0, phase := .cTimeoutLoop } ∧
      Runs i (.iirBTimeout i g) s [] { x with n := 0, phase := .cTimeoutLoop })

/-- R82, R121: on variant A a value that matches no code sets the unexpected event whatever `ev` holds, and a masked value of
zero sets nothing. On variant B no match sets it only if no event bit was set in the entire pass (R125). -/
def Obligations.UnmatchedValuesAreUnexpected : Prop :=
  ∀ (s : State) (i : InstId) (w : Nat), s.live i →
    let x := s.eng i
    let v := w &&& s.conf.iirA.mask
    (v ∉ s.conf.iirA.codes → v ≠ 0 →
      Runs i (decodeIirA s.conf i w) s [] { x with ev := x.ev ||| s.conf.ev.unexpected, phase := .cDispatch }) ∧
    (v ∉ s.conf.iirA.codes → v = 0 → Runs i (decodeIirA s.conf i w) s [] { x with phase := .cDispatch }) ∧
    Runs i (.iirAUnexpected6 i w) s [] { x with ev := x.ev ||| s.conf.ev.unexpected, phase := .cDispatch } ∧
    Runs i (.iirAUnexpected7 i w) s [] { x with ev := x.ev ||| s.conf.ev.unexpected, phase := .cDispatch } ∧
    Runs i (.iirANone i w) s [] { x with phase := .cDispatch } ∧
    (x.ev = 0 → Runs i (.iirBNoneMatched i w) s [] { x with ev := s.conf.ev.unexpected, phase := .cDispatch }) ∧
    (x.ev ≠ 0 → Runs i (.iirBNoneMatched i w) s [] { x with phase := .cDispatch })

/-- The four error rows set one event each, the data-ready row delivers one byte, which the timeout loop counts, and the
transmitter-empty row, which the block never tests, has no effect (R87, R142, R146, R150). That a line-status bit is a row
with this effect is the model's reading (assumption 13). -/
def Obligations.LineStatusRows : Prop :=
  ∀ (s : State) (i : InstId) (g : Nat), s.live i →
    let x := s.eng i
    let b := BitVec.ofNat 8 (s.answer i .RBR)
    Runs i (.lsrOe i g) s [] { x with ev := x.ev ||| s.conf.ev.errOverrun } ∧
    Runs i (.lsrPe i g) s [] { x with ev := x.ev ||| s.conf.ev.errParity } ∧
    Runs i (.lsrFe i g) s [] { x with ev := x.ev ||| s.conf.ev.errFraming } ∧
    Runs i (.lsrBi i g) s [] { x with ev := x.ev ||| s.conf.ev.errBreak } ∧
    Runs i (.lsrTxEmpty i g) s [] x ∧
    RunsReading i .RBR (.lsrDr i g) s [.regRead i .RBR (s.answer i .RBR), .byteSink i b]
      { x with b := b, n := if x.phase = .cTimeoutLoop then x.n + 1 else x.n }

/-- Each event row enters its own bit into `ev` and does nothing else (R86, R130). That an event bit is a row with this effect
is the model's reading (assumption 13). -/
def Obligations.EventRowsEnterTheirBit : Prop :=
  ∀ (s : State) (i : InstId), s.live i →
    ∀ p ∈ eventTable s.conf i,
      Runs i p.2 s [] { s.eng i with ev := (s.eng i).ev ||| p.1 }

/-- Step 9 calls the event sink exactly once with the accumulated mask if an event callback is registered (R128), also when
it is 0 (the spec's decision D17), and leaves the engine idle. -/
def Obligations.DispatchCallsTheEventSinkOnce : Prop :=
  ∀ (s : State) (i : InstId) (rest : List Turn), s.live i → s.agenda = .run i :: rest → (s.eng i).phase = .cDispatch →
    ∃ t, step s = .next t ∧ OnlyEngine i { s with agenda := rest } t ∧
      Acts s t (if (s.eng i).cfg.evCb = none then [] else [.eventSink i (s.eng i).ev]) ∧
      t.eng i = { s.eng i with phase := .idle }

/-- One turn of the drain (R164 to R166). A non-zero byte inside the buffer is delivered and passed, and the cursor does not wrap;
a zero byte ends the scan; at the buffer's length, truncated to the cursor's width where that is narrower (R164), nothing is
read. That a zero byte is neither delivered nor passed is the spec's decision D19 (R165, R166).
At the end of the scan of step 2 `EV_DMA_RX_TO_CB` is set, whatever was delivered (R118, which marks that as derived). -/
def Obligations.DrainTurn : Prop :=
  ∀ (s : State) (i : InstId) (rest : List Turn), s.live i → s.agenda = .run i :: rest →
    let x := s.eng i
    let a := bufByte s.conf x.cfg.rxDmaBuffer x.cursor
    let b := s.byteAt a
    let inside := x.cursor < s.conf.cur x.cfg.rxDmaBuffLength
    let ends : Engine → Engine := fun y => match x.phase with
      | .kDrain nb nl => { y with phase := .kExecSwap nb nl }
      | _ => { y with ev := y.ev ||| s.conf.ev.dmaRxToCb, phase := .cDecode }
    (x.phase = .cDrain ∨ ∃ nb nl, x.phase = .kDrain nb nl) →
    (s.conf.lenw ≤ s.conf.curw → s.conf.len x.cfg.rxDmaBuffLength = x.cfg.rxDmaBuffLength →
      (inside ↔ x.cursor < x.cfg.rxDmaBuffLength)) ∧
    ∃ t, step s = .next t ∧ OnlyEngine i { s with agenda := rest } t ∧
      (inside → b ≠ 0 → Acts s t [.memRead i a b, .byteSink i b] ∧
        t.eng i = { x with b := b, cursor := x.cursor + 1 }) ∧
      (inside → b = 0 → Acts s t [.memRead i a 0] ∧ t.eng i = ends { x with b := 0 }) ∧
      (¬ inside → Acts s t [] ∧ t.eng i = ends x)

/-- The end of a receive loop (R142, R150). When `LSR` answers data-ready clear, the RX-data loop reports delivery; the timeout
loop reports delivery if it delivered at least one byte, and else makes a dummy read, delivers nothing and reports that no
data came. That the dummy read is one of `RBR` is the spec's decision D22 (R152). -/
def Obligations.ReceiveLoopEnds : Prop :=
  ∀ (s : State) (i : InstId) (rest : List Turn), s.live i → s.agenda = .run i :: rest →
    let l := s.answer i .LSR
    let s1 := (regRead i .LSR s).2
    let x := { s.eng i with l := l }
    let read := [Act.regRead i .LSR l]
    let after := fun (a b : Phase) => match s.conf.variant with
      | .A => a
      | .B => b
    l &&& s.conf.lsr.dr = 0 →
    ((s.eng i).phase = .cRxDataLoop →
      Takes i s rest read s1 { x with ev := x.ev ||| s.conf.ev.rxToCb, phase := after .cDispatch .cThre }) ∧
    ((s.eng i).phase = .cTimeoutLoop → x.n ≠ 0 →
      Takes i s rest read s1 { x with ev := x.ev ||| s.conf.ev.rxEndedToCb, phase := after .cDispatch .cModem }) ∧
    ((s.eng i).phase = .cTimeoutLoop → x.n = 0 →
      Takes i s rest (read ++ [.regRead i .RBR (s1.answer i .RBR)]) (regRead i .RBR s1).2
        { x with ev := x.ev ||| s.conf.ev.rxEndedNoData, phase := after .cDispatch .cModem })

/-- R131, R142, R150: a receive loop is not bounded. For every number of turns whose `LSR` reads all answer data-ready, the
engine is still in the loop after them, having delivered one byte in each, in order. The script that holds the answers is the
model's (assumption 3). -/
def Obligations.ReceiveLoopIsNotBounded : Prop :=
  ∀ (s : State) (i : InstId) (bs : List (Nat × Nat)) (as : List Answer), s.live i →
    ((s.eng i).phase = .cRxDataLoop ∨ (s.eng i).phase = .cTimeoutLoop) →
    (∀ p ∈ bs, s.conf.reg p.1 &&& s.conf.lsr.dr ≠ 0) →
    s.answers = loopAnswers i bs ++ as → s.agenda = List.replicate bs.length (.run i) →
    ∃ t, Sys2Proof.core.run bs.length s = .next t ∧ (t.eng i).phase = (s.eng i).phase ∧
      t.trace = s.trace ++ loopActs s.conf i bs ∧ t.answers = as ∧ (t.eng i).ev = (s.eng i).ev ∧
      (t.eng i).n = (if (s.eng i).phase = .cTimeoutLoop then (s.eng i).n + bs.length else (s.eng i).n)

/-- R120, R121, R128 on variant A, no DMA and no receive callback configured, no line error: from the interrupt entry to the
event call an activation reads `IIR` once, makes no other access, and reports exactly the event of the code, in one call. That
the one read of `IIR` is made in step 3 is the spec's decision D15 (R115), that the call is made also with mask 0 its
decision D17 (R128). Line errors, DMA and callbacks are other statements' matter. -/
def Obligations.PlainActivationOnVariantA : Prop :=
  ∀ (s : State) (i : InstId), s.live i → s.conf.wf = true → s.conf.variant = .A →
    let x := s.eng i
    let w := s.answer i .IIR
    x.phase = .idle → x.cfg.txDmaEn = false → x.cfg.rxDmaEn = false → x.cfg.rxCb = none →
    w &&& s.conf.iirA.mask ≠ s.conf.iirA.lineErr → s.agenda = .irq i :: List.replicate 4 (.run i) →
    ∃ t, Sys2Proof.core.run 5 s = .next t ∧
      t.trace = s.trace ++ [.regRead i .IIR w] ++
        (if x.cfg.evCb = none then [] else [.eventSink i (plainEventA s.conf w)]) ∧
      OnlyEngine i { s with agenda := [] } t ∧ t.answers = (regRead i .IIR s).2.answers ∧
      t.freeIx = (regRead i .IIR s).2.freeIx ∧
      t.eng i = { x with ev := plainEventA s.conf w, v := w &&& s.conf.iirA.mask }

/-- R123 to R125, R128, R202 on variant B, no DMA and no receive callback configured: any subset of the five conditions is
handled in one pass and reported in one call. That `IIR` is read once, at the entry, is the spec's decision D15 (R113), that
the line-error handler writes `LSR` unconditionally its decision D11 (R147), that the call is made also with mask 0 its
decision D17 (R128). DMA and callbacks are other statements' matter. -/
def Obligations.VariantBHandlesEverySubset : Prop :=
  ∀ (s : State) (i : InstId), s.live i → s.conf.wf = true → s.conf.variant = .B →
    let x := s.eng i
    let w := s.answer i .IIR
    let s1 := (regRead i .IIR s).2
    let l := s1.answer i .LSR
    let line := w &&& s.conf.iirB.lineErr ≠ 0
    let final := if line then (regRead i .LSR s1).2 else s1
    x.phase = .idle → x.cfg.txDmaEn = false → x.cfg.rxDmaEn = false → x.cfg.rxCb = none →
    s.agenda = .irq i :: List.replicate 9 (.run i) →
    ∃ t, Sys2Proof.core.run 10 s = .next t ∧
      t.trace = s.trace ++ [.regRead i .IIR w] ++
        (if line then [.regRead i .LSR l, .regWrite i .LSR s.conf.lsr.bClear] else []) ++
        (if x.cfg.evCb = none then [] else [.eventSink i (plainEventsB s.conf w l)]) ∧
      OnlyEngine i { s with agenda := [] } t ∧ t.answers = final.answers ∧ t.freeIx = final.freeIx ∧
      (t.eng i).ev = plainEventsB s.conf w l ∧ (t.eng i).phase = .idle ∧ (t.eng i).cfg = x.cfg ∧
      (t.eng i).cursor = x.cursor ∧ (t.eng i).initialized = x.initialized ∧ (t.eng i).powered = x.powered

/-! ### Commands -/

/-- A failing command answers its failing status at once and changes nothing (R190, R191): the state differs only by the
response in the trace. That where several causes hold the first in the order of R192 answers is the spec's decision D23. A
command that does not meet the premise of R55 is refused instead (`BufferPastTheTopIsRefused`), but for one that names no
instance, which is answered "before anything else" (R94). -/
def Obligations.FailingCommandOnlyAnswers : Prop :=
  ∀ (s : State) (w : Nat) (status : Status),
    let r := decodeCmd s.conf w
    s.engines.length = s.conf.nInst → (s.has r.inst → (s.eng r.inst).phase = .idle) →
    (s.has r.inst → s.meetsPremise r = true) → s.failure r = some status →
    exec r s = .next { s with trace := s.trace ++ [Act.ret r.inst status 0] }

/-- The reserved command answers `E_UNSUPPORTED`, after the range check of the instance, changes no state and performs no
access (R98, the spec's decision D26); its two argument fields are ignored. -/
def Obligations.ReservedCommandIsUnsupported : Prop :=
  ∀ (s : State) (i : InstId) (a b : Nat), s.engines.length = s.conf.nInst →
    (¬ s.has i → exec (.reserved7 i a b) s = .next { s with trace := s.trace ++ [Act.ret i .invalidId 0] }) ∧
    (s.has i → (s.eng i).phase = .idle →
      exec (.reserved7 i a b) s = .next { s with trace := s.trace ++ [Act.ret i .unsupported 0] })

/-- `INIT_COMMIT` writes the whole record by value (R177); it answers at once when RX DMA is not requested and goes on to the
zero fill when it is. That there is no fill without RX DMA is the spec's decision D24 (R178), that the buffer must not run past
the top of the address space, requested or not, its decision D27 (R55). -/
def Obligations.InitCommitWritesTheRecord : Prop :=
  ∀ (s : State) (i : InstId) (a b : Nat), s.live i → (s.eng i).phase = .idle →
    s.failure (.initCommit i a b) = none →
    let k := sampled s.conf s.cfgIn
    let x := { s.eng i with cfg := k, powered := true, initialized := true, cursor := 0 }
    fits s.conf k.rxDmaBuffer k.rxDmaBuffLength →
    (k.rxDmaEn = false → Runs i (.initCommit i a b) s [.ret i .ok 0] x) ∧
    (k.rxDmaEn = true → Runs i (.initCommit i a b) s [] { x with phase := .kExecFill 0 })

/-- R177, R178: `INIT_COMMIT` with an RX DMA buffer, from the command to its response: one zero byte written to each address
of the buffer, no other byte changed, the record as committed, one response. Ascending order, a byte at a time, and only with
RX DMA, are the spec's decision D24 (R178). -/
def Obligations.InitCommitClearsTheBuffer : Prop :=
  ∀ (s : State) (i : InstId) (a b : Nat) (c : Cfg), s.live i → (s.eng i).phase = .idle → Memory.wf s.mem →
    s.conf.wf = true → s.cmdq = [] → { s with cfgIn := c }.failure (.initCommit i a b) = none →
    let k := sampled s.conf c
    let len := k.rxDmaBuffLength
    k.rxDmaEn = true → fits s.conf k.rxDmaBuffer k.rxDmaBuffLength →
    s.agenda = .cmd (cmdWord s.conf s.conf.cmd.initCommit i a b) c :: List.replicate (len + 1) (.run i) →
    ∃ t, Sys2Proof.core.run (len + 2) s = .next t ∧
      t.trace = s.trace ++
        (List.range len).map (fun j => Act.memWrite i (bufByte s.conf k.rxDmaBuffer j) 0) ++
        [.ret i .ok 0] ∧
      (∀ p, t.byteAt p =
        if k.rxDmaBuffer ≤ p ∧ p < k.rxDmaBuffer + len then 0 else s.byteAt p) ∧
      t.eng i = { s.eng i with cfg := k, powered := true, initialized := true, cursor := 0 } ∧
      (∀ j, j ≠ i → t.eng j = s.eng j) ∧ t.answers = s.answers

/-- `INIT_COMMIT` and `SWAP` on an idle instance refuse a buffer that runs past the top of the address space (R55, the spec's
decision D27), whatever else holds of the command: with RX DMA requested or not, with every other check passed or failed.
That the premise is tested before the status checks is read from R55 (assumption 9). -/
def Obligations.BufferPastTheTopIsRefused : Prop :=
  ∀ (s : State) (i : InstId) (a b : Nat), s.has i → (s.eng i).phase = .idle →
    let k := sampled s.conf s.cfgIn
    (2 ^ s.conf.addrw < k.rxDmaBuffer + k.rxDmaBuffLength → exec (.initCommit i a b) s = .refused .bufferPastTop) ∧
    (2 ^ s.conf.addrw < s.conf.addr a + s.conf.len b → exec (.swap i a b) s = .refused .bufferPastTop)

/-- `SWAP` without a receive callback (R171; the stored pointer and length of R175 are the spec's decision D23): the bracket
of four register writes in order, the stored pointer and length and the cursor, one response; the RX DMA has latched the new
buffer (R64, assumption 15). With a receive callback the force-drain of the old buffer begins first. Of its operands the block
has the `ADDRW` and `LENW` bits, and a register the `REGW` bits of these (assumption 4). -/
def Obligations.SwapReprogramsTheReceiver : Prop :=
  ∀ (s : State) (i : InstId) (a b : Nat), s.live i → s.conf.wf = true → (s.eng i).phase = .idle →
    s.failure (.swap i a b) = none →
    let nb := s.conf.addr a
    let nl := s.conf.len b
    let ra := s.conf.reg nb
    let rl := s.conf.reg nl
    fits s.conf nb nl →
    let x := s.eng i
    (x.cfg.rxCb = none →
      Runs i (.swap i a b) s
        [.regWrite i .DMA_RX_EN 0, .regWrite i .DMA_RX_ADDR ra, .regWrite i .DMA_RX_LEN rl, .regWrite i .DMA_RX_EN 1,
         .ret i .ok 0]
        { x with
          cfg := { x.cfg with rxDmaBuffer := nb, rxDmaBuffLength := nl }
          cursor := 0
          uart := { x.uart with dmaRxEn := 1, dmaRxAddr := ra, dmaRxLen := rl, rxLatchedAddr := ra, rxLatchedLen := rl } }) ∧
    (x.cfg.rxCb ≠ none → Runs i (.swap i a b) s [] { x with phase := .kDrain nb nl })

/-- R171, R174: `SWAP` with a receive callback, from the command to its response: every pending byte of the old buffer is
delivered exactly once, in order, before RX DMA is disabled; then the bracket, the bookkeeping and one response. The scan ends
at the first zero byte (R164, kept by the spec's decision D20); that this byte is neither delivered nor passed is its decision
D19 (R165), the bookkeeping of pointer, length and cursor its decision D23 (R175). Of its operands the block has the `ADDRW`
and `LENW` bits, and a register the `REGW` bits of these (assumption 4). -/
def Obligations.SwapDeliversPendingBytesFirst : Prop :=
  ∀ (s : State) (i : InstId) (a b : Nat) (c : Cfg) (m : Nat), s.live i → (s.eng i).phase = .idle → s.cmdq = [] →
    s.conf.wf = true → s.failure (.swap i a b) = none →
    let nb := s.conf.addr a
    let nl := s.conf.len b
    fits s.conf nb nl →
    let x := s.eng i
    x.cfg.rxCb ≠ none → pendingBytes s x m →
    s.agenda = .cmd (cmdWord s.conf s.conf.cmd.swap i a b) c :: List.replicate (m + 2) (.run i) →
    ∃ t, Sys2Proof.core.run (m + 3) s = .next t ∧
      t.trace = s.trace ++ drainActs i s x m ++
        [.regWrite i .DMA_RX_EN 0, .regWrite i .DMA_RX_ADDR (s.conf.reg nb), .regWrite i .DMA_RX_LEN (s.conf.reg nl),
         .regWrite i .DMA_RX_EN 1, .ret i .ok 0] ∧
      (t.eng i).cfg = { x.cfg with rxDmaBuffer := nb, rxDmaBuffLength := nl } ∧ (t.eng i).cursor = 0 ∧
      (t.eng i).phase = .idle ∧ (t.eng i).ev = x.ev ∧ (∀ p, t.byteAt p = s.byteAt p) ∧
      (∀ j, j ≠ i → t.eng j = s.eng j) ∧ t.answers = s.answers

/-- R180: `LEFT` makes one register read and answers its value, and nothing else changes but the working register; where one
of its checks fails it answers the failure and reads nothing. -/
def Obligations.LeftAnswersTheRemainingLength : Prop :=
  ∀ (s : State) (i : InstId) (a b : Nat), s.engines.length = s.conf.nInst → (s.has i → (s.eng i).phase = .idle) →
    let v := s.answer i .DMA_RX_LEFT
    let left := s.conf.len v
    (s.failure (.left i a b) = none →
      RunsReading i .DMA_RX_LEFT (.left i a b) s [.regRead i .DMA_RX_LEFT v, .ret i .ok left]
        { s.eng i with left := left }) ∧
    (∀ status, s.failure (.left i a b) = some status →
      exec (.left i a b) s = .next { s with trace := s.trace ++ [Act.ret i status 0] })

/-- R182: `TXDMA_START` programs address and length as given and sets the transmit enable, and the record is unchanged; where
one of its checks fails it answers the failure and writes nothing. Of its operands the block has the `ADDRW` and `LENW` bits,
and a register the `REGW` bits of these (assumption 4). -/
def Obligations.TxDmaStartProgramsTheTransmitter : Prop :=
  ∀ (s : State) (i : InstId) (a b : Nat), s.engines.length = s.conf.nInst → s.conf.wf = true →
    (s.has i → (s.eng i).phase = .idle) →
    let buffer := s.conf.reg (s.conf.addr a)
    let length := s.conf.reg (s.conf.len b)
    (s.failure (.txdmaStart i a b) = none →
      Runs i (.txdmaStart i a b) s
        [.regWrite i .DMA_TX_ADDR buffer, .regWrite i .DMA_TX_LEN length, .regWrite i .DMA_TX_EN 1, .ret i .ok 0]
        { s.eng i with uart := { (s.eng i).uart with dmaTxAddr := buffer, dmaTxLen := length, dmaTxEn := 1 } }) ∧
    (∀ status, s.failure (.txdmaStart i a b) = some status →
      exec (.txdmaStart i a b) s = .next { s with trace := s.trace ++ [Act.ret i status 0] })

/-- R183, R184: the marks of an initialized instance change the flags only, whatever `powered` was, and configuration and
cursor stay; on an instance that does not exist or is not initialized they answer `E_INVALID_ID`, `E_NOT_INIT` and change
nothing. -/
def Obligations.MarksChangeTheFlagsOnly : Prop :=
  ∀ (s : State) (i : InstId) (a b : Nat), s.engines.length = s.conf.nInst → (s.has i → (s.eng i).phase = .idle) →
    (s.has i → (s.eng i).initialized = true →
      Runs i (.powerOffMark i a b) s [.ret i .ok 0] { s.eng i with powered := false } ∧
      Runs i (.powerOnMark i a b) s [.ret i .ok 0] { s.eng i with powered := true } ∧
      Runs i (.uninitMark i a b) s [.ret i .ok 0] { s.eng i with powered := false, initialized := false }) ∧
    (∀ r ∈ [Instr.powerOffMark i a b, .powerOnMark i a b, .uninitMark i a b],
      (¬ s.has i → exec r s = .next { s with trace := s.trace ++ [Act.ret i .invalidId 0] }) ∧
      (s.has i → (s.eng i).initialized = false →
        exec r s = .next { s with trace := s.trace ++ [Act.ret i .notInit 0] }))

/-- Each response row makes one response with its status of R97, with a value for `OK` only, and leaves the engine idle. That
a response word is a row with this effect is the model's reading (assumption 13). On an instance that does not exist a response
row makes its response and changes nothing else: the model's choice but for `E_INVALID_ID` (assumption 24). -/
def Obligations.ResponseRowsAnswerTheirStatus : Prop :=
  ∀ (s : State) (i : InstId) (v : Nat), s.engines.length = s.conf.nInst →
    let x := { s.eng i with phase := .idle }
    let responds := fun r status value => exec r s = .next { s with trace := s.trace ++ [Act.ret i status value] }
    (s.has i →
      Runs i (.rspOk i v) s [.ret i .ok (s.conf.len v)] x ∧
      Runs i (.rspInvalidId i) s [.ret i .invalidId 0] x ∧
      Runs i (.rspNotInit i) s [.ret i .notInit 0] x ∧
      Runs i (.rspNotPowered i) s [.ret i .notPowered 0] x ∧
      Runs i (.rspDmaNotEnabled i) s [.ret i .dmaNotEnabled 0] x ∧
      Runs i (.rspBufferTooSmall i) s [.ret i .bufferTooSmall 0] x ∧
      Runs i (.rspBadDmaBuffer i) s [.ret i .badDmaBuffer 0] x ∧
      Runs i (.rspUnsupported i) s [.ret i .unsupported 0] x) ∧
    (¬ s.has i →
      responds (.rspOk i v) .ok (s.conf.len v) ∧
      responds (.rspInvalidId i) .invalidId 0 ∧
      responds (.rspNotInit i) .notInit 0 ∧
      responds (.rspNotPowered i) .notPowered 0 ∧
      responds (.rspDmaNotEnabled i) .dmaNotEnabled 0 ∧
      responds (.rspBufferTooSmall i) .bufferTooSmall 0 ∧
      responds (.rspBadDmaBuffer i) .badDmaBuffer 0 ∧
      responds (.rspUnsupported i) .unsupported 0)
end

