-- ==== Sys2Proof/Laws/Widths.lean ====
section
/-! SUPPORT. Laws of `clip`, the low bits of a value: what it leaves, when it changes nothing, and how it meets the other
operations; and what an admissible parameter record says of the values the block writes. -/

namespace Sys2Proof

section
variable (w v m : Nat)

/-- A clipped value has `w` bits. -/
theorem clip_lt : clip w v < 2 ^ w := Nat.mod_lt _ (Nat.two_pow_pos w)

/-- Clipping never makes a value larger. -/
theorem clip_le : clip w v ≤ v := Nat.mod_le _ _

/-- Clipping a value of `w` bits changes nothing. -/
theorem clip_eq_self : clip w v = v ↔ v < 2 ^ w := ⟨fun h => h ▸ clip_lt w v, Nat.mod_eq_of_lt⟩

@[simp] theorem clip_clip : clip w (clip w v) = clip w v := (clip_eq_self _ _).2 (clip_lt w v)

@[simp] theorem clip_zero : clip w 0 = 0 := Nat.zero_mod _

/-- The bits of a clipped value. -/
theorem clip_testBit (k : Nat) : (clip w v).testBit k = (decide (k < w) && v.testBit k) := Nat.testBit_mod_two_pow ..

/-- The bits of a slice. -/
theorem slice_testBit (p n k : Nat) : (slice v p n).testBit k = (decide (k < n) && v.testBit (p + k)) := by
  rw [slice, clip_testBit, Nat.testBit_shiftRight]

/-- The bits that are left when a mask is taken away. -/
theorem without_testBit (k : Nat) : (without v m).testBit k = (v.testBit k && !m.testBit k) := by
  rw [without, Nat.testBit_xor, Nat.testBit_and]
  cases v.testBit k <;> cases m.testBit k <;> rfl

/-- Masking a value of `w` bits leaves `w` bits. -/
theorem clip_and (h : clip w v = v) : clip w (v &&& m) = v &&& m := by
  rw [clip_eq_self] at *
  exact Nat.lt_of_le_of_lt Nat.and_le_left h

end

/-- A value of a narrower width has the wider one. -/
theorem clip_of_narrower {n w : Nat} (v : Nat) (hn : n ≤ w) (h : clip n v = v) : clip w v = v := by
  rw [clip_eq_self] at *
  exact Nat.lt_of_lt_of_le h (Nat.pow_le_pow_right (by decide) hn)

section
variable (c : Config) (v : Nat)

@[simp] theorem reg_reg : c.reg (c.reg v) = c.reg v := clip_clip _ _
@[simp] theorem addr_addr : c.addr (c.addr v) = c.addr v := clip_clip _ _
@[simp] theorem len_len : c.len (c.len v) = c.len v := clip_clip _ _
@[simp] theorem cur_cur : c.cur (c.cur v) = c.cur v := clip_clip _ _
@[simp] theorem reg_zero : c.reg 0 = 0 := clip_zero _
@[simp] theorem addr_zero : c.addr 0 = 0 := clip_zero _
@[simp] theorem len_zero : c.len 0 = 0 := clip_zero _
@[simp] theorem cur_zero : c.cur 0 = 0 := clip_zero _

end

section
variable {c : Config}

/-- The register values among the encodings have `REGW` bits. -/
theorem reg_of_mem_regConsts (h : c.wf = true) {m : Nat} (hm : m ∈ c.regConsts) : c.reg m = m := by
  simp only [Config.wf, Config.constsWf, Bool.and_eq_true, List.all_eq_true, beq_iff_eq] at h
  exact h.2.1 m hm

/-- The enable value 1 (spec/30_encoding.md R89) has `REGW` bits: a register holds at least one code. -/
theorem reg_one (h : c.wf = true) : c.reg 1 = 1 := by
  have hm : c.dmaA.txDone ≠ 0 := by
    simp only [Config.wf, EncDmaA.wf, oneBit, Bool.and_eq_true, bne_iff_ne] at h
    tauto
  have hr : clip c.regw c.dmaA.txDone = c.dmaA.txDone := reg_of_mem_regConsts h (by simp [Config.regConsts])
  rw [clip_eq_self] at hr
  refine (clip_eq_self _ _).2 ?_
  omega

end

end Sys2Proof
end

