-- ==== Sys2Proof/Laws/Encoding.lean ====
section
/-! SUPPORT. Laws of the encoding tables: masks of one bit, masked fields, the fields of a command word, and membership in
the decoding of a bit-tested value. -/

namespace Sys2Proof

/-! ### Masks -/

/-- What is kept and what is added do not disturb each other. -/
theorem or_and_self (g m : Nat) : (g ||| m) &&& m = m := by
  apply Nat.eq_of_testBit_eq
  intro i
  simp
  grind

/-- See `or_and_self`. -/
theorem or_without {g m : Nat} (h : g &&& m = 0) : without (g ||| m) m = g := by
  apply Nat.eq_of_testBit_eq
  intro i
  have := congrArg (fun x => x.testBit i) h
  simp [without_testBit] at this ⊢
  grind

/-- A code inside the mask, beside bits outside it, is read back, and so are the bits outside. -/
theorem masked_code {g m mask : Nat} (h : g &&& mask = 0) (hm : m &&& mask = m) :
    (g ||| m) &&& mask = m ∧ without (g ||| m) mask = g := by
  constructor <;>
  · apply Nat.eq_of_testBit_eq
    intro i
    have := congrArg (fun x => x.testBit i) h
    have := congrArg (fun x => x.testBit i) hm
    simp [without_testBit] at *
    grind

/-- Masking first does not change the test of a bit inside the mask. -/
theorem masked_bit {w m mask : Nat} (h : m &&& mask = m) : (w &&& mask) &&& m = w &&& m := by
  rw [Nat.and_assoc, Nat.and_comm mask, h]

/-- A mask of one bit is a power of two. -/
theorem oneBit_twoPow {m : Nat} (h : oneBit m = true) : ∃ k, m = 2 ^ k := by
  simp only [oneBit, Bool.and_eq_true, bne_iff_ne, beq_iff_eq] at h
  obtain ⟨h3, h2⟩ := h
  by_contra hcon
  have hlt : 2 ^ m.log2 < m := lt_of_le_of_ne (Nat.log2_self_le h3) fun e => hcon ⟨_, e.symm⟩
  have hb : m < 2 ^ (m.log2 + 1) := Nat.lt_log2_self
  have t2 : (m - 1).testBit m.log2 = true := by
    rw [Nat.testBit_eq_decide_div_mod_eq]
    have : (m - 1) / 2 ^ m.log2 = 1 := by
      rw [Nat.div_eq_of_lt_le] <;> omega
    simp [this]
  have := congrArg (fun x => x.testBit m.log2) h2
  simp [Nat.testBit_log2 h3, t2] at this

/-- Two different masks of one bit do not meet. -/
theorem hasBit_of_ne {a b : Nat} (ha : oneBit a = true) (hb : oneBit b = true) (h : a ≠ b) : hasBit a b = false := by
  obtain ⟨k, rfl⟩ := oneBit_twoPow ha
  obtain ⟨l, rfl⟩ := oneBit_twoPow hb
  have hkl : k ≠ l := fun e => h (by rw [e])
  simp only [hasBit, bne_eq_false_iff_eq]
  apply Nat.eq_of_testBit_eq
  intro i
  simp [Nat.testBit_two_pow]
  grind

/-- A mask of one bit meets itself. -/
theorem hasBit_self {a : Nat} (ha : oneBit a = true) : hasBit a a = true := by
  simp [oneBit] at ha
  simpa [hasBit] using ha.1

/-! ### Bit-tested rows -/

/-- A bit-tested row is there exactly when its bit is set, with the other bits as operand. -/
theorem bitRow_eq_some {row : InstId → Nat → Instr} {m w : Nat} {i : InstId} {r : Instr} :
    bitRow row m i w = some r ↔ w &&& m ≠ 0 ∧ row i (without w m) = r := by
  simp [bitRow, hasBit]

/-- The row of an encoding. -/
theorem bitRow_encode {row : InstId → Nat → Instr} {g m : Nat} {i : InstId} (h : g &&& m = 0) (hm : m ≠ 0) :
    bitRow row m i (g ||| m) = some (row i g) := by
  rw [bitRow_eq_some, or_and_self, or_without h]
  exact ⟨hm, rfl⟩

/-- The rows of an `IIR_B` value. -/
theorem mem_decodeIirB {c : Config} {i : InstId} {w : Nat} {r : Instr} :
    r ∈ decodeIirB c i w ↔ rowIirBDmaTxDone c i w = some r ∨ rowIirBDmaRxDone c i w = some r ∨ rowIirBRxData c i w = some r ∨
      rowIirBThrEmpty c i w = some r ∨ rowIirBLineErr c i w = some r ∨ rowIirBTimeout c i w = some r ∨
      rowIirBModem c i w = some r ∨ rowIirBNoneMatched c i w = some r := by
  simp [decodeIirB, @eq_comm _ (some r)]

/-- The rows of a `DMA_STATUS_A` value. -/
theorem mem_decodeDmaStatusA {c : Config} {i : InstId} {w : Nat} {r : Instr} :
    r ∈ decodeDmaStatusA c i w ↔ rowDmaStatusATxDone c i w = some r ∨ rowDmaStatusARxDone c i w = some r := by
  simp [decodeDmaStatusA, @eq_comm _ (some r)]

/-- The rows of an `LSR` value. -/
theorem mem_decodeLsr {c : Config} {i : InstId} {w : Nat} {r : Instr} :
    r ∈ decodeLsr c i w ↔ rowLsrDr c i w = some r ∨ bitRow .lsrOe c.lsr.oe i w = some r ∨
      bitRow .lsrPe c.lsr.pe i w = some r ∨ bitRow .lsrFe c.lsr.fe i w = some r ∨ bitRow .lsrBi c.lsr.bi i w = some r ∨
      bitRow .lsrTxEmpty c.lsr.txEmpty i w = some r := by
  simp [decodeLsr, @eq_comm _ (some r)]

/-- A bit-tested format with a row decodes to its rows. -/
theorem ofRows_of_mem {rs : List Instr} {r : Instr} (h : r ∈ rs) : Decoded.ofRows rs = .rows rs := by
  cases rs with
  | nil => cases h
  | cons a l => rfl

/-- None of the five non-DMA bits of a masked value is set exactly when it does not meet the known set. -/
theorem known_eq_zero {c : EncIirB} (h : c.wf = true) (w : Nat) :
    (w &&& c.nonDmaMask) &&& c.known = 0 ↔ ∀ m ∈ c.nonDma, w &&& m = 0 := by
  simp only [EncIirB.wf, Bool.and_eq_true, beq_iff_eq, List.all_eq_true] at h
  have hm := h.1.1.1.1.1.2
  have split (w a b : Nat) : w &&& (a ||| b) = 0 ↔ w &&& a = 0 ∧ w &&& b = 0 := by
    rw [Nat.and_or_distrib_left]
    constructor
    · intro h
      constructor <;>
      · apply Nat.eq_of_testBit_eq
        intro i
        have := congrArg (fun x => x.testBit i) h
        simp at *
        grind
    · rintro ⟨h1, h2⟩
      simp [h1, h2]
  rw [h.2]
  simp only [EncIirB.nonDma, List.mem_cons, List.not_mem_nil, or_false, forall_eq_or_imp, forall_eq] at hm ⊢
  obtain ⟨h1, h2, h3, h4, h5⟩ := hm
  simp only [List.foldl_cons, List.foldl_nil, split, masked_bit h1, masked_bit h2, masked_bit h3, masked_bit h4,
    masked_bit h5, and_assoc]
  simp

/-! ### Events -/

/-- The mask of one event decodes to that event alone. -/
theorem decodeEv_one {c : Config} {i : InstId} (hc : c.ev.wf = true) {p : Nat × Instr} (hp : p ∈ evRows c i) :
    decodeEv c i p.1 = [p.2] := by
  have hall : (evRows c i).map (fun q => q.1) = c.ev.all := rfl
  simp only [EncEv.wf, Bool.and_eq_true, decide_eq_true_eq, List.all_eq_true] at hc
  obtain ⟨hnd, hone⟩ := hc
  rw [← hall] at hnd hone
  unfold decodeEv
  suffices h : (evRows c i).filter (fun q => hasBit p.1 q.1) = [p] by rw [h]; rfl
  clear hall
  generalize evRows c i = l at *
  have hpone := hone p.1 (List.mem_map_of_mem hp)
  induction l with
  | nil => cases hp
  | cons a l ih =>
    rw [List.map_cons, List.nodup_cons] at hnd
    rcases List.mem_cons.1 hp with rfl | hp'
    · rw [List.filter_cons, if_pos (hasBit_self hpone)]
      congr 1
      rw [List.filter_eq_nil_iff]
      intro q hq
      have hne : p.1 ≠ q.1 := fun e => hnd.1 (e ▸ List.mem_map_of_mem hq)
      simp [hasBit_of_ne hpone (hone _ (List.mem_map_of_mem (List.mem_cons_of_mem _ hq))) hne]
    · have hne : p.1 ≠ a.1 := fun e => hnd.1 (e ▸ List.mem_map_of_mem hp')
      rw [List.filter_cons, if_neg (by simp [hasBit_of_ne hpone (hone a.1 (by simp)) hne])]
      exact ih hp' hnd.2 fun m hm => hone m (by rw [List.map_cons]; exact List.mem_cons_of_mem _ hm)

/-! ### Command words -/

/-- The bits of a field at its place. -/
theorem cmdField_testBit (v p n k : Nat) :
    (cmdField v p n).testBit k = (decide (p ≤ k) && (decide (k - p < n) && v.testBit (k - p))) := by
  rw [cmdField, Nat.testBit_shiftLeft, clip_testBit]

/-- A field read at its own place. -/
theorem cmdField_self (v p n : Nat) : slice (cmdField v p n) p n = clip n v := by
  apply Nat.eq_of_testBit_eq
  intro k
  rw [slice_testBit, cmdField_testBit, clip_testBit, Nat.add_sub_cancel_left]
  simp

/-- A field read at a place that does not overlap it. -/
theorem cmdField_apart (v : Nat) {p n q m : Nat} (h : p + n ≤ q ∨ q + m ≤ p) : slice (cmdField v p n) q m = 0 := by
  apply Nat.eq_of_testBit_eq
  intro k
  rw [slice_testBit, cmdField_testBit, Nat.zero_testBit]
  grind

/-- The reading of a field distributes over OR. -/
theorem slice_or (x y p n : Nat) : slice (x ||| y) p n = slice x p n ||| slice y p n := by
  apply Nat.eq_of_testBit_eq
  intro k
  simp only [slice_testBit, Nat.testBit_or, Bool.and_or_distrib_left]

/-- What `Config.cmdWf` says of the places. -/
theorem cmdWf_places {c : Config} (h : c.cmdWf = true) :
    (c.cmd.opAt + 3 ≤ c.cmd.instAt ∨ c.cmd.instAt + 5 ≤ c.cmd.opAt) ∧
    (c.cmd.opAt + 3 ≤ c.cmd.arg0At ∨ c.cmd.arg0At + c.addrw ≤ c.cmd.opAt) ∧
    (c.cmd.opAt + 3 ≤ c.cmd.arg1At ∨ c.cmd.arg1At + c.lenw ≤ c.cmd.opAt) ∧
    (c.cmd.instAt + 5 ≤ c.cmd.arg0At ∨ c.cmd.arg0At + c.addrw ≤ c.cmd.instAt) ∧
    (c.cmd.instAt + 5 ≤ c.cmd.arg1At ∨ c.cmd.arg1At + c.lenw ≤ c.cmd.instAt) ∧
    (c.cmd.arg0At + c.addrw ≤ c.cmd.arg1At ∨ c.cmd.arg1At + c.lenw ≤ c.cmd.arg0At) := by
  have hp := of_decide_eq_true (Bool.and_eq_true_iff.1 h).2
  simp only [Config.cmdFields, List.pairwise_cons, List.mem_cons, List.not_mem_nil, or_false, forall_eq_or_imp,
    forall_eq] at hp
  obtain ⟨⟨h5, h6, h7⟩, ⟨h8, h9⟩, h10, -⟩ := hp
  exact ⟨h5, h6, h7, h8, h9, h10⟩

/-- The fields of a command word. -/
theorem cmdWord_fields {c : Config} (h : c.cmdWf = true) (op : BitVec 3) (i : InstId) (a b : Nat) :
    BitVec.ofNat 3 (slice (cmdWord c op i a b) c.cmd.opAt 3) = op ∧ cmdInst c (cmdWord c op i a b) = i ∧
      slice (cmdWord c op i a b) c.cmd.arg0At c.addrw = c.addr a ∧
      slice (cmdWord c op i a b) c.cmd.arg1At c.lenw = c.len b := by
  obtain ⟨h5, h6, h7, h8, h9, h10⟩ := cmdWf_places h
  have ho : clip 3 op.toNat = op.toNat := Nat.mod_eq_of_lt op.isLt
  have hi : clip 5 i.toNat = i.toNat := Nat.mod_eq_of_lt i.isLt
  simp only [cmdWord, cmdInst, slice_or]
  refine ⟨?_, ?_, ?_, ?_⟩
  · rw [cmdField_self, cmdField_apart i.toNat (by omega), cmdField_apart a (by omega), cmdField_apart b (by omega), ho]
    simp
  · rw [cmdField_self, cmdField_apart op.toNat (by omega), cmdField_apart a (by omega), cmdField_apart b (by omega), hi]
    simp
  · rw [cmdField_self, cmdField_apart op.toNat (by omega), cmdField_apart i.toNat (by omega), cmdField_apart b (by omega)]
    simp [Config.addr]
  · rw [cmdField_self, cmdField_apart op.toNat (by omega), cmdField_apart i.toNat (by omega), cmdField_apart a (by omega)]
    simp [Config.len]

/-- The bits that belong to a field. -/
theorem cmdBits_testBit (c : Config) (k : Nat) : c.cmdBits.testBit k = c.cmdFields.any fun f =>
    decide (f.1 ≤ k) && decide (k - f.1 < f.2) := by
  have ones (n j : Nat) : (2 ^ n - 1).testBit j = decide (j < n) := by simp
  simp only [Config.cmdBits, Config.cmdFields, List.foldl_cons, List.foldl_nil, List.any_cons, List.any_nil,
    Nat.testBit_or, Nat.testBit_shiftLeft, ones, Nat.zero_testBit, Bool.false_or, Bool.or_false, Bool.or_assoc]

/-- A command word is made of its fields: put together again they give the bits of the word that belong to a field. -/
theorem cmdWord_of_fields (c : Config) (w : Nat) :
    cmdWord c (BitVec.ofNat 3 (slice w c.cmd.opAt 3)) (cmdInst c w) (slice w c.cmd.arg0At c.addrw)
      (slice w c.cmd.arg1At c.lenw) = w &&& c.cmdBits := by
  have ho : (BitVec.ofNat 3 (slice w c.cmd.opAt 3)).toNat = slice w c.cmd.opAt 3 := Nat.mod_eq_of_lt (clip_lt _ _)
  have hi : (cmdInst c w).toNat = slice w c.cmd.instAt 5 := Nat.mod_eq_of_lt (clip_lt _ _)
  have field (p n k : Nat) : (decide (p ≤ k) && (decide (k - p < n) && (decide (k - p < n) && w.testBit (p + (k - p))))) =
      (w.testBit k && (decide (p ≤ k) && decide (k - p < n))) := by
    by_cases h : p ≤ k
    · rw [Nat.add_sub_cancel' h]
      grind
    · simp [h]
  apply Nat.eq_of_testBit_eq
  intro k
  simp only [cmdWord, Nat.testBit_or, cmdField_testBit, ho, hi, slice_testBit, field, Nat.testBit_and, cmdBits_testBit,
    Config.cmdFields, List.any_cons, List.any_nil, Bool.or_false, Bool.and_or_distrib_left, Bool.or_assoc]

/-- The instance of a command is the one its word names. -/
theorem decodeCmd_inst (c : Config) (w : Nat) : (decodeCmd c w).inst = cmdInst c w := by
  unfold decodeCmd
  dsimp only
  (repeat' split) <;> rfl

/-! ### Responses -/

/-- The status of a code is found again. -/
theorem statusOf_code {e : EncRsp} (h : e.wf = true) (st : Status) : e.statusOf (e.code st) = some st := by
  simp [EncRsp.wf, EncRsp.codes] at h
  cases st <;> simp [EncRsp.statusOf, EncRsp.code] <;> grind

/-- A code with a status is one of the eight. -/
theorem statusOf_eq_none {e : EncRsp} {code : BitVec 4} : e.statusOf code = none ↔ code ∉ e.codes := by
  simp only [EncRsp.statusOf, EncRsp.codes]
  (repeat' split) <;> simp_all

end Sys2Proof
end

