-- ==== Sys2Proof/Laws/State.lean ====
section
/-! SUPPORT. One lemma per field per update of State: what each elementary operation of Machine/Ops.lean leaves of every
field, so that no later proof unfolds a record update. -/

namespace Sys2Proof.Machine

/-! ### `upd`: one instance's record -/

section
variable (s : State) (i j : InstId) (f : Engine → Engine)

@[simp] theorem upd_conf : (s.upd i f).conf = s.conf := rfl
@[simp] theorem upd_mem : (s.upd i f).mem = s.mem := rfl
@[simp] theorem upd_cfgIn : (s.upd i f).cfgIn = s.cfgIn := rfl
@[simp] theorem upd_cmdq : (s.upd i f).cmdq = s.cmdq := rfl
@[simp] theorem upd_agenda : (s.upd i f).agenda = s.agenda := rfl
@[simp] theorem upd_answers : (s.upd i f).answers = s.answers := rfl
@[simp] theorem upd_freeIx : (s.upd i f).freeIx = s.freeIx := rfl
@[simp] theorem upd_trace : (s.upd i f).trace = s.trace := rfl
@[simp] theorem upd_byteAt (a : Nat) : (s.upd i f).byteAt a = s.byteAt a := rfl
@[simp] theorem upd_length : (s.upd i f).engines.length = s.engines.length := by simp [State.upd]

/-- The updated record reads as `f` of the old one. -/
theorem upd_eng_self (h : i.toNat < s.engines.length) : (s.upd i f).eng i = f (s.eng i) := by
  simp [State.upd, State.eng, h]

/-- Every other record is unchanged. -/
theorem upd_eng_ne (h : j ≠ i) : (s.upd i f).eng j = s.eng j := by
  have : i.toNat ≠ j.toNat := fun e => h (BitVec.eq_of_toNat_eq e.symm)
  simp [State.upd, State.eng, this]

/-- Two updates of one record are one. -/
theorem upd_upd (g : Engine → Engine) : (s.upd i f).upd i g = s.upd i (fun x => g (f x)) := by
  simp [State.upd, List.modify_modify_eq, Function.comp_def]

/-- Two updates that agree on the record are one. -/
theorem upd_congr (g : Engine → Engine) (h : f (s.eng i) = g (s.eng i)) : s.upd i f = s.upd i g := by
  have : s.engines.modify i.toNat f = s.engines.modify i.toNat g := by
    apply List.ext_getElem?
    intro n
    by_cases hn : i.toNat = n
    · subst hn
      cases hx : s.engines[i.toNat]? <;> simp_all [State.eng]
    · simp [hn]
  simp [State.upd, this]

/-- An update that leaves the record as it is leaves the state as it is. -/
theorem upd_id (h : f (s.eng i) = s.eng i) : s.upd i f = s := by
  rw [upd_congr s i f id h]
  simp [State.upd, List.modify_id]

end

/-! ### `emit`: the trace -/

section
variable (s : State) (a : Act) (j : InstId)

@[simp] theorem emit_conf : (s.emit a).conf = s.conf := rfl
@[simp] theorem emit_engines : (s.emit a).engines = s.engines := rfl
@[simp] theorem emit_mem : (s.emit a).mem = s.mem := rfl
@[simp] theorem emit_cfgIn : (s.emit a).cfgIn = s.cfgIn := rfl
@[simp] theorem emit_cmdq : (s.emit a).cmdq = s.cmdq := rfl
@[simp] theorem emit_agenda : (s.emit a).agenda = s.agenda := rfl
@[simp] theorem emit_answers : (s.emit a).answers = s.answers := rfl
@[simp] theorem emit_freeIx : (s.emit a).freeIx = s.freeIx := rfl
@[simp] theorem emit_trace : (s.emit a).trace = s.trace ++ [a] := rfl
@[simp] theorem emit_eng : (s.emit a).eng j = s.eng j := rfl
@[simp] theorem emit_byteAt (b : Nat) : (s.emit a).byteAt b = s.byteAt b := rfl

end

/-! ### `putByte`: memory -/

section
variable (s : State) (a : Nat) (b : Byte) (j : InstId)

@[simp] theorem putByte_conf : (s.putByte a b).conf = s.conf := rfl
@[simp] theorem putByte_engines : (s.putByte a b).engines = s.engines := rfl
@[simp] theorem putByte_cfgIn : (s.putByte a b).cfgIn = s.cfgIn := rfl
@[simp] theorem putByte_cmdq : (s.putByte a b).cmdq = s.cmdq := rfl
@[simp] theorem putByte_agenda : (s.putByte a b).agenda = s.agenda := rfl
@[simp] theorem putByte_answers : (s.putByte a b).answers = s.answers := rfl
@[simp] theorem putByte_freeIx : (s.putByte a b).freeIx = s.freeIx := rfl
@[simp] theorem putByte_trace : (s.putByte a b).trace = s.trace := rfl
@[simp] theorem putByte_eng : (s.putByte a b).eng j = s.eng j := rfl

end

/-! ### `restart`: process start or power loss -/

section
variable (s : State) (a : Nat) (i : InstId)

@[simp] theorem restart_conf : (restart s).conf = s.conf := rfl
@[simp] theorem restart_engines : (restart s).engines = List.replicate s.conf.nInst Engine.reset := rfl
@[simp] theorem restart_mem : (restart s).mem = s.mem := rfl
@[simp] theorem restart_cfgIn : (restart s).cfgIn = Cfg.reset := rfl
@[simp] theorem restart_cmdq : (restart s).cmdq = [] := rfl
@[simp] theorem restart_agenda : (restart s).agenda = s.agenda := rfl
@[simp] theorem restart_answers : (restart s).answers = s.answers := rfl
@[simp] theorem restart_freeIx : (restart s).freeIx = s.freeIx := rfl
@[simp] theorem restart_trace : (restart s).trace = s.trace := rfl
@[simp] theorem restart_byteAt : (restart s).byteAt a = s.byteAt a := rfl

/-- Every record is that of reset. -/
@[simp] theorem restart_eng : (restart s).eng i = Engine.reset := by
  simp only [State.eng, restart_engines, List.getElem?_replicate]
  split <;> rfl

end

/-! ### Plain record updates, and `setPhase` -/

section
variable (s : State) (j : InstId)

/-- `setPhase` is an update of one record. -/
@[simp] theorem setPhase_eq (p : Phase) : s.setPhase j p = s.upd j (fun x => { x with phase := p }) := rfl

@[simp] theorem withAgenda_eng (l : List Turn) : { s with agenda := l }.eng j = s.eng j := rfl
@[simp] theorem withAnswers_eng (l : List Answer) : { s with answers := l }.eng j = s.eng j := rfl
@[simp] theorem withCfgIn_eng (c : Cfg) : { s with cfgIn := c }.eng j = s.eng j := rfl
@[simp] theorem withCmdq_eng (q : List (Nat × Cfg)) : { s with cmdq := q }.eng j = s.eng j := rfl

end

end Sys2Proof.Machine
end

