-- ==== Sys2Proof/Laws/Memory.lean ====
section
/-! SUPPORT. The laws of buffer memory: a read after a write, and that every write keeps the canonical form. -/

namespace Sys2Proof.Machine

/-- An address below every entry reads as blank. -/
theorem Memory.get_of_below (m : Memory) (a : Nat) (h : ∀ p ∈ m, a < p.1) : Memory.get m a = Memory.blank := by
  induction m with
  | nil => rfl
  | cons p rest ih =>
    have hp := h p (by simp)
    have : p.1 ≠ a := by omega
    simp only [Memory.get, this, if_false]
    exact ih fun q hq => h q (by simp [hq])

/-- Where an entry of `put` comes from. -/
theorem Memory.mem_put (m : Memory) (a : Nat) (b : Byte) (p : Nat × BitVec 8) (h : p ∈ Memory.put m a b) :
    p ∈ m ∨ (p = (a, b) ∧ b ≠ Memory.blank) := by
  induction m with
  | nil =>
    simp only [Memory.put] at h
    split at h <;> simp_all
  | cons q rest ih =>
    simp only [Memory.put] at h
    split at h
    · split at h <;> simp_all
      tauto
    · split at h
      · split at h <;> simp_all
        tauto
      · rcases List.mem_cons.1 h with rfl | h
        · exact .inl (by simp)
        · rcases ih h with h | h
          · exact .inl (by simp [h])
          · exact .inr h

/-- Every write keeps the canonical form. -/
theorem Memory.put_wf (m : Memory) (a : Nat) (b : Byte) (hm : Memory.wf m) :
    Memory.wf (Memory.put m a b) := by
  refine ⟨?_, fun p hp => ?_⟩
  · obtain ⟨hs, -⟩ := hm
    induction m with
    | nil =>
      simp only [Memory.put]
      split <;> simp
    | cons q rest ih =>
      obtain ⟨hq, hr⟩ := List.pairwise_cons.1 hs
      simp only [Memory.put]
      split
      · next hlt =>
        split
        · exact hs
        · refine List.pairwise_cons.2 ⟨fun p hp => ?_, hs⟩
          rcases List.mem_cons.1 hp with rfl | hp
          · exact hlt
          · exact Nat.lt_trans hlt (hq p hp)
      · split
        · next hle heq =>
          split
          · exact hr
          · exact List.pairwise_cons.2 ⟨fun p hp => heq ▸ hq p hp, hr⟩
        · next hle hne =>
          refine List.pairwise_cons.2 ⟨fun p hp => ?_, ih hr⟩
          rcases Memory.mem_put _ _ _ _ hp with hp | ⟨rfl, -⟩
          · exact hq p hp
          · show q.1 < a
            omega
  · rcases Memory.mem_put _ _ _ _ hp with hp | ⟨rfl, hb⟩
    · exact hm.2 p hp
    · exact hb

/-- A read after a write. -/
theorem Memory.get_put (m : Memory) (a c : Nat) (b : Byte) (hm : m.Pairwise (fun p q => p.1 < q.1)) :
    Memory.get (Memory.put m a b) c = if c = a then b else Memory.get m c := by
  induction m with
  | nil =>
    simp only [Memory.put]
    split <;> simp_all [Memory.get, eq_comm]
  | cons q rest ih =>
    obtain ⟨hq, hr⟩ := List.pairwise_cons.1 hm
    simp only [Memory.put]
    split
    · next hlt =>
      split
      · next hb =>
        split
        · next hc =>
          subst hc
          rw [hb]
          exact Memory.get_of_below _ _ fun p hp => by
            rcases List.mem_cons.1 hp with rfl | hp
            · exact hlt
            · exact Nat.lt_trans hlt (hq p hp)
        · rfl
      · simp [Memory.get, eq_comm]
    · split
      · next hle heq =>
        subst heq
        split
        · next hb =>
          split
          · next hc =>
            subst hc
            rw [hb]
            exact Memory.get_of_below _ _ hq
          · next hc =>
            have : q.1 ≠ c := fun e => hc e.symm
            simp [Memory.get, this]
        · by_cases hc : c = q.1
          · simp [Memory.get, hc]
          · have : q.1 ≠ c := fun e => hc e.symm
            simp [Memory.get, hc, this]
      · next hle hne =>
        simp only [Memory.get]
        by_cases hc : q.1 = c
        · have : c ≠ a := by omega
          simp [hc, this]
        · simp [hc, ih hr]

/-- The laws of `putByte`. -/
theorem putByte_wf (s : State) (a : Nat) (b : Byte) (h : Memory.wf s.mem) : Memory.wf (s.putByte a b).mem :=
  Memory.put_wf _ _ _ h

/-- See `putByte_wf`. -/
theorem putByte_byteAt (s : State) (a c : Nat) (b : Byte) (h : Memory.wf s.mem) :
    (s.putByte a b).byteAt c = if c = a then b else s.byteAt c := by
  show Memory.get (Memory.put s.mem a b) c = _
  rw [Memory.get_put _ _ _ _ h.1]
  rfl

/-- Memory at reset is canonical. -/
theorem reset_memory_wf : Memory.wf State.reset.mem := ⟨List.Pairwise.nil, by simp [State.reset, State.resetWith]⟩

end Sys2Proof.Machine
end

