-- ==== Sys2Proof/Laws/Ops.lean ====
section
/-! SUPPORT. What each shared operation can do, said once: a register read and a register write, the sinks, the event
operations, and that every handler stays inside its instance. Later proofs cite these lemmas and do not unfold the
operations. -/

namespace Sys2Proof.Machine

/-! ### `nextAnswer`, `regRead` -/

section
variable (s : State) (i j : InstId) (r : Reg)

/-- An answer changes what is left of the answers only. -/
theorem nextAnswer_frame : (nextAnswer i r s).2 =
    { s with answers := (nextAnswer i r s).2.answers, freeIx := (nextAnswer i r s).2.freeIx } := by
  unfold nextAnswer; split <;> rfl

/-- The answer and what is left of the answers depend on the answers only. -/
theorem nextAnswer_congr {s t : State} (ha : s.answers = t.answers) (hf : s.freeIx = t.freeIx) :
    (nextAnswer i r s).1 = (nextAnswer i r t).1 ∧ (nextAnswer i r s).2.answers = (nextAnswer i r t).2.answers ∧
      (nextAnswer i r s).2.freeIx = (nextAnswer i r t).2.freeIx := by
  unfold nextAnswer
  rw [ha, hf]
  split <;> exact ⟨rfl, rfl, rfl⟩

/-- A read is an answer, of which `REGW` bits are taken, and one action. -/
theorem regRead_eq : regRead i r s = (s.conf.reg (nextAnswer i r s).1,
    { s with answers := (nextAnswer i r s).2.answers, freeIx := (nextAnswer i r s).2.freeIx,
             trace := s.trace ++ [.regRead i r (s.conf.reg (nextAnswer i r s).1)] }) := by
  have h : ∀ p : Nat × State, p = nextAnswer i r s → p.2 = { s with answers := p.2.answers, freeIx := p.2.freeIx } :=
    fun p hp => hp ▸ nextAnswer_frame s i r
  unfold regRead
  generalize nextAnswer i r s = p at h
  obtain ⟨a, t⟩ := p
  have := h _ rfl
  dsimp only at this ⊢
  rw [this]
  rfl

@[simp] theorem regRead_conf : (regRead i r s).2.conf = s.conf := by rw [regRead_eq]
@[simp] theorem regRead_engines : (regRead i r s).2.engines = s.engines := by rw [regRead_eq]
@[simp] theorem regRead_mem : (regRead i r s).2.mem = s.mem := by rw [regRead_eq]
@[simp] theorem regRead_cfgIn : (regRead i r s).2.cfgIn = s.cfgIn := by rw [regRead_eq]
@[simp] theorem regRead_cmdq : (regRead i r s).2.cmdq = s.cmdq := by rw [regRead_eq]
@[simp] theorem regRead_agenda : (regRead i r s).2.agenda = s.agenda := by rw [regRead_eq]

@[simp] theorem regRead_eng : (regRead i r s).2.eng j = s.eng j := by rw [regRead_eq]; rfl
@[simp] theorem regRead_byteAt (a : Nat) : (regRead i r s).2.byteAt a = s.byteAt a := by rw [regRead_eq]; rfl

/-- The one action of a read is the read, with the value it answered. -/
@[simp] theorem regRead_trace : (regRead i r s).2.trace = s.trace ++ [.regRead i r (regRead i r s).1] := by
  rw [regRead_eq]

/-- A read answers `REGW` bits. -/
@[simp] theorem regRead_width : s.conf.reg (regRead i r s).1 = (regRead i r s).1 := by
  rw [regRead_eq, reg_reg]

/-- The value read and what is left of the answers depend on the parameters and the answers only. -/
theorem regRead_congr {s t : State} (hc : s.conf = t.conf) (ha : s.answers = t.answers) (hf : s.freeIx = t.freeIx) :
    (regRead i r s).1 = (regRead i r t).1 ∧ (regRead i r s).2.answers = (regRead i r t).2.answers ∧
      (regRead i r s).2.freeIx = (regRead i r t).2.freeIx := by
  obtain ⟨h1, h2, h3⟩ := nextAnswer_congr i r ha hf
  simp only [regRead_eq, hc, h1, h2, h3, true_and]

/-- A read whose answer heads the script. -/
theorem regRead_of_head {s : State} {a : Nat} {as : List Answer} (h : s.answers = ⟨i, r, a⟩ :: as) :
    regRead i r s =
      (s.conf.reg a, { s with answers := as, trace := s.trace ++ [.regRead i r (s.conf.reg a)] }) := by
  simp [regRead, nextAnswer, h, takeAnswer, State.emit]

/-- The trace before a read does not matter to it. -/
@[simp] theorem regRead_emit_value (a : Act) : (regRead i r (s.emit a)).1 = (regRead i r s).1 :=
  (regRead_congr (s := s.emit a) (t := s) i r rfl rfl rfl).1

/-- See `regRead_emit_value`. -/
@[simp] theorem regRead_emit_answers (a : Act) : (regRead i r (s.emit a)).2.answers = (regRead i r s).2.answers :=
  (regRead_congr (s := s.emit a) (t := s) i r rfl rfl rfl).2.1

/-- See `regRead_emit_value`. -/
@[simp] theorem regRead_emit_freeIx (a : Act) : (regRead i r (s.emit a)).2.freeIx = (regRead i r s).2.freeIx :=
  (regRead_congr (s := s.emit a) (t := s) i r rfl rfl rfl).2.2

/-- What the outside world does next does not matter to a read. -/
theorem regRead_withAgenda (l : List Turn) :
    regRead i r { s with agenda := l } = ((regRead i r s).1, { (regRead i r s).2 with agenda := l }) := by
  obtain ⟨h1, h2, h3⟩ := nextAnswer_congr (s := { s with agenda := l }) (t := s) i r rfl rfl
  simp only [regRead_eq, h1, h2, h3]

/-- A read commutes with an update of a record. -/
theorem regRead_upd (f : Engine → Engine) :
    regRead i r (s.upd j f) = ((regRead i r s).1, (regRead i r s).2.upd j f) := by
  obtain ⟨h1, h2, h3⟩ := nextAnswer_congr (s := s.upd j f) (t := s) i r rfl rfl
  simp only [regRead_eq, h1, h2, h3]
  rfl

end

/-! ### `regWrite`, sinks -/

section
variable (s : State) (i : InstId)

/-- A register write is one action and an update of the write side of its instance, both of `REGW` bits of the value. -/
theorem regWrite_eq (r : Reg) (v : Nat) :
    regWrite i r v s =
      (s.upd i fun x => { x with uart := x.uart.write r (s.conf.reg v) }).emit (.regWrite i r (s.conf.reg v)) := rfl

/-- A register write changes no parameter. -/
@[simp] theorem regWrite_conf (r : Reg) (v : Nat) : (regWrite i r v s).conf = s.conf := rfl

/-- An action and an update commute. -/
theorem upd_emit (f : Engine → Engine) (a : Act) : (s.upd i f).emit a = (s.emit a).upd i f := rfl

/-- A call of the byte sink is one action. -/
theorem byteSink_eq (b : Byte) : byteSink i b s = s.emit (.byteSink i b) := rfl

/-- A call of the event sink is one action. -/
theorem eventSink_eq (m : Nat) : eventSink i m s = s.emit (.eventSink i m) := rfl

/-- The remaining length is one register read and an update of the working register. -/
theorem readLeft_eq : readLeft i s = (s.conf.len (regRead i .DMA_RX_LEFT s).1,
    (regRead i .DMA_RX_LEFT s).2.upd i fun x => { x with left := s.conf.len (regRead i .DMA_RX_LEFT s).1 }) := by
  simp [readLeft]

/-- A received byte is the low eight bits of one register read. -/
theorem readRbr_eq : readRbr i s = (BitVec.ofNat 8 (regRead i .RBR s).1,
    (regRead i .RBR s).2.upd i fun x => { x with b := BitVec.ofNat 8 (regRead i .RBR s).1 }) := rfl

/-- A line status is one register read. -/
theorem readLsr_eq : readLsr i s = ((regRead i .LSR s).1,
    (regRead i .LSR s).2.upd i fun x => { x with l := (regRead i .LSR s).1 }) := rfl

/-- The four tests of `H_LINE` enter the events of the errors present, in one update. -/
theorem lineErrorEvents_eq (l : Nat) :
    lineErrorEvents i l s = s.upd i fun x => { x with ev := x.ev ||| lineErrors s.conf l } := by
  simp only [lineErrorEvents, setErrOverrun, setErrParity, setErrFraming, setErrBreak, orEv, lineErrors]
  (repeat' split) <;> simp [upd_upd, Nat.or_assoc]
  exact (upd_id s i _ rfl).symm

/-- The low-water test enters its event or none. -/
theorem lowWaterEvent_eq (left : Nat) :
    lowWaterEvent i left s = s.upd i fun x =>
      { x with ev := x.ev ||| if left < s.conf.lowWater then s.conf.ev.rxBufferLow else 0 } := by
  simp only [lowWaterEvent, setRxBufferLow, orEv]
  split
  · rfl
  · exact (upd_id s i _ (by simp)).symm

end

/-! ### `withinSpace` -/

section
variable {s : State} {buffer length : Nat} {own : State → Result}

/-- A buffer inside the address space leaves the command to its own rule. -/
theorem withinSpace_of_fits (h : fits s.conf buffer length) : withinSpace buffer length own s = own s := if_pos h

/-- A buffer past the top is refused. -/
theorem withinSpace_of_past (h : ¬ fits s.conf buffer length) :
    withinSpace buffer length own s = .refused .bufferPastTop := if_neg h

/-- What `withinSpace` answers. -/
theorem withinSpace_next {t : State} (h : withinSpace buffer length own s = .next t) :
    fits s.conf buffer length ∧ own s = .next t := by
  unfold withinSpace at h
  split at h
  · next hf => exact ⟨hf, h⟩
  · cases h

end

/-! ### `scanEnd`, `drainTurn` -/

section
variable {c : Config} {x : Engine}

/-- The scan ends inside the buffer. -/
theorem scanEnd_le : scanEnd c x ≤ x.cfg.rxDmaBuffLength := clip_le _ _

/-- The scan ends at the buffer's length where the cursor is as wide as a length. -/
theorem scanEnd_eq (hw : c.lenw ≤ c.curw) (h : c.len x.cfg.rxDmaBuffLength = x.cfg.rxDmaBuffLength) :
    scanEnd c x = x.cfg.rxDmaBuffLength := clip_of_narrower _ hw h

/-- `cursor + 1` never wraps (spec/42_dma_cursor.md R166). -/
theorem cur_succ {k : Nat} (h : k < scanEnd c x) : c.cur (k + 1) = k + 1 :=
  (clip_eq_self _ _).2 (Nat.lt_of_le_of_lt h (clip_lt _ _))

end

section
variable {s : State} {i : InstId}

/-- A byte that is inside the buffer and not zero is read, delivered and passed. -/
theorem drainTurn_deliver (h : (s.eng i).cursor < scanEnd s.conf (s.eng i))
    (hb : s.byteAt (bufByte s.conf (s.eng i).cfg.rxDmaBuffer (s.eng i).cursor) ≠ 0) :
    let a := bufByte s.conf (s.eng i).cfg.rxDmaBuffer (s.eng i).cursor
    drainTurn i s = (true, ((s.emit (.memRead i a (s.byteAt a))).emit (.byteSink i (s.byteAt a))).upd i
      fun x => { x with b := s.byteAt a, cursor := x.cursor + 1 }) := by
  simp only [drainTurn, memRead, h, hb, if_true, if_false, byteSink_eq]
  show (true, ((State.upd _ i _).emit _).upd i _) = _
  rw [upd_emit, upd_upd]
  refine congrArg _ (upd_congr _ _ _ _ ?_)
  simp [cur_succ h]

/-- A zero byte inside the buffer is read and ends the scan. -/
theorem drainTurn_zero (h : (s.eng i).cursor < scanEnd s.conf (s.eng i))
    (hb : s.byteAt (bufByte s.conf (s.eng i).cfg.rxDmaBuffer (s.eng i).cursor) = 0) :
    drainTurn i s = (false, (s.emit (.memRead i (bufByte s.conf (s.eng i).cfg.rxDmaBuffer (s.eng i).cursor) 0)).upd i
      fun x => { x with b := 0 }) := by
  simp [drainTurn, memRead, h, hb]

/-- At the end of the scan nothing is read. -/
theorem drainTurn_end (h : ¬ (s.eng i).cursor < scanEnd s.conf (s.eng i)) :
    drainTurn i s = (false, s) := by
  simp [drainTurn, h]

end

/-! ### `fillTurn` -/

/-- Inside the buffer one zero byte is written. -/
theorem fillTurn_write {s : State} {i : InstId} {k : Nat} (h : k < (s.eng i).cfg.rxDmaBuffLength) :
    fillTurn i k s = (true, (memWrite i (bufByte s.conf (s.eng i).cfg.rxDmaBuffer k) 0 s).upd i
      fun x => { x with phase := .kExecFill (k + 1) }) := by
  simp [fillTurn, h]

/-- At the buffer's length nothing is written. -/
theorem fillTurn_end {s : State} {i : InstId} {k : Nat} (h : ¬ k < (s.eng i).cfg.rxDmaBuffLength) :
    fillTurn i k s = (false, s) := by
  simp [fillTurn, h]

/-! ### `live`: that an instance has its record -/

section
variable {s : State} {i : InstId}

/-- An update of a live record reads as the function of the old one. -/
theorem live_eng (h : s.live i) (f : Engine → Engine) : (s.upd i f).eng i = f (s.eng i) :=
  upd_eng_self _ _ _ (h.2 ▸ h.1)

@[simp] theorem live_upd (j : InstId) (f : Engine → Engine) : (s.upd j f).live i ↔ s.live i := by simp [State.live]
@[simp] theorem live_emit (a : Act) : (s.emit a).live i ↔ s.live i := Iff.rfl
@[simp] theorem live_putByte (a : Nat) (b : Byte) : (s.putByte a b).live i ↔ s.live i := Iff.rfl
@[simp] theorem live_read (j : InstId) (r : Reg) : (regRead j r s).2.live i ↔ s.live i := by simp [State.live]

end

/-! ### Every operation stays inside its instance -/

theorem OnlyEngine.refl (i : InstId) (s : State) : OnlyEngine i s s :=
  ⟨rfl, rfl, fun _ _ => rfl, fun _ => rfl, rfl, rfl, rfl⟩

theorem OnlyEngine.trans {i : InstId} {s t u : State} (h : OnlyEngine i s t) (g : OnlyEngine i t u) :
    OnlyEngine i s u :=
  ⟨g.conf.trans h.conf, g.size.trans h.size, fun j hj => (g.others j hj).trans (h.others j hj),
   fun a => (g.bytes a).trans (h.bytes a), g.cfgIn.trans h.cfgIn, g.cmdq.trans h.cmdq, g.agenda.trans h.agenda⟩

section
variable {i : InstId} {s t : State}

theorem OnlyEngine.upd (h : OnlyEngine i s t) (f : Engine → Engine) : OnlyEngine i s (t.upd i f) :=
  h.trans ⟨rfl, by simp, fun _ hj => upd_eng_ne _ _ _ _ hj, fun _ => rfl, rfl, rfl, rfl⟩

theorem OnlyEngine.emit (h : OnlyEngine i s t) (a : Act) : OnlyEngine i s (t.emit a) :=
  h.trans ⟨rfl, rfl, fun _ _ => rfl, fun _ => rfl, rfl, rfl, rfl⟩

theorem OnlyEngine.read (h : OnlyEngine i s t) (r : Reg) : OnlyEngine i s (regRead i r t).2 :=
  h.trans ⟨by simp, by simp, by simp, by simp, by simp, by simp, by simp⟩

theorem OnlyEngine.write (h : OnlyEngine i s t) (r : Reg) (v : Nat) : OnlyEngine i s (regWrite i r v t) :=
  (h.upd _).emit _

theorem OnlyEngine.hRxData (h : OnlyEngine i s t) (p : Phase) : OnlyEngine i s (hRxData i p t) := by
  unfold Machine.hRxData
  split
  · exact ((((h.read .RBR).upd _).emit _).upd _)
  · exact (h.upd _).upd _

theorem OnlyEngine.hThre (h : OnlyEngine i s t) (p : Phase) : OnlyEngine i s (hThre i p t) := (h.upd _).upd _

theorem OnlyEngine.hLine (h : OnlyEngine i s t) (v : Variant) (p : Phase) : OnlyEngine i s (hLine v i p t) := by
  simp only [Machine.hLine, readLsr_eq, lineErrorEvents_eq]
  cases v
  · exact ((((h.read .LSR).upd _).upd _).upd _)
  · exact (((((h.read .LSR).upd _).upd _).write _ _).upd _)

theorem OnlyEngine.hTimeout (h : OnlyEngine i s t) (p : Phase) : OnlyEngine i s (hTimeout i p t) := by
  unfold Machine.hTimeout
  split
  · exact h.upd _
  · exact (h.upd _).upd _

theorem OnlyEngine.hModem (h : OnlyEngine i s t) (p : Phase) : OnlyEngine i s (hModem i p t) := (h.upd _).upd _

theorem OnlyEngine.receiveByte (h : OnlyEngine i s t) : OnlyEngine i s (receiveByte i t) :=
  ((((h.read .RBR).upd _).emit _).upd _)

theorem OnlyEngine.dmaTxDone (h : OnlyEngine i s t) (r : Reg) (v : Nat) : OnlyEngine i s (dmaTxDone i r v t) := by
  simp only [Machine.dmaTxDone]
  split
  · exact ((((h.write _ _).write _ _).upd _).upd _)
  · exact h.upd _

theorem OnlyEngine.dmaRxDone (h : OnlyEngine i s t) (r : Reg) (v : Nat) : OnlyEngine i s (dmaRxDone i r v t) := by
  simp only [Machine.dmaRxDone, readLeft_eq, lowWaterEvent_eq]
  have := (((h.write r v).read .DMA_RX_LEFT).upd fun x => { x with left := (regWrite i r v t).conf.len (regRead i .DMA_RX_LEFT (regWrite i r v t)).1 })
  split
  · split_ifs
    · exact (this.upd _).upd _
    · exact ((this.upd _).upd _).upd _
    · exact (this.upd _).upd _
    · exact ((this.upd _).upd _).upd _
  · exact h.upd _

theorem OnlyEngine.unexpectedIfNone (h : OnlyEngine i s t) : OnlyEngine i s (unexpectedIfNone i t) := by
  unfold Machine.unexpectedIfNone
  split
  · exact h.upd _
  · exact h

theorem OnlyEngine.enterActivation (h : OnlyEngine i s t) : OnlyEngine i s (enterActivation i t) := by
  simp only [Machine.enterActivation]
  split
  · exact (h.upd _).upd _
  · exact ((h.upd _).read _).upd _

theorem OnlyEngine.leaveActivation (h : OnlyEngine i s t) : OnlyEngine i s (leaveActivation i t) := by
  simp only [Machine.leaveActivation]
  split
  · exact (h.emit _).upd _
  · exact h.upd _

theorem OnlyEngine.respond (h : OnlyEngine i s t) (st : Status) (v : Nat) : OnlyEngine i s (respond i st v t) :=
  (h.upd _).emit _

theorem OnlyEngine.swapCommit (h : OnlyEngine i s t) (a : Nat) (n : Nat) : OnlyEngine i s (swapCommit i a n t) :=
  ((((h.write _ _).write _ _).write _ _).write _ _).upd _

theorem OnlyEngine.drainTurn (h : OnlyEngine i s t) : OnlyEngine i s (drainTurn i t).2 := by
  by_cases hc : (t.eng i).cursor < scanEnd t.conf (t.eng i)
  · by_cases hb : t.byteAt (bufByte t.conf (t.eng i).cfg.rxDmaBuffer (t.eng i).cursor) = 0
    · rw [drainTurn_zero hc hb]
      exact (h.emit _).upd _
    · rw [drainTurn_deliver hc hb]
      exact ((h.emit _).emit _).upd _
  · rw [drainTurn_end hc]
    exact h

end

/-- For an instance that does not exist only the response is made. -/
theorem respond_of_absent {i : InstId} {s : State} (hl : s.engines.length = s.conf.nInst) (h : ¬ s.has i) (st : Status)
    (v : Nat) : respond i st v s = { s with trace := s.trace ++ [.ret i st v] } := by
  have : s.engines.length ≤ i.toNat := hl ▸ Nat.le_of_not_lt h
  simp [respond, State.setPhase, State.upd, State.emit, List.modify_eq_self this]

/-- A next state of `onInst`: the instance exists and the row has had its effect. -/
theorem onInst_next {i : InstId} {f : State → State} {s t : State} (h : onInst i f s = .next t) : s.has i ∧ t = f s := by
  unfold onInst at h
  split at h
  · next hi => exact ⟨hi, by injection h with h; exact h.symm⟩
  · cases h

/-- It refuses by name where the instance does not exist. -/
theorem onInst_of_absent {i : InstId} {f : State → State} {s : State} (h : ¬ s.has i) :
    onInst i f s = .refused .noSuchInstance := if_neg h

/-- On an instance that exists the row has its effect. -/
theorem onInst_of_has {i : InstId} {f : State → State} {s : State} (h : s.has i) : onInst i f s = .next (f s) := if_pos h

end Sys2Proof.Machine
end

