-- ==== Sys2Proof/Laws/Sequencer.lean ====
section
/-! SUPPORT. What a step does, by turn: the row and the state of each kind of turn, so that no proof unfolds the step. -/

namespace Sys2Proof.Machine

variable {s t : State} {i : InstId} {rest : List Turn} {r : Instr} {w : Nat} {c : Cfg} {q : List (Nat × Cfg)}

/-- A step that has a row executes it. -/
theorem step_some (h : nextInstr s = (some r, t)) : step s = exec r t := by simp only [step, h]

/-- A step without a row ends in its own state. -/
theorem step_none (h : nextInstr s = (none, t)) : step s = .next t := by simp only [step, h]

/-- The turn of an interrupt entry. -/
theorem nextInstr_irq (h : s.agenda = .irq i :: rest) : nextInstr s = (some (.irq i), { s with agenda := rest }) := by
  simp only [nextInstr, h]

/-- The turn of a command. -/
theorem nextInstr_cmd (h : s.agenda = .cmd w c :: rest) :
    nextInstr s = hostTurn { s with agenda := rest, cmdq := s.cmdq ++ [(w, c)] } := by
  simp only [nextInstr, h]

/-- The turn of port `cmd`. -/
theorem nextInstr_host (h : s.agenda = .host :: rest) : nextInstr s = hostTurn { s with agenda := rest } := by
  simp only [nextInstr, h]

/-- The turn of an engine. -/
theorem nextInstr_run (h : s.agenda = .run i :: rest) : nextInstr s = engineTurn i { s with agenda := rest } := by
  simp only [nextInstr, h]

/-- The turn of a restart. -/
theorem nextInstr_reset (h : s.agenda = .reset :: rest) : nextInstr s = (none, restart { s with agenda := rest }) := by
  simp only [nextInstr, h]

/-- The turn of a DMA store. -/
theorem nextInstr_dmaStore {a : Nat} {b : Byte} (h : s.agenda = .dmaStore a b :: rest) :
    nextInstr s = (none, { s with agenda := rest }.putByte (s.conf.addr a) b) := by
  simp only [nextInstr, h]

/-- A busy engine goes on with its sequence. -/
theorem engineTurn_busy (h : s.has i) (hb : s.busy i) : engineTurn i s = seqEngine i s := by
  rw [engineTurn, if_neg (not_not_intro h), if_pos hb]

/-- An idle engine starts an activation for an entry it holds. -/
theorem engineTurn_holds (h : s.has i) (hp : (s.eng i).phase = .idle) (hn : (s.eng i).heldIrq ≠ 0) :
    engineTurn i s = (some (.irq i), s.upd i fun x => { x with heldIrq := x.heldIrq - 1 }) := by
  rw [engineTurn, if_neg (not_not_intro h), if_neg (not_not_intro hp), if_neg hn]

/-- Port `cmd` takes its oldest command if its engine is idle or does not exist. -/
theorem hostTurn_take (hq : s.cmdq = (w, c) :: q)
    (h : ¬ (s.has (decodeCmd s.conf w).inst ∧ s.busy (decodeCmd s.conf w).inst)) :
    hostTurn s = (some (decodeCmd s.conf w), { s with cmdq := q, cfgIn := c }) := by
  simp only [hostTurn, hq]
  exact if_neg h

/-- Port `cmd` waits for a busy engine. -/
theorem hostTurn_wait (hq : s.cmdq = (w, c) :: q)
    (h : s.has (decodeCmd s.conf w).inst ∧ s.busy (decodeCmd s.conf w).inst) : hostTurn s = (none, s) := by
  simp only [hostTurn, hq]
  exact if_pos h

/-- Port `cmd` with no command has nothing to do. -/
theorem hostTurn_empty (hq : s.cmdq = []) : hostTurn s = (none, s) := by simp only [hostTurn, hq]

/-- A number that names an instance names one that exists. -/
theorem has_of_mem_ids {j : InstId} (h : j ∈ s.ids) : s.has j := by
  simp only [State.ids, List.mem_map, List.mem_range] at h
  obtain ⟨k, hk, rfl⟩ := h
  simp only [State.has, BitVec.toNat_ofNat]
  omega

/-- With no engine busy and no entry held, port `cmd` has the turn that the outside world leaves open. -/
theorem autoTurn_host (h : ∀ j, s.has j → ¬ s.busy j ∧ (s.eng j).heldIrq = 0) : autoTurn s = hostTurn s := by
  have h1 : s.ids.find? (fun j => s.busy j) = none := by
    rw [List.find?_eq_none]
    intro j hj
    simpa using (h j (has_of_mem_ids hj)).1
  have h2 : s.ids.find? (fun j => s.holds j) = none := by
    rw [List.find?_eq_none]
    intro j hj
    simp [(h j (has_of_mem_ids hj)).2]
  simp only [autoTurn, h1, h2]

end Sys2Proof.Machine
end

