-- ==== Sys2Proof/Tests/Slice0.lean ====
section
/-! SUPPORT. Tests: the well-formedness checks refuse ill-formed terms, every row decodes from a word written out from
spec/30_encoding.md, single steps give what spec/95_test_vectors.md says, and every statement with hypotheses has a concrete
state that meets them. Every expected value is taken from spec/. -/

namespace Sys2Proof.Tests

open Sys2Proof Sys2Proof.Machine

/-- The two default parameter records. -/
abbrev cA : Config := Config.default .A

/-- See `cA`. -/
abbrev cB : Config := Config.default .B

/-- A block whose instance 0 has the record `x`. -/
def withEngine (c : Config) (x : Engine) : State := { State.resetWith c with engines := [x, Engine.reset, Engine.reset] }

/-- `K_plain` of spec/95_test_vectors.md: an event callback and nothing else. -/
def kPlain : Cfg := { Cfg.reset with evCb := some 1 }

/-- `K_cb`: event and receive callbacks. -/
def kCb : Cfg := { Cfg.reset with evCb := some 1, rxCb := some 2 }

/-- `K_dma`: both directions of DMA and an event callback. -/
def kDma : Cfg :=
  { Cfg.reset with txDmaEn := true, rxDmaEn := true, evCb := some 1, rxDmaBuffer := 0x20000000, rxDmaBuffLength := 64 }

/-- `K_dmacb`: the same with a receive callback. -/
def kDmaCb : Cfg := { kDma with rxCb := some 2 }

/-- `K_rx` with a receive callback and a buffer of 16 bytes, as in the vectors of the drain. -/
def kDrain16 : Cfg := { kDma with txDmaEn := false, rxCb := some 2, rxDmaBuffLength := 16 }

/-- An initialized and powered instance with configuration `k`, in phase `p`. -/
def ready (k : Cfg) (p : Phase) : Engine := { Engine.reset with initialized := true, powered := true, cfg := k, phase := p }

/-- A block with that instance and the environment's script `as`. -/
def at0 (c : Config) (k : Cfg) (p : Phase) (as : List Answer) : State := { withEngine c (ready k p) with answers := as }

/-- A narrow variant A: registers, addresses, cursor and events of 16 bits, lengths of 8, the fields of a command where the
table has them. -/
def cN : Config := { cA with regw := 16, addrw := 16, lenw := 8, curw := 16, evw := 16 }

/-- A wide variant A: registers and addresses of 64 bits, lengths and cursor of 40, events of 128, a command word of 112 bits. -/
def cW : Config := { cA with regw := 64, addrw := 64, lenw := 40, curw := 40, evw := 128, cmd := { cA.cmd with arg1At := 72 } }

/-- Another layout of the command word and other codes: `op` in the top bits, command and status codes in another order. -/
def cL : Config :=
  { cA with
    cmd := { opAt := 69, instAt := 64, arg0At := 32, arg1At := 0, initCommit := 7, swap := 6, left := 5, txdmaStart := 4,
             powerOffMark := 3, powerOnMark := 2, uninitMark := 1, reserved7 := 0 }
    rsp := { cA.rsp with ok := 9, invalidId := 8 } }

/-- The state after a row. -/
def after (r : Instr) (s : State) : Option State :=
  match exec r s with
  | .next t => some t
  | _ => none

/-- The state after a step. -/
def stepped (s : State) : Option State :=
  match step s with
  | .next t => some t
  | _ => none

/-- The actions of a row, its events and its next phase. -/
def effect (r : Instr) (s : State) : Option (List Act × Nat × Phase) :=
  (after r s).map fun t => (t.trace, (t.eng 0).ev, (t.eng 0).phase)

/-- The actions of a step, the events and the next phase. -/
def stepEffect (s : State) : Option (List Act × Nat × Phase) :=
  (stepped s).map fun t => (t.trace, (t.eng 0).ev, (t.eng 0).phase)

/-- The trace of a command. -/
def answers (r : Instr) (s : State) : Option (List Act) := (after r s).map fun t => t.trace

/-- The row is refused for a buffer past the top. -/
def refusedPast (r : Instr) (s : State) : Bool :=
  match exec r s with
  | .refused .bufferPastTop => true
  | _ => false

/-- No term of the list is well-formed. -/
def allIllFormed (rs : List Instr) : Bool := rs.all fun r => !(r.wf cA)

/-- The events of each row of a list. -/
def eventsOf (rs : List Instr) : List (Option Nat) :=
  rs.map fun r => (effect r (at0 cA kPlain .cDecode [])).map fun p => p.2.1

/-- The trace of each row of a list. -/
def tracesOf (rs : List Instr) : List (Option (List Act)) := rs.map fun r => answers r (State.resetWith cA)

/-- `exec` answers a next state. -/
theorem next_of_after {r : Instr} {s : State} (h : (after r s).isSome = true) : ∃ t, exec r s = .next t := by
  unfold after at h
  split at h
  · exact ⟨_, by assumption⟩
  · cases h

/-- `step` answers a next state. -/
theorem next_of_stepped {s : State} (h : (stepped s).isSome = true) : ∃ t, step s = .next t := by
  unfold stepped at h
  split at h
  · exact ⟨_, by assumption⟩
  · cases h

/-! ### Parameters and well-formedness -/

/-- Both tabulated parameterisations meet spec/30_encoding.md R91. -/
theorem test_default_wf : cA.wf = true ∧ cB.wf = true := by decide

/-- R91 refuses two equal codes, a code outside the mask, a two-bit mask, a DMA bit inside the non-DMA mask. -/
theorem test_config_ill_formed :
    { cA with iirA := { cA.iirA with modem := 1 } }.wf = false ∧ { cA with iirA := { cA.iirA with modem := 8 } }.wf = false ∧
    { cA with dmaA := { cA.dmaA with txDone := 2 } }.wf = false ∧ { cA with lsr := { cA.lsr with oe := 3 } }.wf = false ∧
    { cA with ev := { cA.ev with hwFc := 1 } }.wf = false ∧ { cB with iirB := { cB.iirB with dmaTxDone := 0x10 } }.wf = false ∧
    { cA with lowWater := 3 }.wf = false ∧ { cA with rxDmaMinLen := 65 }.wf = false ∧ { cA with nInst := 33 }.wf = false := by
  decide

/-- R6: every width is admitted, above 32 bits too, whatever the others are; only an event mask too narrow for sixteen events
is refused. -/
theorem test_config_widths :
    cN.wf = true ∧ cW.wf = true ∧ { cA with regw := 200 }.wf = true ∧ { cA with curw := 1 }.wf = true ∧
    { cA with regw := 8 }.wf = true ∧ { cA with evw := 15 }.wf = false ∧ { cA with evw := 16 }.wf = true := by
  decide

/-- Other layouts and codes are admitted (R6, R43), but no overlapping fields of a command word, no two equal codes, no register
or event bit that the width does not have. -/
theorem test_config_codes :
    cL.wf = true ∧ { cA with cmd := { cA.cmd with arg0At := 7 } }.wf = false ∧
    { cA with cmd := { cA.cmd with arg1At := 39 } }.wf = false ∧
    { cA with cmd := { cA.cmd with left := 1 } }.wf = false ∧ { cA with rsp := { cA.rsp with notInit := 0 } }.wf = false ∧
    { cN with iirA := { cN.iirA with mask := 0x10007 } }.wf = false ∧
    { cN with ev := { cN.ev with hwFc := 0x10000 } }.wf = false := by
  decide

/-- R85, R62: equal clear codes, a code 0, a code that has the other condition's bit or lacks its own are refused; a code with a
further bit is not. -/
theorem test_config_clear_codes :
    ([(1, 1), (0, 2), (1, 0), (3, 2), (1, 4), (1, 6), (1, 2)].map fun p =>
      { cA with dmaA := { cA.dmaA with clrDmaTx := p.1, clrDmaRx := p.2 } }.wf) =
      [false, false, false, false, false, true, true] ∧
    ([(0x20, 0x20), (0, 0x40), (0x60, 0x40), (0x21, 0x40), (0x20, 0x40)].map fun p =>
      { cB with iirB := { cB.iirB with clrDmaTx := p.1, clrDmaRx := p.2 } }.wf) = [false, false, false, false, true] := by
  decide

/-- A register value, an argument or a response value wider than its width is refused, and a wide one is not where the width is. -/
theorem test_wf_width :
    allIllFormed [.initCommit 0 0x100000000 0, .swap 0 0 0x100000000, .left 0 0x100000000 0, .txdmaStart 0 0 0x100000000,
      .powerOffMark 0 0x100000000 0, .powerOnMark 0 0 0x100000000, .uninitMark 0 0x100000000 0, .reserved7 0 0 0x100000000,
      .iirANone 0 0x100000000, .rspOk 0 0x100000000] = true ∧
    Instr.wf cW (.swap 0 0x123456789ABCDEF0 0x9876543210) = true ∧ Instr.wf cW (.lsrDr 0 0xFEDCBA9876543210) = true ∧
    Instr.wf cN (.iirARxData 0 0x10000) = false ∧ Instr.wf cN (.iirBNoneMatched 0 0x10000) = false ∧
    Instr.wf cN (.lsrDr 0 0x10000) = false ∧ Instr.wf cN (.rspOk 0 0x100) = false ∧ Instr.wf cN (.rspOk 0 0xFF) = true := by
  decide

/-- An instance that does not exist is refused in every row that needs one. -/
theorem test_wf_instance :
    allIllFormed ([.irq 3, .iirALineErr 3 0, .iirARxData 3 0, .iirAThrEmpty 3 0, .iirATimeout 3 0, .iirAModem 3 0, .iirANone 3 0,
      .iirAUnexpected6 3 6, .iirAUnexpected7 3 7, .iirBLineErr 3 0, .iirBRxData 3 0, .iirBThrEmpty 3 0, .iirBTimeout 3 0,
      .iirBModem 3 0, .iirBDmaTxDone 3 0, .iirBDmaRxDone 3 0, .iirBNoneMatched 3 0, .dmaStatusATxDone 3 0,
      .dmaStatusARxDone 3 0] ++
     [.lsrDr 3 0, .lsrOe 3 0, .lsrPe 3 0, .lsrFe 3 0, .lsrBi 3 0, .lsrTxEmpty 3 0, .evDmaTxComplete 3, .evRxBufferLow 3,
      .evDmaRxToCb 3, .evDmaRxReady 3, .evUnexpected 3, .evRxToCb 3, .evRxReady 3, .evTxComplete 3, .evErrOverrun 3,
      .evErrParity 3, .evErrFraming 3, .evErrBreak 3, .evRxEndedNoData 3, .evRxEndedToCb 3, .evRxMaybeReady 3,
      .evHwFc 3]) = true := by
  decide

/-- Unexamined bits that overlap the examined ones are refused. -/
theorem test_wf_overlap :
    allIllFormed [.iirALineErr 0 1, .iirARxData 0 4, .iirAThrEmpty 0 2, .iirATimeout 0 1, .iirAModem 0 7, .iirANone 0 1,
      .iirBLineErr 0 1, .iirBRxData 0 2, .iirBThrEmpty 0 4, .iirBTimeout 0 8, .iirBModem 0 0x10, .iirBDmaTxDone 0 0x20,
      .iirBDmaRxDone 0 0x40, .dmaStatusATxDone 0 1, .dmaStatusARxDone 0 2, .lsrDr 0 1, .lsrOe 0 2, .lsrPe 0 4, .lsrFe 0 8,
      .lsrBi 0 0x10, .lsrTxEmpty 0 0x20] = true := by
  decide

/-- A matched value is no unexpected value, and each unexpected row has its own code. -/
theorem test_wf_unexpected :
    allIllFormed [.iirAUnexpected6 0 5, .iirAUnexpected6 0 7, .iirAUnexpected6 0 0, .iirAUnexpected7 0 6, .iirAUnexpected7 0 8,
      .iirAUnexpected7 0 3, .iirBNoneMatched 0 0x10] = true := by
  decide

/-! ### Decoding: the words are those of spec/30_encoding.md R81 to R97 -/

/-- R81, R82. -/
theorem test_decode_iirA :
    [0x01, 0x02, 0x03, 0x04, 0x05, 0x00, 0x06, 0x07].map (decodeIirA cA 1) =
      [.iirALineErr 1 0, .iirARxData 1 0, .iirAThrEmpty 1 0, .iirATimeout 1 0, .iirAModem 1 0, .iirANone 1 0,
       .iirAUnexpected6 1 6, .iirAUnexpected7 1 7] := by
  decide

/-- R81: bits 31..3 are ignored (vectors VA13, VA13b). -/
theorem test_decode_iirA_upper :
    decodeIirA cA 0 0xFFFFFFFA = .iirARxData 0 0xFFFFFFF8 ∧ decodeIirA cA 0 0xF8 = .iirANone 0 0xF8 := by
  decide

/-- R83. -/
theorem test_decode_iirB :
    [0x01, 0x02, 0x04, 0x08, 0x10].map (decodeIirB cB 2) =
      [[.iirBLineErr 2 0], [.iirBRxData 2 0], [.iirBThrEmpty 2 0], [.iirBTimeout 2 0], [.iirBModem 2 0]] ∧
    decodeIirB cB 2 0x21 = [.iirBDmaTxDone 2 0x01, .iirBLineErr 2 0x20] ∧
    decodeIirB cB 2 0x40 = [.iirBDmaRxDone 2 0, .iirBNoneMatched 2 0x40] ∧
    decodeIirB cB 2 0x80 = [.iirBNoneMatched 2 0x80] := by
  decide

/-- Spec/95_test_vectors.md 2.8: on variant B 0x03 is two conditions, on variant A it is one. -/
theorem test_decode_contrast :
    decodeIirB cB 0 0x03 = [.iirBRxData 0 0x01, .iirBLineErr 0 0x02] ∧ decodeIirA cA 0 0x03 = .iirAThrEmpty 0 0 := by
  decide

/-- R85. -/
theorem test_decode_dmaStatusA :
    decode cA (.dmaStatusA 0 0x1) = .rows [.dmaStatusATxDone 0 0] ∧
    decode cA (.dmaStatusA 0 0x3) = .rows [.dmaStatusATxDone 0 2, .dmaStatusARxDone 0 1] ∧
    decode cA (.dmaStatusA 0 0x4) = .rejected .noRowMatches := by
  decide

/-- R87. -/
theorem test_decode_lsr :
    [0x01, 0x02, 0x04, 0x08, 0x10, 0x20].map (decodeLsr cA 0) =
      [[.lsrDr 0 0], [.lsrOe 0 0], [.lsrPe 0 0], [.lsrFe 0 0], [.lsrBi 0 0], [.lsrTxEmpty 0 0]] ∧
    decodeLsr cA 0 0x61 = [.lsrDr 0 0x60, .lsrTxEmpty 0 0x41] := by
  decide

/-- R86. -/
theorem test_decode_ev :
    [0x0001, 0x0002, 0x0004, 0x0008, 0x0010, 0x0020, 0x0040, 0x0080].map (decodeEv cA 0) =
      [[.evDmaTxComplete 0], [.evRxBufferLow 0], [.evDmaRxToCb 0], [.evDmaRxReady 0], [.evUnexpected 0], [.evRxToCb 0],
       [.evRxReady 0], [.evTxComplete 0]] ∧
    [0x0100, 0x0200, 0x0400, 0x0800, 0x1000, 0x2000, 0x4000, 0x8000].map (decodeEv cA 0) =
      [[.evErrOverrun 0], [.evErrParity 0], [.evErrFraming 0], [.evErrBreak 0], [.evRxEndedNoData 0], [.evRxEndedToCb 0],
       [.evRxMaybeReady 0], [.evHwFc 0]] := by
  decide

/-- R97. -/
theorem test_decode_rsp :
    decode cA (.rsp 0 0 40) = .rows [.rspOk 0 40] ∧ decode cA (.rsp 0 1 0) = .rows [.rspInvalidId 0] ∧
    decode cA (.rsp 0 2 0) = .rows [.rspNotInit 0] ∧ decode cA (.rsp 0 3 0) = .rows [.rspNotPowered 0] ∧
    decode cA (.rsp 0 4 0) = .rows [.rspDmaNotEnabled 0] ∧ decode cA (.rsp 0 5 0) = .rows [.rspBufferTooSmall 0] ∧
    decode cA (.rsp 0 6 0) = .rows [.rspBadDmaBuffer 0] ∧ decode cA (.rsp 0 7 0) = .rows [.rspUnsupported 0] ∧
    decode cA (.rsp 0 8 0) = .rejected .statusNeverProduced ∧ decode cA (.rsp 0 15 0) = .rejected .statusNeverProduced ∧
    decode cA (.rsp 0 7 1) = .rejected .valueNotZero := by
  decide

/-- Spec/95_test_vectors.md 2.7: every command word of the table. -/
theorem test_decode_cmd :
    decodeCmd cA 0x000000000000000000 = .initCommit 0 0 0 ∧ decodeCmd cA 0x000000202000010001 = .swap 0 0x20000100 32 ∧
    decodeCmd cA 0x000000102000004001 = .swap 0 0x20000040 16 ∧ decodeCmd cA 0x000000202000010019 = .swap 3 0x20000100 32 ∧
    decodeCmd cA 0x000000000000000012 = .left 2 0 0 ∧ decodeCmd cA 0x000000052000020003 = .txdmaStart 0 0x20000200 5 ∧
    decodeCmd cA 0x000000052000020013 = .txdmaStart 2 0x20000200 5 ∧ decodeCmd cA 0x00000000000000000C = .powerOffMark 1 0 0 ∧
    decodeCmd cA 0x00000000000000000D = .powerOnMark 1 0 0 ∧ decodeCmd cA 0x000000000000000016 = .uninitMark 2 0 0 ∧
    decodeCmd cA 0x000000000000000007 = .reserved7 0 0 0 := by
  decide

/-- R6, 30_encoding.md: under another layout and other codes the same words mean other rows. -/
theorem test_decode_other_layout :
    decodeCmd cL 0xC3_20000100_00000020 = .swap 3 0x20000100 32 ∧ decodeCmd cL 0 = .reserved7 0 0 0 ∧
    decode cL (.rsp 0 9 40) = .rows [.rspOk 0 40] ∧ decode cL (.rsp 0 0 0) = .rejected .statusNeverProduced := by
  decide

/-- R92 with an address of 64 bits and a length of 40: the same fields in a word of 112 bits. -/
theorem test_decode_wide :
    decodeCmd cW 0x98765432_10_12345678_9ABCDEF0_19 = .swap 3 0x123456789ABCDEF0 0x9876543210 ∧
    decodeIirA cW 0 0xFEDCBA987654321A = .iirARxData 0 0xFEDCBA9876543218 := by
  decide

/-- The activation has no word: its entry stands for itself. -/
theorem test_decode_irq : decode cA (.irqEntry 1) = .rows [.irq 1] := by decide

/-- The encoder gives the words of the table (R92, R81, R83). -/
theorem test_encode :
    encode cA (.swap 0 0x20000100 32) = .cmd 0x000000202000010001 ∧ encode cA (.iirATimeout 0 0xF8) = .iirA 0 0xFC ∧
    encode cB (.iirBModem 0 0x80) = .iirB 0 0x90 ∧ encode cA (.rspBadDmaBuffer 1) = .rsp 1 6 0 := by
  decide

/-! ### Single steps: activation -/

/-- R113: variant A reads nothing at the entry, variant B reads `IIR` once. -/
theorem test_irq_entry :
    effect (.irq 0) (at0 cA kPlain .idle []) = some ([], 0, .cTxDma) ∧
    effect (.irq 0) (at0 cB kPlain .idle [⟨0, .IIR, 0x1F⟩]) = some ([.regRead 0 .IIR 0x1F], 0, .cTxDma) := by
  decide

/-- Spec/20_memory.md R72: an entry that finds the engine busy is held. -/
theorem test_irq_held : (after (.irq 0) (at0 cA kPlain .cDecode [])).map (fun t => (t.eng 0).heldIrq) = some 1 := by decide

/-- Vectors VA4, VA5b (variant A) and VB8o (variant B). -/
theorem test_line_error :
    effect (.iirALineErr 0 0) (at0 cA kPlain .cDecode [⟨0, .LSR, 0x02⟩]) =
      some ([.regRead 0 .LSR 0x02], 0x0100, .cDispatch) ∧
    effect (.iirALineErr 0 0) (at0 cA kPlain .cDecode [⟨0, .LSR, 0x0A⟩]) =
      some ([.regRead 0 .LSR 0x0A], 0x0500, .cDispatch) ∧
    effect (.iirBLineErr 0 0) (at0 cB kPlain .cLine [⟨0, .LSR, 0x02⟩]) =
      some ([.regRead 0 .LSR 0x02, .regWrite 0 .LSR 0x1E], 0x0100, .cTimeout) := by
  decide

/-- Vector VB8: the write of variant B is made also when no error bit is present. -/
theorem test_line_no_error :
    effect (.iirBLineErr 0 0) (at0 cB kPlain .cLine [⟨0, .LSR, 0x00⟩]) =
      some ([.regRead 0 .LSR 0x00, .regWrite 0 .LSR 0x1E], 0x0000, .cTimeout) := by
  decide

/-- Vectors VA1, VB1: no register is touched. Vector VA2: the first byte is read without a data-ready test. -/
theorem test_rx_data :
    effect (.iirARxData 0 0) (at0 cA kPlain .cDecode []) = some ([], 0x0040, .cDispatch) ∧
    effect (.iirBRxData 0 0) (at0 cB kPlain .cRxData []) = some ([], 0x0040, .cThre) ∧
    effect (.iirARxData 0 0) (at0 cA kCb .cDecode [⟨0, .RBR, 0x31⟩]) =
      some ([.regRead 0 .RBR 0x31, .byteSink 0 0x31], 0, .cRxDataLoop) := by
  decide

/-- Vectors VA3, VB1t. -/
theorem test_thr_empty :
    effect (.iirAThrEmpty 0 0) (at0 cA kPlain .cDecode []) = some ([], 0x0080, .cDispatch) ∧
    effect (.iirBThrEmpty 0 0) (at0 cB kPlain .cThre []) = some ([], 0x0080, .cLine) := by
  decide

/-- Vectors VA9, VB1o, and the entry of the loop. -/
theorem test_timeout :
    effect (.iirATimeout 0 0) (at0 cA kPlain .cDecode []) = some ([], 0x4000, .cDispatch) ∧
    effect (.iirBTimeout 0 0) (at0 cB kPlain .cTimeout []) = some ([], 0x4000, .cModem) ∧
    effect (.iirATimeout 0 0) (at0 cA kCb .cDecode []) = some ([], 0, .cTimeoutLoop) := by
  decide

/-- Vectors VA10, VB1m. -/
theorem test_modem :
    effect (.iirAModem 0 0) (at0 cA kPlain .cDecode []) = some ([], 0x8000, .cDispatch) ∧
    effect (.iirBModem 0 0) (at0 cB kPlain .cModem []) = some ([], 0x8000, .cDispatch) := by
  decide

/-- Vectors VA11, VA11b, VA12, VB4. -/
theorem test_unmatched :
    effect (.iirAUnexpected6 0 6) (at0 cA kPlain .cDecode []) = some ([], 0x0010, .cDispatch) ∧
    effect (.iirAUnexpected7 0 7) (at0 cA kPlain .cDecode []) = some ([], 0x0010, .cDispatch) ∧
    effect (.iirANone 0 0) (at0 cA kPlain .cDecode []) = some ([], 0, .cDispatch) ∧
    effect (.iirBNoneMatched 0 0) (at0 cB kPlain .cModem []) = some ([], 0x0010, .cDispatch) := by
  decide

/-- Vector VB5: with an event already set variant B raises no unexpected event. Variant A does (vector VA19). -/
theorem test_unexpected_after_event :
    effect (.iirBNoneMatched 0 0) (withEngine cB { ready kDma .cModem with ev := 0x0001 }) = some ([], 0x0001, .cDispatch) ∧
    effect (.iirAUnexpected7 0 7) (withEngine cA { ready kDma .cDecode with ev := 0x0001 }) = some ([], 0x0011, .cDispatch) := by
  decide

/-- Vectors VA14, VB5, and VA17d: nothing when TX DMA is not enabled. -/
theorem test_dma_tx_done :
    effect (.dmaStatusATxDone 0 0) (at0 cA kDma .cTxDma []) =
      some ([.regWrite 0 .DMA_STATUS 0x01, .regWrite 0 .DMA_TX_EN 0], 0x0001, .cRxDma) ∧
    effect (.iirBDmaTxDone 0 0) (at0 cB kDma .cTxDma []) =
      some ([.regWrite 0 .IIR 0x20, .regWrite 0 .DMA_TX_EN 0], 0x0001, .cRxDma) ∧
    effect (.dmaStatusATxDone 0 0) (at0 cA kPlain .cTxDma []) = some ([], 0, .cRxDma) := by
  decide

/-- Vectors VA17, VA17b: 8 is not below 8, 7 is. -/
theorem test_dma_rx_done :
    effect (.dmaStatusARxDone 0 0) (at0 cA kDma .cRxDma [⟨0, .DMA_RX_LEFT, 8⟩]) =
      some ([.regWrite 0 .DMA_STATUS 0x02, .regRead 0 .DMA_RX_LEFT 8], 0x0008, .cDecode) ∧
    effect (.dmaStatusARxDone 0 0) (at0 cA kDma .cRxDma [⟨0, .DMA_RX_LEFT, 7⟩]) =
      some ([.regWrite 0 .DMA_STATUS 0x02, .regRead 0 .DMA_RX_LEFT 7], 0x000A, .cDecode) := by
  decide

/-- Vectors VB11, VB11b. -/
theorem test_dma_rx_done_b :
    effect (.iirBDmaRxDone 0 0) (at0 cB kDma .cRxDma [⟨0, .DMA_RX_LEFT, 3⟩]) =
      some ([.regWrite 0 .IIR 0x40, .regRead 0 .DMA_RX_LEFT 3], 0x000A, .cDecode) ∧
    effect (.iirBDmaRxDone 0 0) (at0 cB kDmaCb .cRxDma [⟨0, .DMA_RX_LEFT, 3⟩]) =
      some ([.regWrite 0 .IIR 0x40, .regRead 0 .DMA_RX_LEFT 3], 0x0002, .cDrain) := by
  decide

/-- R142, R146, R150, R87: the rows of the line status. -/
theorem test_lsr_rows :
    effect (.lsrDr 0 0) (at0 cA kCb .cRxDataLoop [⟨0, .RBR, 0x32⟩]) =
      some ([.regRead 0 .RBR 0x32, .byteSink 0 0x32], 0, .cRxDataLoop) ∧
    effect (.lsrOe 0 0) (at0 cA kPlain .cLine []) = some ([], 0x0100, .cLine) ∧
    effect (.lsrPe 0 0) (at0 cA kPlain .cLine []) = some ([], 0x0200, .cLine) ∧
    effect (.lsrFe 0 0) (at0 cA kPlain .cLine []) = some ([], 0x0400, .cLine) ∧
    effect (.lsrBi 0 0) (at0 cA kPlain .cLine []) = some ([], 0x0800, .cLine) ∧
    effect (.lsrTxEmpty 0 0) (at0 cA kPlain .cLine []) = some ([], 0, .cLine) := by
  decide

/-- R52, R117, R165 with registers of 16 bits and lengths of 8: what is read, what is left, the wrap of an address. -/
theorem test_narrow :
    effect (.dmaStatusARxDone 0 0) (at0 cN kDma .cRxDma [⟨0, .DMA_RX_LEFT, 0x20107⟩]) =
      some ([.regWrite 0 .DMA_STATUS 0x02, .regRead 0 .DMA_RX_LEFT 0x0107], 0x000A, .cDecode) ∧
    answers (.txdmaStart 0 0x20000200 0x105) (at0 cN kDma .idle []) =
      some [.regWrite 0 .DMA_TX_ADDR 0x0200, .regWrite 0 .DMA_TX_LEN 5, .regWrite 0 .DMA_TX_EN 1, .ret 0 .ok 0] ∧
    (after (.swap 0 0xFFE1 32) (at0 cN kDma .idle [])).isSome = false ∧
    (after (.swap 0 0xFFE0 32) (at0 cN kDma .idle [])).isSome = true := by
  decide

/-- R52, R55 with registers and addresses of 64 bits: no bit above 31 is lost, and a 65th is. Registers narrower than an
address hold its low bits. -/
theorem test_wide :
    answers (.txdmaStart 0 0x123456789ABCDEF0 0x9876543210) (at0 cW kDma .idle []) =
      some [.regWrite 0 .DMA_TX_ADDR 0x123456789ABCDEF0, .regWrite 0 .DMA_TX_LEN 0x9876543210, .regWrite 0 .DMA_TX_EN 1,
        .ret 0 .ok 0] ∧
    answers (.left 0 0 0) (at0 cW kDma .idle [⟨0, .DMA_RX_LEFT, 0x1_AAAAAA98_76543210⟩]) =
      some [.regRead 0 .DMA_RX_LEFT 0xAAAAAA98_76543210, .ret 0 .ok 0x9876543210] ∧
    answers (.txdmaStart 0 0x20000200 5) (at0 { cA with regw := 16 } kDma .idle []) =
      some [.regWrite 0 .DMA_TX_ADDR 0x0200, .regWrite 0 .DMA_TX_LEN 5, .regWrite 0 .DMA_TX_EN 1, .ret 0 .ok 0] := by
  decide

/-- R86: the sixteen event rows, in the order of the table. -/
theorem test_ev_rows :
    eventsOf [.evDmaTxComplete 0, .evRxBufferLow 0, .evDmaRxToCb 0, .evDmaRxReady 0, .evUnexpected 0, .evRxToCb 0, .evRxReady 0,
      .evTxComplete 0, .evErrOverrun 0, .evErrParity 0, .evErrFraming 0, .evErrBreak 0, .evRxEndedNoData 0, .evRxEndedToCb 0,
      .evRxMaybeReady 0, .evHwFc 0] =
    [0x0001, 0x0002, 0x0004, 0x0008, 0x0010, 0x0020, 0x0040, 0x0080, 0x0100, 0x0200, 0x0400, 0x0800, 0x1000, 0x2000, 0x4000,
      0x8000].map some := by
  decide

/-- R128: the event call is made also with an empty mask (vector VA12), and not without a callback (vector VA20). -/
theorem test_dispatch :
    stepEffect { at0 cA kPlain .cDispatch [] with agenda := [.run 0] } = some ([.eventSink 0 0], 0, .idle) ∧
    stepEffect { at0 cA Cfg.reset .cDispatch [] with agenda := [.run 0] } = some ([], 0, .idle) := by
  decide

/-- Vectors VA7, VA8: the end of the timeout loop, with the dummy read and without. -/
theorem test_timeout_loop_end :
    stepEffect { at0 cA kCb .cTimeoutLoop [⟨0, .LSR, 0⟩, ⟨0, .RBR, 0xAA⟩] with agenda := [.run 0] } =
      some ([.regRead 0 .LSR 0, .regRead 0 .RBR 0xAA], 0x1000, .cDispatch) ∧
    stepEffect { withEngine cA { ready kCb .cTimeoutLoop with n := 1 } with
      agenda := [.run 0], answers := [⟨0, .LSR, 0⟩] } = some ([.regRead 0 .LSR 0], 0x2000, .cDispatch) := by
  decide

/-- Vectors DR1, DR4: a byte is delivered and passed, and at the buffer's length nothing is read. -/
theorem test_drain :
    (stepped { at0 cA kDrain16 .cDrain [] with agenda := [.run 0], mem := [(0x20000000, 0x48), (0x20000001, 0x69)] }).map
      (fun t => (t.trace, (t.eng 0).cursor)) =
      some ([.memRead 0 0x20000000 0x48, .byteSink 0 0x48], 1) ∧
    stepEffect { withEngine cA { ready kDrain16 .cDrain with cursor := 16 } with agenda := [.run 0] } =
      some ([], 0x0004, .cDecode) := by
  decide

/-- Vector DR7: the scan is stuck on a zero byte, which is neither delivered nor passed. -/
theorem test_drain_zero :
    (stepped { withEngine cA { ready kDrain16 .cDrain with cursor := 1 } with
        agenda := [.run 0], mem := [(0x20000000, 0x41), (0x20000002, 0x42)] }).map
      (fun t => (t.trace, (t.eng 0).cursor)) = some ([.memRead 0 0x20000001 0x00], 1) := by
  decide

/-- R164, R166: with a cursor of 4 bits a length of 20 is truncated to 4: the byte at index 3 is delivered, and at index 4
nothing is read. The cursor does not wrap. -/
theorem test_cursor_truncation :
    let run := fun k => (stepped { withEngine { cA with curw := 4 }
          { ready { kDrain16 with rxDmaBuffLength := 20 } .cDrain with cursor := k } with
        agenda := [.run 0], mem := [(0x20000003, 0x41), (0x20000004, 0x42)] }).map fun t => (t.trace, (t.eng 0).cursor)
    run 3 = some ([.memRead 0 0x20000003 0x41, .byteSink 0 0x41], 4) ∧ run 4 = some ([], 4) := by
  decide

/-! ### Single steps: commands -/

/-- Vectors IN1, IN3, IN4, IN5, IN7. -/
theorem test_init_commit :
    answers (.initCommit 0 0 0) { State.resetWith cA with cfgIn := kPlain } = some [.ret 0 .ok 0] ∧
    answers (.initCommit 0 0 0) { State.resetWith cA with cfgIn := { kDma with rxDmaBuffLength := 12 } } =
      some [.ret 0 .badDmaBuffer 0] ∧
    answers (.initCommit 0 0 0) { State.resetWith cA with cfgIn := { kDma with rxDmaBuffLength := 18 } } =
      some [.ret 0 .badDmaBuffer 0] ∧
    answers (.initCommit 0 0 0) { State.resetWith cA with cfgIn := { kDma with rxDmaBuffer := 0 } } =
      some [.ret 0 .badDmaBuffer 0] ∧
    answers (.initCommit 3 0 0) { State.resetWith cA with cfgIn := kPlain } = some [.ret 3 .invalidId 0] := by
  decide

/-- R55, D27, U7: one byte past the top is refused without RX DMA too and before a failing check, and the instance's number is
checked first (R94). -/
theorem test_past_the_top :
    let k := { kPlain with rxDmaBuffer := 0xFFFFFFC1, rxDmaBuffLength := 63 }
    answers (.initCommit 0 0 0) { State.resetWith cA with cfgIn := k } = some [.ret 0 .ok 0] ∧
    refusedPast (.initCommit 0 0 0) { State.resetWith cA with cfgIn := { k with rxDmaBuffLength := 64 } } = true ∧
    refusedPast (.initCommit 0 0 0)
      { State.resetWith cA with cfgIn := { k with rxDmaEn := true, rxDmaBuffLength := 66 } } = true ∧
    refusedPast (.swap 0 0xFFFFFFE1 32) (State.resetWith cA) = true ∧
    answers (.swap 0 0xFFFFFFE0 32) (State.resetWith cA) = some [.ret 0 .notInit 0] ∧
    answers (.swap 3 0xFFFFFFE1 32) (State.resetWith cA) = some [.ret 3 .invalidId 0] := by
  decide

/-- Vector IN2: the first write of the fill, after the command. -/
theorem test_init_fill :
    (stepped { at0 cA kDrain16 (.kExecFill 0) [] with agenda := [.run 0], mem := [(0x20000000, 0x48)] }).map
      (fun t => (t.trace, t.mem, (t.eng 0).phase)) = some ([.memWrite 0 0x20000000 0x00], [], .kExecFill 1) := by
  decide

/-- Vector SW2. -/
theorem test_swap :
    (after (.swap 0 0x20000100 32) (at0 cA kDma .idle [])).map
      (fun t => (t.trace, (t.eng 0).cfg.rxDmaBuffer, (t.eng 0).cfg.rxDmaBuffLength, (t.eng 0).cursor)) =
    some ([.regWrite 0 .DMA_RX_EN 0, .regWrite 0 .DMA_RX_ADDR 0x20000100, .regWrite 0 .DMA_RX_LEN 32,
      .regWrite 0 .DMA_RX_EN 1, .ret 0 .ok 0], 0x20000100, 32, 0) := by
  decide

/-- Vectors SW3, SW7, SW8, SW9, SW10: the order of the checks. -/
theorem test_swap_checks :
    answers (.swap 0 0x20000100 15) (at0 cA kDma .idle []) = some [.ret 0 .bufferTooSmall 0] ∧
    answers (.swap 0 0x20000100 0) (at0 cA kPlain .idle []) = some [.ret 0 .dmaNotEnabled 0] ∧
    answers (.swap 0 0x20000100 32) (State.resetWith cA) = some [.ret 0 .notInit 0] ∧
    answers (.swap 0 0x20000100 32) (withEngine cA { ready kDma .idle with powered := false }) =
      some [.ret 0 .notPowered 0] ∧
    answers (.swap 3 0x20000100 32) (State.resetWith cA) = some [.ret 3 .invalidId 0] := by
  decide

/-- Vectors LF1, LF2. -/
theorem test_left :
    answers (.left 0 0 0) (at0 cA kDma .idle [⟨0, .DMA_RX_LEFT, 40⟩]) =
      some [.regRead 0 .DMA_RX_LEFT 40, .ret 0 .ok 40] ∧
    answers (.left 0 0 0) (at0 cA kPlain .idle []) = some [.ret 0 .dmaNotEnabled 0] := by
  decide

/-- Vectors TX1, TX4. -/
theorem test_txdma_start :
    answers (.txdmaStart 0 0x20000200 5) (at0 cA kDma .idle []) =
      some [.regWrite 0 .DMA_TX_ADDR 0x20000200, .regWrite 0 .DMA_TX_LEN 5, .regWrite 0 .DMA_TX_EN 1, .ret 0 .ok 0] ∧
    answers (.txdmaStart 1 0x20000200 5) (State.resetWith cA) = some [.ret 1 .notInit 0] := by
  decide

/-- Vectors MK1 to MK6: the flags after each mark, and the marks of an uninitialized instance. -/
theorem test_marks :
    (after (.powerOffMark 0 0 0) (at0 cA kDma .idle [])).map (fun t => ((t.eng 0).initialized, (t.eng 0).powered)) =
      some (true, false) ∧
    (after (.powerOnMark 0 0 0) (withEngine cA { ready kDma .idle with powered := false, cursor := 5 })).map
      (fun t => ((t.eng 0).powered, (t.eng 0).cursor)) = some (true, 5) ∧
    (after (.uninitMark 0 0 0) (at0 cA kDma .idle [])).map
      (fun t => ((t.eng 0).initialized, (t.eng 0).powered, (t.eng 0).cfg.rxDmaEn)) = some (false, false, true) ∧
    answers (.powerOffMark 0 0 0) (State.resetWith cA) = some [.ret 0 .notInit 0] ∧
    answers (.powerOnMark 0 0 0) (State.resetWith cA) = some [.ret 0 .notInit 0] ∧
    answers (.uninitMark 0 0 0) (State.resetWith cA) = some [.ret 0 .notInit 0] := by
  decide

/-- Vectors RS1, RS2: the range check comes first. -/
theorem test_reserved :
    answers (.reserved7 0 0 0) (State.resetWith cA) = some [.ret 0 .unsupported 0] ∧
    answers (.reserved7 9 0 0) (State.resetWith cA) = some [.ret 9 .invalidId 0] := by
  decide

/-- R97: the response rows. -/
theorem test_responses :
    tracesOf [.rspOk 0 40, .rspInvalidId 0, .rspNotInit 0, .rspNotPowered 0, .rspDmaNotEnabled 0, .rspBufferTooSmall 0,
      .rspBadDmaBuffer 0, .rspUnsupported 0] =
    [some [.ret 0 .ok 40], some [.ret 0 .invalidId 0], some [.ret 0 .notInit 0], some [.ret 0 .notPowered 0],
      some [.ret 0 .dmaNotEnabled 0], some [.ret 0 .bufferTooSmall 0], some [.ret 0 .badDmaBuffer 0],
      some [.ret 0 .unsupported 0]] := by
  decide

/-- R20: an activation's row of an instance that does not exist has no meaning, and `E_INVALID_ID` is the answer there. -/
theorem test_absent_instance :
    (stepped { State.resetWith cA with agenda := [.irq 3] }).isNone = true ∧
    (tracesOf [.evUnexpected 31, .lsrDr 3 1, .iirARxData 3 2, .rspInvalidId 31]) =
      [none, none, none, some [.ret 31 .invalidId 0]] := by
  decide

/-- Spec/20_memory.md R64: writing 1 to an enabled receiver latches nothing. -/
theorem test_latch :
    (({ Uart.reset with dmaRxAddr := 5, dmaRxLen := 6 }.write .DMA_RX_EN 1).rxLatchedAddr = 5) ∧
    (({ Uart.reset with dmaRxAddr := 5, dmaRxEn := 1 }.write .DMA_RX_EN 1).rxLatchedAddr = 0) := by
  decide

/-- Spec/20_memory.md R72: a command that arrives while its engine is busy waits, and a held entry starts afterwards. -/
theorem test_waiting :
    (stepped { at0 cA kDma .cDecode [] with agenda := [.cmd 0x02 Cfg.reset] }).map (fun t => (t.cmdq, t.trace)) =
      some ([(0x02, Cfg.reset)], []) ∧
    (stepped { withEngine cA { ready kDma .idle with heldIrq := 1 } with agenda := [.run 0] }).map
      (fun t => ((t.eng 0).phase, (t.eng 0).heldIrq)) = some (.cTxDma, 0) := by
  decide

/-- Spec/70_reset_and_hazards.md R221: a restart in the middle of an operation. -/
theorem test_restart :
    let s := { at0 cA kDma .cDrain [⟨0, .LSR, 1⟩] with agenda := [.reset, .host], cmdq := [(0x02, kDma)], mem := [(7, 1)] }
    ((stepped s).map fun t => t.engines) = some (List.replicate 3 Engine.reset) ∧
      ((stepped s).map fun t => (t.cmdq.length, t.agenda, t.mem)) = some (0, [.host], [(7, 1)]) := by
  decide

/-- With nothing said from outside, a reset block is quiet. -/
theorem test_reset_quiet : stepped State.reset = some State.reset := by decide


/-! ### Witnesses: states that meet the hypotheses of the statements -/

/-- The invariant at a state of the tests: an engine with a buffer of 16 bytes. -/
theorem inv_at0 (p : Phase) (hp : p = .idle ∨ p = .cDrain) : (at0 cA kDrain16 p []).Inv := by
  rcases hp with rfl | rfl <;>
  · refine ⟨by decide, ?_, by decide, by decide⟩
    intro x hx
    simp only [at0, withEngine, List.mem_cons, List.not_mem_nil, or_false] at hx
    rcases hx with rfl | rfl | rfl <;>
      exact ⟨by decide, by decide, by decide, by decide, by decide, by decide, by decide, trivial⟩


/-- Meets the hypotheses of `EncodedInstructionsDecodeBack`. -/
theorem witness_EncodedInstructionsDecodeBack :
    cA.wf = true ∧ Instr.wf cA (.iirAUnexpected7 2 0xFFFFFFFF) = true ∧ Instr.wf cB (.iirBModem 2 0xFFFFFFEF) = true ∧
      Instr.wf cA (.swap 31 0xFFFFFFFF 0xFFFFFFFF) = true ∧ (Instr.swap 31 0xFFFFFFFF 0xFFFFFFFF).alone = true := by
  decide

/-- Meets the hypotheses of `EveryCommandWordIsOneCommand`, with every field at its largest value. -/
theorem witness_EveryCommandWordIsOneCommand :
    cA.cmdWf = true ∧ cL.cmdWf = true ∧ cW.cmdWf = true ∧ cA.cmdBits = 2 ^ 72 - 1 ∧ cW.cmdBits = 2 ^ 112 - 1 ∧
      cA.addrw = 32 ∧ cA.lenw = 32 ∧ 0xFFFFFFFFFFFFFFFFFF < 2 ^ 72 ∧
        0xFFFFFFFFFFFFFFFFFF = 7 + 2 ^ 3 * 31 + 2 ^ 8 * (2 ^ 32 - 1) + 2 ^ 40 * (2 ^ 32 - 1) ∧
      ([0, 1, 2, 3, 4, 5, 6, 7, 8].map fun op => ([Instr.initCommit, .swap, .left, .txdmaStart, .powerOffMark, .powerOnMark,
        .uninitMark, .reserved7][op]?).isSome) = [true, true, true, true, true, true, true, true, false] := by
  decide

/-- Both sides of each clause of `BitTestedFormatsHoldTheSetBits`. -/
theorem witness_BitTestedFormatsHoldTheSetBits :
    (0x61 : Nat) &&& cA.lsr.dr ≠ 0 ∧ (0x60 : Nat) &&& cA.lsr.dr = 0 ∧ (3 : Nat) &&& cA.dmaA.rxDone ≠ 0 ∧
      (1 : Nat) &&& cA.dmaA.rxDone = 0 ∧ (0x8001 : Nat) &&& cA.ev.hwFc ≠ 0 ∧ (0x7FFF : Nat) &&& cA.ev.hwFc = 0 := by
  decide

/-- Meets the hypotheses of `ResponseWordsOutsideTheTableAreRejected`: statuses 8 and 15, and 7 with a value. -/
theorem witness_ResponseWordsOutsideTheTableAreRejected :
    cA.rsp.wf = true ∧ (8 : BitVec 4) ∉ cA.rsp.codes ∧ 8 ≤ (15 : BitVec 4).toNat ∧ (0 : BitVec 4) = cA.rsp.ok ∧
      (7 : BitVec 4) = cA.rsp.unsupported ∧ (1 : Nat) ≠ 0 := by
  decide

/-- Meets the hypotheses of `VariantADecodesByEquality`. -/
theorem witness_VariantADecodesByEquality :
    cA.wf = true ∧ (0xFFFFFFFA : Nat) &&& cA.iirA.mask = cA.iirA.rxData ∧ (3 : Nat) &&& cA.iirA.mask = cA.iirA.thrEmpty ∧
      (1 : Nat) &&& cA.iirA.mask = cA.iirA.lineErr ∧ (4 : Nat) &&& cA.iirA.mask = cA.iirA.timeout ∧
      (5 : Nat) &&& cA.iirA.mask = cA.iirA.modem ∧ (0xF8 : Nat) &&& cA.iirA.mask = 0 ∧
      (6 : Nat) &&& cA.iirA.mask ∉ cA.iirA.codes ∧ (7 : Nat) &&& cA.iirA.mask ∉ cA.iirA.codes := by
  decide

/-- Meets the hypotheses of `VariantBTestsEveryBitAlone`. -/
theorem witness_VariantBTestsEveryBitAlone :
    cB.wf = true := by
  decide

/-- Meets the hypotheses of `DmaConditionsAreSeparatelyClearable`. -/
theorem witness_DmaConditionsAreSeparatelyClearable :
    cA.wf = true ∧ cB.wf = true ∧ cA.iirB.nonDma.length = 5 := by
  decide

/-- Meets the hypotheses of `ResetState`. -/
theorem witness_ResetState :
    (2 : InstId).toNat < cA.nInst ∧ (0 : InstId).toNat < cB.nInst := by
  decide

/-- Meets the hypotheses of `StepKeepsTheInvariant`. -/
theorem witness_StepKeepsTheInvariant :
    ∃ s t : State, s.Inv ∧ step s = .next t :=
  let ⟨t, h⟩ := next_of_stepped (s := at0 cA kDrain16 .cDrain []) (by decide)
  ⟨_, t, inv_at0 _ (.inr rfl), h⟩

/-- Meets the hypotheses of `StepKeepsTheParameters`. -/
theorem witness_StepKeepsTheParameters :
    ∃ t, step { at0 cA kPlain .cDispatch [] with agenda := [.run 0] } = .next t := next_of_stepped (by decide)

/-- Meets the hypotheses of `EventMaskHasSixteenBits`. -/
theorem witness_EventMaskHasSixteenBits :
    ∃ s : State, s.Inv ∧ s.conf.ev = (Config.default .A).ev := ⟨_, inv_at0 .idle (.inl rfl), rfl⟩

/-- Meets the hypotheses of `InstancesAreIndependent`. -/
theorem witness_InstancesAreIndependent :
    (∃ t, exec (.iirAThrEmpty 0 0) (at0 cA kPlain .cDecode []) = .next t) ∧ (1 : InstId) ≠ (Instr.iirAThrEmpty 0 0).inst :=
  ⟨next_of_after (by decide), by decide⟩

/-- Meets the hypotheses of `EngineTurnIsLocal`. -/
theorem witness_EngineTurnIsLocal :
    ∃ t, step { at0 cA kPlain .cDispatch [] with agenda := [.run 0, .host] } = .next t := next_of_stepped (by decide)

/-- Meets the hypotheses of `EveryActionHasItsWidth`. -/
theorem witness_EveryActionHasItsWidth :
    ∃ s t : State, s.Inv ∧ s.conf.wf = true ∧ step s = .next t :=
  let ⟨t, h⟩ := next_of_stepped (s := at0 cA kDrain16 .cDrain []) (by decide)
  ⟨_, t, inv_at0 _ (.inr rfl), by decide, h⟩

/-- Meets the hypotheses of `ActivationRowsLeaveTheRecord`. -/
theorem witness_ActivationRowsLeaveTheRecord :
    (Instr.iirARxData 0 0).ofActivation = true ∧
      ∃ t, exec (.iirARxData 0 0) (at0 cA kCb .cDecode [⟨0, .RBR, 0x31⟩]) = .next t := ⟨rfl, next_of_after (by decide)⟩

/-- One step for each clause of `OnlyTheDrainAdvancesTheCursor`. -/
theorem witness_OnlyTheDrainAdvancesTheCursor :
    (stepped { at0 cA kDrain16 .cDrain [] with agenda := [.run 0], mem := [(0x20000000, 0x48)] }).map
        (fun t => (t.eng 0).cursor) = some 1 ∧
      (stepped { withEngine cA { ready kDma .idle with cursor := 5 } with
        agenda := [.cmd 0x000000202000010001 Cfg.reset] }).map (fun t => (t.eng 0).cursor) = some 0 ∧
      (stepped { withEngine cA { ready kDma .cDispatch with cursor := 5 } with agenda := [.run 0] }).map
        (fun t => (t.eng 0).cursor) = some 5 ∧
      (nextInstr { withEngine cA { ready kDma .idle with cursor := 5 } with
        agenda := [.cmd 0x000000202000010001 Cfg.reset] }).1 = some (.swap 0 0x20000100 32) ∧
      (nextInstr { withEngine cA { ready kDma (.kExecSwap 0x20000100 32) with cursor := 5 } with
        agenda := [.run 0] }).1 = some (.rspOk 0 0) ∧
      (stepped { withEngine cA { ready kDma .cDispatch with cursor := 5 } with agenda := [.reset] }).map
        (fun t => (t.eng 0).cursor) = some 0 := by
  decide

/-- Meets the hypotheses of `ActivationsMakeNoReadinessCheck`. -/
theorem witness_ActivationsMakeNoReadinessCheck :
    { at0 cA kPlain .idle [] with agenda := [.irq 0] }.agenda = .irq 0 :: [] ∧
      { at0 cA kPlain .cDispatch [] with agenda := [.run 0, .host] }.agenda = .run 0 :: [.host] := ⟨rfl, rfl⟩

/-- Meets the hypotheses of `StoreChangesOneByte`. -/
theorem witness_StoreChangesOneByte :
    Memory.wf [(0x20000000, 0x48), (0xFFFFFFFF, 0x01)] ∧ Memory.wf (State.reset.putByte 0xFFFFFFFF 1).mem := by
  decide

/-- Meets the hypotheses of `DmaStoreLandsBetweenSteps`. -/
theorem witness_DmaStoreLandsBetweenSteps :
    Memory.wf (at0 cA kDma .cDrain []).mem ∧
      { at0 cA kDma .cDrain [] with agenda := [.dmaStore 0x20000000 0x48] }.agenda = .dmaStore 0x20000000 0x48 :: [] := by
  decide

/-- Meets the hypotheses of `RegisterReadTakesTheNextAnswer`. -/
theorem witness_RegisterReadTakesTheNextAnswer :
    (∀ p ∈ [(⟨0, .LSR, 1⟩ : Answer), ⟨1, .IIR, 2⟩], ¬ (p.i = 0 ∧ p.r = .IIR)) ∧
      (at0 cA kPlain .cDecode [⟨0, .LSR, 1⟩, ⟨1, .IIR, 2⟩, ⟨0, .IIR, 3⟩]).answers =
        [⟨0, .LSR, 1⟩, ⟨1, .IIR, 2⟩] ++ ⟨0, .IIR, 3⟩ :: [] ∧
      (at0 cA kPlain .cDecode [⟨0, .LSR, 1⟩, ⟨1, .IIR, 2⟩]).answers = [⟨0, .LSR, 1⟩, ⟨1, .IIR, 2⟩] := by
  decide

/-- Meets the hypotheses of `StepRunsTheDecodedInstruction`. -/
theorem witness_StepRunsTheDecodedInstruction :
    (State.reset.has (decodeCmd cA 0x11).inst ∧ ¬ State.reset.busy (decodeCmd cA 0x11).inst) ∧ State.reset.cmdq = [] ∧
      (at0 cA kPlain .cDecode [⟨0, .IIR, 3⟩]).live 0 ∧
      ((at0 cA kPlain .cDecode [⟨0, .IIR, 3⟩]).eng 0).phase = .cDecode ∧ cA.variant = .A ∧ cB.variant = .B ∧
      [.cRxData, .cThre, .cLine, .cTimeout, .cModem, .cTxDma, .cRxDma, .cRxDataLoop, .cTimeoutLoop].map
          (fun p => ((at0 cB kPlain p []).eng 0).phase) =
        [.cRxData, .cThre, .cLine, .cTimeout, .cModem, .cTxDma, .cRxDma, .cRxDataLoop, .cTimeoutLoop] ∧
      (at0 cB kPlain .cRxData []).live 0 ∧
      ((at0 cA kPlain .cTxDma []).eng 0).cfg.txDmaEn = false ∧ ((at0 cA kDma .cTxDma []).eng 0).cfg.txDmaEn = true ∧
      ((at0 cA kPlain .cRxDma []).eng 0).cfg.rxDmaEn = false ∧ ((at0 cA kDma .cRxDma []).eng 0).cfg.rxDmaEn = true ∧
      (0x61 : Nat) &&& cA.lsr.dr ≠ 0 := by
  decide

/-- A state for each hypothesis of `PortTakesTheOldestCommand`: a host turn, a further command, nothing said from outside; an
idle engine, a busy one, one that does not exist. -/
theorem witness_PortTakesTheOldestCommand :
    let h := { at0 cA kDma .idle [] with agenda := [.host, .run 0], cmdq := [(0x02, kDma), (0x0A, kPlain)] }
    let c := { at0 cA kDma .cDecode [] with agenda := [.cmd 0x0A kPlain], cmdq := [(0x02, kDma)] }
    let n := { at0 cA kDma .idle [] with cmdq := [(0x1A, kDma)] }
    (h.agenda = .host :: [.run 0] ∧ h.cmdq = (0x02, kDma) :: [(0x0A, kPlain)] ∧ ¬ h.busy (decodeCmd cA 0x02).inst) ∧
    (c.agenda = .cmd 0x0A kPlain :: [] ∧ c.cmdq = (0x02, kDma) :: [] ∧ c.has (decodeCmd cA 0x02).inst ∧
      c.busy (decodeCmd cA 0x02).inst) ∧
    (n.agenda = [] ∧ n.cmdq = (0x1A, kDma) :: [] ∧ ¬ n.has (decodeCmd cA 0x1A).inst ∧
      ∀ j, n.has j → ¬ n.busy j ∧ (n.eng j).heldIrq = 0) := by
  decide

/-- Meets the hypotheses of `PlacedCommandRunsFirst`. -/
theorem witness_PlacedCommandRunsFirst :
    ((8 : Nat) ≤ 8 ∨ 32 < 8) ∧ ((72 : Nat) ≤ 8 ∨ 32 < 72) ∧ ((33 : Nat) ≤ 8 ∨ 32 < 33) := by
  decide

/-- Meets the hypotheses of `PlacedIdentificationRunsFirst`. -/
theorem witness_PlacedIdentificationRunsFirst :
    ((8 : Nat) < 9 ∧ 9 ≤ 32) ∧ (8 : Nat) < 32 ∧ decodeTableWord 32 3 = some (.iirAThrEmpty 0 0) := by
  decide

/-- Meets the hypotheses of `HeldEntryStartsAfterTheCommand`. -/
theorem witness_HeldEntryStartsAfterTheCommand :
    let s := { withEngine cA { ready kDma .idle with heldIrq := 1 } with agenda := [.run 0] }
    s.live 0 ∧ s.agenda = .run 0 :: [] ∧ (s.eng 0).phase = .idle ∧ (s.eng 0).heldIrq ≠ 0 := by
  decide

/-- Meets the hypotheses of `CommandWaitsForABusyEngine`. -/
theorem witness_CommandWaitsForABusyEngine :
    cA.cmdWf = true ∧ (0x02 : Nat) &&& cA.cmdBits = 0x02 ∧ (at0 cA kDma .cDecode []).has (decodeCmd cA 0x02).inst ∧
      ((at0 cA kDma .cDecode []).eng (decodeCmd cA 0x02).inst).phase ≠ .idle := by
  decide

/-- Meets the hypotheses of `RestartResetsEveryInstance`. -/
theorem witness_RestartResetsEveryInstance :
    { at0 cA kDma .cDrain [] with agenda := [.reset, .host] }.agenda = .reset :: [.host] ∧
      (at0 cA kDma .cDrain []).has 0 := by
  decide

/-- Meets the hypotheses of `InterruptEntryStartsAnActivation`. -/
theorem witness_InterruptEntryStartsAnActivation :
    ((at0 cA kPlain .idle []).live 0 ∧ ((at0 cA kPlain .idle []).eng 0).phase = .idle ∧ cA.variant = .A) ∧
      (at0 cB kPlain .idle []).live 0 ∧ ((at0 cB kPlain .idle []).eng 0).phase = .idle ∧ cB.variant = .B := by
  decide

/-- Meets the hypotheses of `ActivationsDoNotNest`. -/
theorem witness_ActivationsDoNotNest :
    (at0 cA kPlain .cDispatch []).live 0 ∧ ((at0 cA kPlain .cDispatch []).eng 0).phase ≠ .idle := by
  decide

/-- Meets the hypotheses of `DmaTransmitDone`. -/
theorem witness_DmaTransmitDone :
    cA.wf = true ∧ (at0 cA kDma .cTxDma []).live 0 ∧ ((at0 cA kDma .cTxDma []).eng 0).cfg.txDmaEn = true ∧
      (at0 cA kPlain .cTxDma []).live 0 ∧ ((at0 cA kPlain .cTxDma []).eng 0).cfg.txDmaEn = false := by
  decide

/-- Meets the hypotheses of `DmaReceiveDone`. -/
theorem witness_DmaReceiveDone :
    cA.wf = true ∧ (at0 cA kDma .cRxDma [⟨0, .DMA_RX_LEFT, 7⟩]).live 0 ∧
      ((at0 cA kDma .cRxDma []).eng 0).cfg.rxDmaEn = true ∧
      ((at0 cA kDmaCb .cRxDma []).eng 0).cfg.rxDmaEn = true ∧ ((at0 cA kPlain .cRxDma []).eng 0).cfg.rxDmaEn = false ∧
      (at0 cA kDma .cRxDma [⟨0, .DMA_RX_LEFT, 7⟩]).answer 0 .DMA_RX_LEFT = 7 ∧
      (at0 cA kDma .cRxDma [⟨0, .DMA_RX_LEFT, 8⟩]).answer 0 .DMA_RX_LEFT = 8 := by
  decide

/-- Meets the hypotheses of `DmaTransmitStep`. -/
theorem witness_DmaTransmitStep :
    let s := { at0 cA kDma .cTxDma [⟨0, .DMA_STATUS, 1⟩] with agenda := [.run 0] }
    let u := { at0 cA kPlain .cTxDma [] with agenda := [.run 0] }
    let z := { at0 cB kDma .cTxDma [] with agenda := [.run 0] }
    (s.live 0 ∧ s.conf.wf = true ∧ (s.eng 0).phase = .cTxDma ∧ s.conf.variant = .A ∧ (s.eng 0).cfg.txDmaEn = true) ∧
      (u.live 0 ∧ (u.eng 0).phase = .cTxDma ∧ u.conf.variant = .A ∧ (u.eng 0).cfg.txDmaEn = false) ∧
      z.live 0 ∧ z.conf.wf = true ∧ (z.eng 0).phase = .cTxDma ∧ z.conf.variant = .B := by
  decide

/-- Meets the hypotheses of `DmaReceiveStep`; 7 and 8 bytes left lie on the two sides of the threshold 8. -/
theorem witness_DmaReceiveStep :
    let s := fun l => { at0 cA kDma .cRxDma [⟨0, .DMA_STATUS, 2⟩, ⟨0, .DMA_RX_LEFT, l⟩] with agenda := [.run 0] }
    let c := { at0 cA kDma .cRxDma [⟨0, .DMA_STATUS, 1⟩] with agenda := [.run 0] }
    let u := { at0 cB kDmaCb .cRxDma [⟨0, .DMA_RX_LEFT, 7⟩] with agenda := [.run 0] }
    let z := { at0 cB kPlain .cRxDma [] with agenda := [.run 0] }
    let y := { withEngine cB { ready kDma .cRxDma with iir := 0x40 } with answers := u.answers, agenda := [.run 0] }
    ((s 7).live 0 ∧ (s 7).conf.wf = true ∧ ((s 8).eng 0).phase = .cRxDma ∧
        (s 7).conf.variant = .A ∧ ((s 7).eng 0).cfg.rxDmaEn = true) ∧
      ((s 7).answer 0 .DMA_STATUS &&& cA.dmaA.rxDone ≠ 0 ∧ (c.live 0 ∧ c.answer 0 .DMA_STATUS &&& cA.dmaA.rxDone = 0)) ∧
      cA.len ((regRead 0 .DMA_STATUS (s 7)).2.answer 0 .DMA_RX_LEFT) < cA.lowWater ∧
      ¬ cA.len ((regRead 0 .DMA_STATUS (s 8)).2.answer 0 .DMA_RX_LEFT) < cA.lowWater ∧
      (u.live 0 ∧ u.conf.wf = true ∧ (u.eng 0).phase = .cRxDma ∧ u.conf.variant = .B ∧ (u.eng 0).iir &&& cB.iirB.dmaRxDone = 0) ∧
      (y.live 0 ∧ (y.eng 0).phase = .cRxDma ∧ (y.eng 0).cfg.rxDmaEn = true ∧ (y.eng 0).iir &&& cB.iirB.dmaRxDone ≠ 0) ∧
      z.live 0 ∧ (z.eng 0).cfg.rxDmaEn = false := by
  decide

/-- Meets the hypotheses of `ThrEmptyReportsTxComplete`. -/
theorem witness_ThrEmptyReportsTxComplete :
    (at0 cA kPlain .cDecode []).live 0 ∧ (at0 cB kPlain .cThre []).live 2 := by
  decide

/-- Meets the hypotheses of `ModemStatusIsReportedNotCleared`. -/
theorem witness_ModemStatusIsReportedNotCleared :
    (at0 cA kPlain .cDecode []).live 0 ∧ (at0 cB kPlain .cThre []).live 2 := by
  decide

/-- Meets the hypotheses of `LineErrorReportsEveryErrorPresent`. -/
theorem witness_LineErrorReportsEveryErrorPresent :
    cA.wf = true ∧ cB.wf = true ∧ (at0 cA kPlain .cDecode [⟨0, .LSR, 0x0A⟩]).live 0 ∧
      (at0 cA kPlain .cDecode [⟨0, .LSR, 0x0A⟩]).answer 0 .LSR = 0x0A := by
  decide

/-- Meets the hypotheses of `RxDataReportsOrDelivers`. -/
theorem witness_RxDataReportsOrDelivers :
    ((at0 cA kPlain .cDecode []).live 0 ∧ ((at0 cA kPlain .cDecode []).eng 0).cfg.rxCb = none) ∧
      (at0 cA kCb .cDecode []).live 0 ∧ ((at0 cA kCb .cDecode []).eng 0).cfg.rxCb ≠ none := by
  decide

/-- Meets the hypotheses of `TimeoutReportsOrEntersItsLoop`. -/
theorem witness_TimeoutReportsOrEntersItsLoop :
    ((at0 cA kPlain .cDecode []).live 0 ∧ ((at0 cA kPlain .cDecode []).eng 0).cfg.rxCb = none) ∧
      (at0 cA kCb .cDecode []).live 0 ∧ ((at0 cA kCb .cDecode []).eng 0).cfg.rxCb ≠ none := by
  decide

/-- Meets the hypotheses of `UnmatchedValuesAreUnexpected`. -/
theorem witness_UnmatchedValuesAreUnexpected :
    ((at0 cB kPlain .cModem []).live 0 ∧ ((at0 cB kPlain .cModem []).eng 0).ev = 0) ∧
      (withEngine cB { ready kDma .cModem with ev := 1 }).live 0 ∧ ((withEngine cB { ready kDma .cModem with ev := 1 }).eng 0).ev ≠ 0 ∧
      ((0x6 : Nat) &&& cA.iirA.mask ∉ cA.iirA.codes ∧ (0x6 : Nat) &&& cA.iirA.mask ≠ 0) ∧
      (0xF8 : Nat) &&& cA.iirA.mask ∉ cA.iirA.codes ∧ (0xF8 : Nat) &&& cA.iirA.mask = 0 := by
  decide

/-- Meets the hypotheses of `LineStatusRows`. -/
theorem witness_LineStatusRows :
    (at0 cA kCb .cTimeoutLoop [⟨0, .RBR, 0x0D⟩]).live 0 ∧ (at0 cA kCb .cTimeoutLoop [⟨0, .RBR, 0x0D⟩]).answer 0 .RBR = 0x0D := by
  decide

/-- Meets the hypotheses of `EventRowsEnterTheirBit`. -/
theorem witness_EventRowsEnterTheirBit :
    (at0 cA kPlain .cDecode []).live 0 ∧ (State.resetWith cB).live 2 := by
  decide

/-- Meets the hypotheses of `DispatchCallsTheEventSinkOnce`. -/
theorem witness_DispatchCallsTheEventSinkOnce :
    let s := { at0 cA kPlain .cDispatch [] with agenda := [.run 0] }
    s.live 0 ∧ s.agenda = .run 0 :: [] ∧ (s.eng 0).phase = .cDispatch := by
  decide

/-- A state for each clause of `DrainTurn`: a byte, a zero byte, the end of the buffer. -/
theorem witness_DrainTurn :
    let s := { at0 cA kDrain16 .cDrain [] with agenda := [.run 0], mem := [(0x20000000, 0x48)] }
    let z := { at0 cA kDrain16 (.kDrain 0x20000100 16) [] with agenda := [.run 0] }
    let e := { withEngine cA { ready kDrain16 .cDrain with cursor := 16 } with agenda := [.run 0] }
    (s.live 0 ∧ s.agenda = .run 0 :: [] ∧ (s.eng 0).phase = .cDrain ∧
      (s.eng 0).cursor < s.conf.cur (s.eng 0).cfg.rxDmaBuffLength ∧ s.byteAt 0x20000000 ≠ 0 ∧
      s.conf.lenw ≤ s.conf.curw ∧ s.conf.len (s.eng 0).cfg.rxDmaBuffLength = (s.eng 0).cfg.rxDmaBuffLength) ∧
    (z.live 0 ∧ z.agenda = .run 0 :: [] ∧ (z.eng 0).phase = .kDrain 0x20000100 16 ∧
      (z.eng 0).cursor < z.conf.cur (z.eng 0).cfg.rxDmaBuffLength ∧ z.byteAt 0x20000000 = 0) ∧
    e.live 0 ∧ e.agenda = .run 0 :: [] ∧ (e.eng 0).phase = .cDrain ∧
      ¬ (e.eng 0).cursor < e.conf.cur (e.eng 0).cfg.rxDmaBuffLength := by
  decide

/-- A state for each clause of `ReceiveLoopEnds`. -/
theorem witness_ReceiveLoopEnds :
    let s := { at0 cA kCb .cRxDataLoop [⟨0, .LSR, 0x60⟩] with agenda := [.run 0] }
    let u := { withEngine cB { ready kCb .cTimeoutLoop with n := 1 } with agenda := [.run 0], answers := [⟨0, .LSR, 0⟩] }
    let z := { at0 cA kCb .cTimeoutLoop [⟨0, .LSR, 0⟩, ⟨0, .RBR, 0xAA⟩] with agenda := [.run 0] }
    (s.live 0 ∧ s.agenda = .run 0 :: [] ∧ s.answer 0 .LSR &&& s.conf.lsr.dr = 0 ∧ (s.eng 0).phase = .cRxDataLoop) ∧
    (u.live 0 ∧ u.answer 0 .LSR &&& u.conf.lsr.dr = 0 ∧ (u.eng 0).phase = .cTimeoutLoop ∧ (u.eng 0).n ≠ 0) ∧
    z.live 0 ∧ z.answer 0 .LSR &&& z.conf.lsr.dr = 0 ∧ (z.eng 0).phase = .cTimeoutLoop ∧ (z.eng 0).n = 0 ∧
      (regRead 0 .LSR z).2.answer 0 .RBR = 0xAA := by
  decide

/-- Meets the hypotheses of `ReceiveLoopIsNotBounded`. -/
theorem witness_ReceiveLoopIsNotBounded :
    let bs : List (Nat × Nat) := [(0x01, 0x32), (0x61, 0x33)]
    let s := { at0 cA kCb .cTimeoutLoop (loopAnswers 0 bs ++ [⟨0, .LSR, 0⟩]) with agenda := [.run 0, .run 0] }
    s.live 0 ∧ (s.eng 0).phase = .cTimeoutLoop ∧ (∀ p ∈ bs, s.conf.reg p.1 &&& s.conf.lsr.dr ≠ 0) ∧
      s.answers = loopAnswers 0 bs ++ [⟨0, .LSR, 0⟩] ∧ s.agenda = List.replicate bs.length (.run 0) := by
  refine ⟨by decide, by decide, ?_, rfl, rfl⟩
  intro p hp
  simp only [List.mem_cons, List.not_mem_nil, or_false] at hp
  rcases hp with rfl | rfl <;> decide

/-- Meets the hypotheses of `PlainActivationOnVariantA`. -/
theorem witness_PlainActivationOnVariantA :
    let s := { at0 cA kPlain .idle [⟨0, .IIR, 0xFB⟩] with agenda := .irq 0 :: List.replicate 4 (.run 0) }
    let x := s.eng 0
    s.live 0 ∧ s.conf.wf = true ∧ s.conf.variant = .A ∧ x.phase = .idle ∧ x.cfg.txDmaEn = false ∧ x.cfg.rxDmaEn = false ∧
      x.cfg.rxCb = none ∧ s.answer 0 .IIR &&& s.conf.iirA.mask ≠ s.conf.iirA.lineErr ∧
      plainEventA s.conf (s.answer 0 .IIR) = 0x0080 := by
  decide

/-- Meets the hypotheses of `VariantBHandlesEverySubset`, with the line bit set and clear; the mask is that of vector VB2. -/
theorem witness_VariantBHandlesEverySubset :
    let s := { at0 cB kPlain .idle [⟨0, .IIR, 0x1F⟩, ⟨0, .LSR, 0x0A⟩] with agenda := .irq 0 :: List.replicate 9 (.run 0) }
    let x := s.eng 0
    s.live 0 ∧ s.conf.wf = true ∧ s.conf.variant = .B ∧ x.phase = .idle ∧ x.cfg.txDmaEn = false ∧ x.cfg.rxDmaEn = false ∧
      x.cfg.rxCb = none ∧ s.answer 0 .IIR &&& s.conf.iirB.lineErr ≠ 0 ∧
      plainEventsB s.conf (s.answer 0 .IIR) ((regRead 0 .IIR s).2.answer 0 .LSR) = 0xC5C0 ∧
      { s with answers := [⟨0, .IIR, 0x1E⟩] }.answer 0 .IIR &&& s.conf.iirB.lineErr = 0 ∧
      { s with answers := [⟨0, .IIR, 0x1E⟩] }.live 0 ∧ plainEventsB s.conf 0x1E 0 = 0xC0C0 := by
  decide

/-- Meets the hypotheses of `FailingCommandOnlyAnswers`. -/
theorem witness_FailingCommandOnlyAnswers :
    let s := at0 cA kPlain .idle []
    let d := { s with cfgIn := { kDma with rxDmaBuffLength := 18 } }
    s.engines.length = s.conf.nInst ∧ (s.eng 0).phase = .idle ∧
      s.failure (decodeCmd cA 0x000000202000010001) = some .dmaNotEnabled ∧
      s.meetsPremise (decodeCmd cA 0x000000202000010001) = true ∧
      s.failure (decodeCmd cA 0x000000202000010019) = some .invalidId ∧ s.failure (decodeCmd cA 0x07) = some .unsupported ∧
      s.failure (decodeCmd cA 0x0A) = some .notInit ∧
      (at0 cA kDma .idle []).failure (.swap 0 0x20000100 15) = some .bufferTooSmall ∧
      (at0 cA kDma .idle []).meetsPremise (.swap 0 0x20000100 15) = true ∧
      (withEngine cA { ready kDma .idle with powered := false }).failure (.left 0 0 0) = some .notPowered ∧
      d.failure (.initCommit 0 0 0) = some .badDmaBuffer ∧ d.meetsPremise (.initCommit 0 0 0) = true := by
  decide

/-- Meets the hypotheses of `ReservedCommandIsUnsupported`. -/
theorem witness_ReservedCommandIsUnsupported :
    (State.resetWith cA).engines.length = cA.nInst ∧ ¬ (State.resetWith cA).has 3 ∧ (State.resetWith cA).has 2 ∧
      ((State.resetWith cA).eng 2).phase = .idle := by
  decide

/-- Meets the hypotheses of `InitCommitWritesTheRecord`; the second buffer ends at the top of the address space. -/
theorem witness_InitCommitWritesTheRecord :
    let s := { State.resetWith cA with cfgIn := kPlain }
    let d := { State.resetWith cA with cfgIn := { kDma with rxDmaBuffer := 0xFFFFFFC0 } }
    (s.live 0 ∧ (s.eng 0).phase = .idle ∧ s.failure (.initCommit 0 0 0) = none ∧ s.cfgIn.rxDmaEn = false ∧
      fits cA s.cfgIn.rxDmaBuffer s.cfgIn.rxDmaBuffLength ∧ sampled cA s.cfgIn = s.cfgIn) ∧
    d.live 0 ∧ (d.eng 0).phase = .idle ∧ d.failure (.initCommit 0 0 0) = none ∧ d.cfgIn.rxDmaEn = true ∧
      fits cA d.cfgIn.rxDmaBuffer d.cfgIn.rxDmaBuffLength ∧ sampled cA d.cfgIn = d.cfgIn := by
  decide

/-- Meets the hypotheses of `InitCommitClearsTheBuffer`. -/
theorem witness_InitCommitClearsTheBuffer :
    let s := { State.resetWith cA with
      agenda := .cmd (cmdWord cA cA.cmd.initCommit 0 0 0) kDrain16 :: List.replicate 17 (.run 0), mem := [(0x20000003, 0x48)] }
    s.live 0 ∧ (s.eng 0).phase = .idle ∧ Memory.wf s.mem ∧ s.conf.wf = true ∧ s.cmdq = [] ∧
      { s with cfgIn := kDrain16 }.failure (.initCommit 0 0 0) = none ∧ sampled cA kDrain16 = kDrain16 ∧
      kDrain16.rxDmaEn = true ∧ fits cA kDrain16.rxDmaBuffer kDrain16.rxDmaBuffLength := by
  decide

/-- Meets the hypotheses of `BufferPastTheTopIsRefused`, one byte past the top, without RX DMA and with a failing check. -/
theorem witness_BufferPastTheTopIsRefused :
    let d := { State.resetWith cA with cfgIn := { kPlain with rxDmaBuffer := 0xFFFFFFC1, rxDmaBuffLength := 64 } }
    let s := at0 cA kPlain .idle []
    (d.has 0 ∧ (d.eng 0).phase = .idle ∧ 2 ^ cA.addrw < d.cfgIn.rxDmaBuffer + d.cfgIn.rxDmaBuffLength ∧
      sampled cA d.cfgIn = d.cfgIn ∧ d.failure (.initCommit 0 0 0) = none) ∧
    s.has 0 ∧ (s.eng 0).phase = .idle ∧ s.failure (.swap 0 0xFFFFFFE1 32) = some .dmaNotEnabled ∧
      2 ^ cA.addrw < cA.addr 0xFFFFFFE1 + cA.len 32 := by
  decide

/-- Meets the hypotheses of `SwapReprogramsTheReceiver`. -/
theorem witness_SwapReprogramsTheReceiver :
    let s := at0 cA kDma .idle []
    let d := at0 cA kDmaCb .idle []
    (s.live 0 ∧ s.conf.wf = true ∧ (s.eng 0).phase = .idle ∧ s.failure (.swap 0 0xFFFFFFE0 32) = none ∧
      fits cA (cA.addr 0xFFFFFFE0) (cA.len 32) ∧
      (s.eng 0).cfg.rxCb = none) ∧
    d.live 0 ∧ (d.eng 0).phase = .idle ∧ d.failure (.swap 0 0xFFFFFFE0 32) = none ∧ (d.eng 0).cfg.rxCb ≠ none := by
  decide

/-- The state of vector SW1: two of three bytes delivered, a zero byte after the third. -/
def swapSW1 : State :=
  { withEngine cA { ready kDrain16 .idle with cursor := 2 } with
    mem := [(0x20000000, 0x41), (0x20000001, 0x42), (0x20000002, 0x43)]
    agenda := .cmd (cmdWord cA cA.cmd.swap 0 0x20000100 32) Cfg.reset :: List.replicate 3 (.run 0) }

/-- Meets the hypotheses of `SwapDeliversPendingBytesFirst`. -/
theorem witness_SwapDeliversPendingBytesFirst :
    let s := swapSW1
    s.live 0 ∧ (s.eng 0).phase = .idle ∧ s.cmdq = [] ∧ s.conf.wf = true ∧
      s.failure (.swap 0 0x20000100 32) = none ∧ fits cA (cA.addr 0x20000100) (cA.len 32) ∧
      (s.eng 0).cfg.rxCb ≠ none ∧ pendingBytes s (s.eng 0) 1 := by
  refine ⟨by decide, by decide, by decide, by decide, by decide, by decide, by decide, by decide, ?_, by decide⟩
  intro k hk
  obtain rfl : k = 0 := by omega
  decide

/-- Meets the hypotheses of `LeftAnswersTheRemainingLength`. -/
theorem witness_LeftAnswersTheRemainingLength :
    let s := at0 cA kDma .idle [⟨0, .DMA_RX_LEFT, 40⟩]
    s.engines.length = s.conf.nInst ∧ (s.eng 0).phase = .idle ∧ s.failure (.left 0 0 0) = none ∧
      s.failure (.left 1 0 0) = some .notInit ∧ (s.eng 1).phase = .idle ∧
      s.failure (.left 3 0 0) = some .invalidId ∧ ¬ s.has 3 := by
  decide

/-- Meets the hypotheses of `TxDmaStartProgramsTheTransmitter`. -/
theorem witness_TxDmaStartProgramsTheTransmitter :
    let s := at0 cA kDma .idle []
    let u := at0 cA kPlain .idle []
    cA.wf = true ∧ s.engines.length = s.conf.nInst ∧ (s.eng 0).phase = .idle ∧ s.failure (.txdmaStart 0 0x20000200 5) = none ∧
      u.engines.length = u.conf.nInst ∧ (u.eng 0).phase = .idle ∧ u.failure (.txdmaStart 0 0x20000200 5) = some .dmaNotEnabled := by
  decide

/-- Meets the hypotheses of `MarksChangeTheFlagsOnly`. -/
theorem witness_MarksChangeTheFlagsOnly :
    let s := at0 cA kPlain .idle []
    s.engines.length = s.conf.nInst ∧ s.has 0 ∧ (s.eng 0).phase = .idle ∧ (s.eng 0).initialized = true ∧
      s.has 2 ∧ (s.eng 2).phase = .idle ∧ (s.eng 2).initialized = false ∧ ¬ s.has 3 := by
  decide

/-- Meets the hypotheses of `ResponseRowsAnswerTheirStatus`. -/
theorem witness_ResponseRowsAnswerTheirStatus :
    (at0 cA kDma (.kExecFill 64) []).live 0 ∧ (State.resetWith cB).live 2 ∧ ¬ (State.resetWith cB).has 3 := by
  decide

end Sys2Proof.Tests
end

section
/-! PROOF. What a step adds to the trace: actions of one engine, each of its widths, but for the call of the event sink that
ends an activation, whose mask is the engine's `ev`. One lemma per operation, then per row, per phase and per turn; the
widths follow once the mask of that call has its own, which the invariant gives. -/

namespace Sys2Proof.Machine

/-! ### Growing the trace -/

/-- An action of engine `i` that has its widths, or the call of its event sink with the mask `m`. -/
def Act.Allowed (c : Config) (i : InstId) (m : Nat) (a : Act) : Prop :=
  a.inst = i ∧ (a.hasWidths c ∨ a = .eventSink i m)

/-- From `s` to `t` no parameter changes, and the trace grows by allowed actions of engine `i`. -/
structure Performs (i : InstId) (m : Nat) (s t : State) : Prop where
  conf  : t.conf = s.conf
  trace : ∃ acts, t.trace = s.trace ++ acts ∧ ∀ a ∈ acts, a.Allowed s.conf i m

/-- An allowed action has its widths where the event mask has its own. -/
theorem Act.Allowed.hasWidths {c : Config} {i : InstId} {m : Nat} {a : Act} (h : a.Allowed c i m)
    (hm : clip c.evw m = m) : a.hasWidths c := by
  obtain ⟨-, h | rfl⟩ := h
  · exact h
  · exact hm

section
variable {i : InstId} {m : Nat} {s t u : State}

theorem Performs.refl : Performs i m s s := ⟨rfl, [], by simp⟩

/-- A change that leaves parameters and trace. -/
theorem Performs.keep (h : Performs i m s t) (hc : u.conf = t.conf) (ht : u.trace = t.trace) : Performs i m s u := by
  obtain ⟨conf, acts, trace, allowed⟩ := h
  exact ⟨hc.trans conf, acts, ht.trans trace, allowed⟩

/-- A change that performs one allowed action and leaves the parameters. -/
theorem Performs.grow (h : Performs i m s t) (a : Act) (ha : a.Allowed t.conf i m) (hc : u.conf = t.conf)
    (ht : u.trace = t.trace ++ [a]) : Performs i m s u := by
  obtain ⟨conf, acts, trace, allowed⟩ := h
  refine ⟨hc.trans conf, acts ++ [a], by rw [ht, trace, List.append_assoc], fun b hb => ?_⟩
  rcases List.mem_append.1 hb with hb | hb
  · exact allowed b hb
  · rw [List.mem_singleton.1 hb, ← conf]
    exact ha

/-! ### The operations -/

theorem Performs.upd (h : Performs i m s t) (j : InstId) (f : Engine → Engine) : Performs i m s (t.upd j f) :=
  h.keep rfl rfl

theorem Performs.read (h : Performs i m s t) (r : Reg) : Performs i m s (regRead i r t).2 :=
  h.grow (.regRead i r _) ⟨rfl, .inl (regRead_width t i r)⟩ (regRead_conf t i r) (regRead_trace t i r)

theorem Performs.write (h : Performs i m s t) (r : Reg) (v : Nat) : Performs i m s (regWrite i r v t) :=
  h.grow (.regWrite i r _) ⟨rfl, .inl (reg_reg t.conf v)⟩ rfl rfl

theorem Performs.memRead (h : Performs i m s t) (buffer k : Nat) (b : Byte) :
    Performs i m s (t.emit (.memRead i (bufByte t.conf buffer k) b)) :=
  h.grow (.memRead i _ b) ⟨rfl, .inl (addr_addr t.conf (buffer + k))⟩ rfl rfl

theorem Performs.memWrite (h : Performs i m s t) (buffer k : Nat) (b : Byte) :
    Performs i m s (memWrite i (bufByte t.conf buffer k) b t) :=
  h.grow (.memWrite i _ b) ⟨rfl, .inl (addr_addr t.conf (buffer + k))⟩ rfl rfl

theorem Performs.byteSink (h : Performs i m s t) (b : Byte) : Performs i m s (byteSink i b t) :=
  h.grow (.byteSink i b) ⟨rfl, .inl trivial⟩ rfl rfl

theorem Performs.eventSink (h : Performs i m s t) : Performs i m s (eventSink i m t) :=
  h.grow (.eventSink i m) ⟨rfl, .inr rfl⟩ rfl rfl

theorem Performs.respond (h : Performs i m s t) (st : Status) {v : Nat} (hv : t.conf.len v = v) :
    Performs i m s (respond i st v t) :=
  (h.upd i fun x => { x with phase := .idle }).grow (.ret i st v) ⟨rfl, .inl hv⟩ rfl rfl

/-- A response without a value. -/
theorem Performs.respondZero (h : Performs i m s t) (st : Status) : Performs i m s (Machine.respond i st 0 t) :=
  h.respond st (len_zero t.conf)

theorem Performs.readLeft (h : Performs i m s t) : Performs i m s (readLeft i t).2 := by
  rw [readLeft_eq]
  exact (h.read .DMA_RX_LEFT).upd i _

/-- The remaining length has `LENW` bits. -/
theorem readLeft_width : (readLeft i t).2.conf.len (readLeft i t).1 = (readLeft i t).1 := by simp [readLeft_eq]

theorem Performs.readLsr (h : Performs i m s t) : Performs i m s (readLsr i t).2 := (h.read .LSR).upd i _

/-- One received byte: its read and its delivery. -/
theorem Performs.deliverRbr (h : Performs i m s t) :
    Performs i m s (Machine.byteSink i (readRbr i t).1 (readRbr i t).2) :=
  ((h.read .RBR).upd i _).byteSink _

theorem Performs.swapCommit (h : Performs i m s t) (a n : Nat) : Performs i m s (swapCommit i a n t) :=
  ((((h.write .DMA_RX_EN 0).write .DMA_RX_ADDR a).write .DMA_RX_LEN n).write .DMA_RX_EN 1).upd i _

theorem Performs.drainTurn (h : Performs i m s t) : Performs i m s (drainTurn i t).2 := by
  by_cases hc : (t.eng i).cursor < scanEnd t.conf (t.eng i)
  · by_cases hb : t.byteAt (bufByte t.conf (t.eng i).cfg.rxDmaBuffer (t.eng i).cursor) = 0
    · rw [drainTurn_zero hc hb]
      exact (h.memRead _ _ _).upd i _
    · rw [drainTurn_deliver hc hb]
      exact ((h.memRead _ _ _).byteSink _).upd i _
  · rw [drainTurn_end hc]
    exact h

theorem Performs.fillTurn (h : Performs i m s t) (k : Nat) : Performs i m s (fillTurn i k t).2 := by
  by_cases hk : k < (t.eng i).cfg.rxDmaBuffLength
  · rw [fillTurn_write hk]
    exact (h.memWrite _ _ _).upd i _
  · rw [fillTurn_end hk]
    exact h

/-! ### Activations and handlers -/

theorem Performs.enterActivation (h : Performs i m s t) : Performs i m s (enterActivation i t) := by
  simp only [Machine.enterActivation]
  split
  · exact (h.upd i _).upd i _
  · exact ((h.upd i _).read .IIR).upd i _

/-- The return of an activation makes the one call of the event sink, with the mask `ev`. -/
theorem leaveActivation_performs : Performs i (s.eng i).ev s (leaveActivation i s) := by
  simp only [leaveActivation]
  split
  · exact Performs.refl.eventSink.upd i _
  · exact Performs.refl.upd i _

theorem Performs.hRxData (h : Performs i m s t) (p : Phase) : Performs i m s (hRxData i p t) := by
  simp only [Machine.hRxData]
  split
  · exact h.deliverRbr.upd i _
  · exact (h.upd i _).upd i _

theorem Performs.hLine (h : Performs i m s t) (v : Variant) (p : Phase) : Performs i m s (hLine v i p t) := by
  simp only [Machine.hLine, lineErrorEvents_eq]
  cases v
  · exact (h.readLsr.upd i _).upd i _
  · exact ((h.readLsr.upd i _).write .LSR _).upd i _

theorem Performs.hTimeout (h : Performs i m s t) (p : Phase) : Performs i m s (hTimeout i p t) := by
  simp only [Machine.hTimeout]
  split
  · exact h.upd i _
  · exact (h.upd i _).upd i _

theorem Performs.receiveByte (h : Performs i m s t) : Performs i m s (receiveByte i t) := h.deliverRbr.upd i _

theorem Performs.dmaTxDone (h : Performs i m s t) (r : Reg) (v : Nat) : Performs i m s (dmaTxDone i r v t) := by
  simp only [Machine.dmaTxDone]
  split
  · exact (((h.write r v).write .DMA_TX_EN 0).upd i _).upd i _
  · exact h.upd i _

theorem Performs.lowWaterEvent (h : Performs i m s t) (left : Nat) : Performs i m s (lowWaterEvent i left t) := by
  rw [lowWaterEvent_eq]
  exact h.upd i _

theorem Performs.dmaRxDone (h : Performs i m s t) (r : Reg) (v : Nat) : Performs i m s (dmaRxDone i r v t) := by
  have tested := (h.write r v).readLeft.lowWaterEvent (Machine.readLeft i (regWrite i r v t)).1
  simp only [Machine.dmaRxDone]
  split
  · split
    · exact tested.upd i _
    · exact (tested.upd i _).upd i _
  · exact h.upd i _

theorem Performs.unexpectedIfNone (h : Performs i m s t) : Performs i m s (unexpectedIfNone i t) := by
  unfold Machine.unexpectedIfNone
  split
  · exact h.upd i _
  · exact h

end

/-! ### Rows -/

/-- A next state that the answer holds is reached by allowed actions of engine `i`. -/
def AnswerPerforms (i : InstId) (m : Nat) (s : State) (r : Result) : Prop := ∀ t, r = .next t → Performs i m s t

section
variable {i : InstId} {m : Nat} {s t : State}

theorem Performs.next (h : Performs i m s t) : AnswerPerforms i m s (.next t) := by
  rintro u ⟨⟩
  exact h

theorem onInst_performs {f : State → State} (h : Performs i m s (f s)) : AnswerPerforms i m s (onInst i f s) := by
  intro t ht
  obtain ⟨-, rfl⟩ := onInst_next ht
  exact h

theorem withinSpace_performs {buffer length : Nat} {own : State → Result} (h : AnswerPerforms i m s (own s)) :
    AnswerPerforms i m s (withinSpace buffer length own s) :=
  fun t ht => h t (withinSpace_next ht).2

theorem checked_performs {fails : Option Status} {effect : State → Result} (h : AnswerPerforms i m s (effect s)) :
    AnswerPerforms i m s (checked i fails effect s) := by
  cases fails with
  | none => exact h
  | some st => exact (Performs.refl.respondZero st).next

theorem command_performs {w : Nat} {own : State → Result} (h : AnswerPerforms i m s (own s)) :
    AnswerPerforms i m s (command w i own s) := by
  unfold command
  split
  · split
    · exact h
    · exact Performs.next (.keep .refl rfl rfl)
  · exact (Performs.refl.respondZero .invalidId).next

theorem execIrq_performs : AnswerPerforms i m s (execIrq i s) := by
  refine onInst_performs ?_
  split
  · exact Performs.refl.enterActivation
  · exact Performs.refl.upd i _

theorem execInitCommit_performs (a b : Nat) : AnswerPerforms i m s (execInitCommit i a b s) := by
  refine command_performs (withinSpace_performs (checked_performs ?_))
  split
  · exact ((Performs.refl.upd i _).upd i _).next
  · exact ((Performs.refl.upd i _).respondZero .ok).next

theorem execSwap_performs (a b : Nat) : AnswerPerforms i m s (execSwap i a b s) := by
  refine command_performs (withinSpace_performs (checked_performs ?_))
  split
  · exact (Performs.refl.upd i _).next
  · exact ((Performs.refl.swapCommit _ _).respondZero .ok).next

theorem execLeft_performs (a b : Nat) : AnswerPerforms i m s (execLeft i a b s) :=
  command_performs (checked_performs (Performs.refl.readLeft.respond .ok readLeft_width).next)

theorem execTxdmaStart_performs (a b : Nat) : AnswerPerforms i m s (execTxdmaStart i a b s) :=
  command_performs (checked_performs
    ((((Performs.refl.write .DMA_TX_ADDR _).write .DMA_TX_LEN _).write .DMA_TX_EN 1).respondZero .ok).next)

/-- A row performs allowed actions of its own engine, and calls no event sink: `m` is any mask. -/
theorem exec_performs (r : Instr) : AnswerPerforms r.inst m s (exec r s) := by
  unfold exec
  cases r
  case irq => exact execIrq_performs
  case initCommit a b => exact execInitCommit_performs a b
  case swap a b => exact execSwap_performs a b
  case left a b => exact execLeft_performs a b
  case txdmaStart a b => exact execTxdmaStart_performs a b
  case powerOffMark i _ _ | powerOnMark i _ _ | uninitMark i _ _ =>
    exact command_performs (checked_performs ((Performs.refl.upd i _).respondZero .ok).next)
  case reserved7 => exact command_performs (Performs.refl.respondZero .unsupported).next
  case iirALineErr | iirBLineErr => exact onInst_performs (Performs.refl.hLine _ _)
  case iirARxData | iirBRxData => exact onInst_performs (Performs.refl.hRxData _)
  case iirATimeout | iirBTimeout => exact onInst_performs (Performs.refl.hTimeout _)
  case iirAThrEmpty i _ | iirBThrEmpty i _ | iirAModem i _ | iirBModem i _
      | iirAUnexpected6 i _ | iirAUnexpected7 i _ =>
    exact onInst_performs ((Performs.refl.upd i _).upd i _)
  case iirANone i _ => exact onInst_performs (Performs.refl.upd i _)
  case iirBNoneMatched i _ => exact onInst_performs (Performs.refl.unexpectedIfNone.upd i _)
  case iirBDmaTxDone | dmaStatusATxDone => exact onInst_performs (Performs.refl.dmaTxDone _ _)
  case iirBDmaRxDone | dmaStatusARxDone => exact onInst_performs (Performs.refl.dmaRxDone _ _)
  case lsrDr => exact onInst_performs Performs.refl.receiveByte
  case lsrTxEmpty => exact onInst_performs Performs.refl
  case rspOk v => exact (Performs.refl.respond .ok (len_len s.conf v)).next
  case rspInvalidId | rspNotInit | rspNotPowered | rspDmaNotEnabled
      | rspBufferTooSmall | rspBadDmaBuffer | rspUnsupported =>
    exact (Performs.refl.respondZero _).next
  -- the error rows of `LSR` and the rows of `EV` enter an event
  all_goals exact onInst_performs (Performs.refl.upd _ _)

end

/-! ### Phases and turns -/

section
variable {i : InstId} {m : Nat} {s t : State}

theorem Performs.test (h : Performs i m s t) (row : Option Instr) (p : Phase) :
    Performs i m s (test row i p t).2 := by
  cases row with
  | none => exact h.upd i _
  | some r => exact h

theorem seqTxDma_performs : Performs i m s (seqTxDma i s).2 := by
  unfold seqTxDma
  split
  · split
    · exact (Performs.refl.read .DMA_STATUS).test _ _
    · exact Performs.refl.upd i _
  · exact Performs.refl.test _ _

theorem seqRxDma_performs : Performs i m s (seqRxDma i s).2 := by
  unfold seqRxDma
  split
  · split
    · exact (Performs.refl.read .DMA_STATUS).test _ _
    · exact Performs.refl.upd i _
  · exact Performs.refl.test _ _

/-- What follows a turn of the drain changes at most the phase. -/
theorem seqDrain_performs : Performs i m s (seqDrain i s).2 := by
  have drained : Performs i m s (drainTurn i s).2 := Performs.refl.drainTurn
  unfold seqDrain
  split
  · next u hu =>
    rw [hu] at drained
    exact drained
  · next u hu =>
    rw [hu] at drained
    exact drained.upd i _

theorem seqSwapDrain_performs (a n : Nat) : Performs i m s (seqSwapDrain i a n s).2 := by
  have drained : Performs i m s (drainTurn i s).2 := Performs.refl.drainTurn
  unfold seqSwapDrain
  split
  · next u hu =>
    rw [hu] at drained
    exact drained
  · next u hu =>
    rw [hu] at drained
    exact drained.upd i _

theorem seqFill_performs (k : Nat) : Performs i m s (seqFill i k s).2 := by
  have filled : Performs i m s (fillTurn i k s).2 := Performs.refl.fillTurn k
  unfold seqFill
  split <;> next u hu =>
    rw [hu] at filled
    exact filled

theorem seqDecode_performs : Performs i m s (seqDecode i s).2 := by
  unfold seqDecode
  split
  · exact (Performs.refl.read .IIR).upd i _
  · exact Performs.refl.upd i _

theorem seqModem_performs : Performs i m s (seqModem i s).2 := by
  unfold seqModem
  split
  · exact Performs.refl
  · exact Performs.refl.test _ _

theorem seqRxDataLoop_performs : Performs i m s (seqRxDataLoop i s).2 := by
  have status : Performs i m s (readLsr i s).2 := Performs.refl.readLsr
  simp only [seqRxDataLoop]
  split
  · exact status
  · exact status.upd i _

theorem seqTimeoutLoop_performs : Performs i m s (seqTimeoutLoop i s).2 := by
  have status : Performs i m s (readLsr i s).2 := Performs.refl.readLsr
  simp only [seqTimeoutLoop]
  split
  · exact status
  · split
    · exact (status.read .RBR).upd i _
    · exact status.upd i _

/-- A phase performs allowed actions of its own engine; the mask its event sink is called with is its `ev`. -/
theorem seqEngine_performs : Performs i (s.eng i).ev s (seqEngine i s).2 := by
  unfold seqEngine
  cases (s.eng i).phase
  case idle => exact Performs.refl
  case cTxDma => exact seqTxDma_performs
  case cRxDma => exact seqRxDma_performs
  case cDrain => exact seqDrain_performs
  case cDecode => exact seqDecode_performs
  case cRxData | cThre | cLine | cTimeout => exact Performs.refl.test _ _
  case cRxDataLoop => exact seqRxDataLoop_performs
  case cTimeoutLoop => exact seqTimeoutLoop_performs
  case cModem => exact seqModem_performs
  case cDispatch => exact leaveActivation_performs
  case kDrain a n => exact seqSwapDrain_performs a n
  case kExecSwap a n => exact Performs.refl.swapCommit a n
  case kExecFill k => exact seqFill_performs k

theorem engineTurn_performs : Performs i (s.eng i).ev s (engineTurn i s).2 := by
  unfold engineTurn
  split
  · exact Performs.refl
  · split
    · exact seqEngine_performs
    · split
      · exact Performs.refl
      · exact Performs.refl.upd i _

/-- A turn of port `cmd` performs no action. -/
theorem Performs.hostTurn (h : Performs i m s t) : Performs i m s (hostTurn t).2 := by
  unfold Machine.hostTurn
  split
  · exact h
  · dsimp only
    split
    · exact h
    · exact h.keep rfl rfl

theorem autoTurn_performs : ∃ i, Performs i (s.eng i).ev s (autoTurn s).2 := by
  unfold autoTurn
  split
  · exact ⟨_, engineTurn_performs⟩
  · split
    · exact ⟨_, engineTurn_performs⟩
    · exact ⟨0, Performs.refl.hostTurn⟩

/-- What the outside world does next does not matter to what is performed. -/
theorem Performs.of_withAgenda {l : List Turn} (h : Performs i m { s with agenda := l } t) : Performs i m s t :=
  ⟨h.conf, h.trace⟩

/-- Before its row is executed a step performs allowed actions of one engine. -/
theorem nextInstr_performs : ∃ i, Performs i (s.eng i).ev s (nextInstr s).2 := by
  unfold nextInstr
  rcases s.agenda with _ | ⟨turn, rest⟩
  · exact autoTurn_performs
  · cases turn
    case irq | dmaStore | reset => exact ⟨0, .keep .refl rfl rfl⟩
    case cmd | host => exact ⟨0, .hostTurn (.keep .refl rfl rfl)⟩
    case run i => exact ⟨i, (engineTurn_performs (s := { s with agenda := rest })).of_withAgenda⟩

end

/-! ### Widths -/

section
variable {c : Config} {s t : State}

/-- The union of the event masks has `EVW` bits. -/
theorem union_lt (h : c.wf = true) : c.ev.union < 2 ^ c.evw := by
  simp only [Config.wf, Config.constsWf, Bool.and_eq_true, List.all_eq_true, beq_iff_eq] at h
  obtain ⟨-, -, masks⟩ := h
  exact List.foldlRecOn (motive := (· < 2 ^ c.evw)) _ _ (Nat.two_pow_pos _)
    fun acc hacc e he => Nat.or_lt_two_pow hacc ((clip_eq_self _ _).1 (masks e he))

/-- The invariant gives `ev` its width: it holds event bits only. -/
theorem State.Inv.clip_ev (h : s.Inv) (hc : s.conf.wf = true) (i : InstId) :
    clip s.conf.evw (s.eng i).ev = (s.eng i).ev := by
  unfold State.eng
  cases hx : s.engines[i.toNat]? with
  | none => exact clip_zero _
  | some x =>
    have events := (h.engines x (List.mem_of_getElem? hx)).events
    exact (clip_eq_self _ _).2 (events ▸ Nat.and_lt_two_pow x.ev (union_lt hc))

/-- What a run of allowed actions adds to the trace has its widths where the event mask has its own. -/
theorem Performs.widths {i : InstId} {m : Nat} (h : Performs i m s t) (hm : clip s.conf.evw m = m) :
    ∃ acts, t.trace = s.trace ++ acts ∧ ∀ a ∈ acts, a.hasWidths s.conf := by
  obtain ⟨-, acts, trace, allowed⟩ := h
  exact ⟨acts, trace, fun a ha => (allowed a ha).hasWidths hm⟩

/-- A next state is that of a turn without a row, or what the row of the turn answers. -/
theorem step_next (h : step s = .next t) :
    nextInstr s = (none, t) ∨ ∃ r u, nextInstr s = (some r, u) ∧ exec r u = .next t := by
  rcases hn : nextInstr s with ⟨_ | r, u⟩
  · rw [step_none hn] at h
    injection h with h
    exact .inl (by rw [h])
  · exact .inr ⟨r, u, rfl, (step_some hn).symm.trans h⟩

end

/-- Settles O56: the turn and the row of a step perform allowed actions, and the one event mask among them is an `ev`. -/
theorem everyActionHasItsWidth : Obligations.EveryActionHasItsWidth := by
  intro s t hinv hwf hstep
  obtain ⟨i, turn⟩ := nextInstr_performs (s := s)
  obtain ⟨acts, htrace, hacts⟩ := turn.widths (hinv.clip_ev hwf i)
  rcases step_next hstep with hn | ⟨r, u, hn, hr⟩ <;> rw [hn] at turn htrace
  · exact ⟨acts, htrace, hacts⟩
  · obtain ⟨more, hmore, hwidths⟩ := (exec_performs (m := 0) r t hr).widths (clip_zero _)
    rw [turn.conf] at hwidths
    exact ⟨acts ++ more, by rw [hmore, htrace, List.append_assoc], List.forall_mem_append.2 ⟨hacts, hwidths⟩⟩

end Sys2Proof.Machine
end

section
/-! PROOF. What the operations of one engine keep: the records of the other engines, the agenda, and the invariant. First
the changes of a record that meet the record's invariant, then one lemma per operation, per row, per phase and per turn. -/

namespace Sys2Proof.Machine

/-! ### Event bits -/

/-- The mask holds event bits only (spec/30_encoding.md R86). -/
def EventBits (c : Config) (m : Nat) : Prop := m &&& c.ev.union = m

section
variable {c : Config} {m n : Nat}

/-- A mask that stands in a list, or is inside the mask before it, is inside the OR of the two. -/
theorem and_foldl_or {l : List Nat} {acc : Nat} (h : m &&& acc = m ∨ m ∈ l) :
    m &&& l.foldl (fun acc m => acc ||| m) acc = m := by
  induction l generalizing acc with
  | nil => simpa using h
  | cons a l ih =>
    refine ih ?_
    rcases h with h | h
    · left
      apply Nat.eq_of_testBit_eq
      intro k
      have := congrArg (fun x => x.testBit k) h
      simp at this ⊢
      tauto
    · rcases List.mem_cons.1 h with rfl | h
      · exact .inl (by rw [Nat.and_comm, or_and_self])
      · exact .inr h

/-- The mask of an event holds event bits only. -/
theorem eventBits_of_mem (h : m ∈ c.ev.all := by simp [EncEv.all]) : EventBits c m := and_foldl_or (.inr h)

theorem eventBits_zero : EventBits c 0 := Nat.zero_and _

theorem EventBits.or (hm : EventBits c m) (hn : EventBits c n) : EventBits c (m ||| n) := by
  unfold EventBits at *
  rw [Nat.and_or_distrib_right, hm, hn]

/-- The mask of an event that is entered under a condition. -/
theorem EventBits.ite {p : Prop} [Decidable p] (hm : EventBits c m) : EventBits c (if p then m else 0) := by
  split
  · exact hm
  · exact eventBits_zero

/-- The events of a line status. -/
theorem eventBits_lineErrors (l : Nat) : EventBits c (lineErrors c l) :=
  (((EventBits.ite eventBits_of_mem).or (.ite eventBits_of_mem)).or (.ite eventBits_of_mem)).or (.ite eventBits_of_mem)

end

/-! ### The invariant of a record -/

/-- The phase carries no arguments of a command. -/
def Phase.plain : Phase → Bool
  | .kDrain _ _ | .kExecSwap _ _ | .kExecFill _ => false
  | _ => true

/-- The arguments of a `SWAP` that has passed its checks: the buffer inside the address space (spec/20_memory.md R55), the
length not below the minimum (spec/42_dma_cursor.md R173), each of its width. -/
def SwapArgs (c : Config) (buffer length : Nat) : Prop :=
  fits c buffer length ∧ c.rxDmaMinLen ≤ length ∧ c.addr buffer = buffer ∧ c.len length = length

/-- The record at reset meets the invariant. -/
theorem engine_reset_inv (c : Config) : Engine.reset.Inv c where
  powered := by simp [Engine.reset]
  cursor := by simp [Engine.reset]
  buffer := by simp [Engine.reset, Cfg.reset]
  minimum := by simp [Engine.reset, Cfg.reset]
  events := eventBits_zero
  values := by simp [Engine.reset]
  record := by simp [Engine.reset, Cfg.reset]
  phase := trivial

section
variable {c : Config} {x : Engine}

/-- Working registers may take any values of their widths, and the byte, the count, the held entries and the write side of
the UART any values. -/
theorem Engine.Inv.working (h : x.Inv c) {iir v l left n held : Nat} {b : Byte} {uart : Uart}
    (hv : c.reg iir = iir ∧ c.reg v = v ∧ c.reg l = l ∧ c.len left = left) :
    Engine.Inv c { x with iir := iir, v := v, left := left, n := n, b := b, l := l, heldIrq := held, uart := uart } :=
  { h with values := hv }

theorem Engine.Inv.setPhase (h : x.Inv c) {p : Phase} (hp : p.plain = true) : Engine.Inv c { x with phase := p } :=
  { h with
    phase := by
      cases p with
      | kDrain | kExecSwap | kExecFill => cases hp
      | _ => trivial }

/-- The phases of a `SWAP` carry arguments that have passed its checks. -/
theorem Engine.Inv.toSwap (h : x.Inv c) {a n : Nat} (args : SwapArgs c a n) :
    Engine.Inv c { x with phase := .kDrain a n } ∧ Engine.Inv c { x with phase := .kExecSwap a n } :=
  ⟨{ h with phase := args }, { h with phase := args }⟩

/-- The zero fill is inside the buffer. -/
theorem Engine.Inv.toFill (h : x.Inv c) {k : Nat} (hk : k ≤ x.cfg.rxDmaBuffLength) :
    Engine.Inv c { x with phase := .kExecFill k } :=
  { h with phase := hk }

theorem Engine.Inv.setEv (h : x.Inv c) {m : Nat} (hm : EventBits c m) : Engine.Inv c { x with ev := m } :=
  { h with events := hm }

/-- The drain moves the cursor on inside its scan (spec/42_dma_cursor.md R166). -/
theorem Engine.Inv.advance (h : x.Inv c) (hc : x.cursor < scanEnd c x) :
    Engine.Inv c { x with cursor := x.cursor + 1 } :=
  { h with
    cursor := fun _ => ⟨Nat.le_trans hc scanEnd_le, hc⟩
    record := ⟨h.record.1, h.record.2.1, cur_succ hc⟩ }

/-- An instance may be powered if it is initialized. -/
theorem Engine.Inv.setFlags (h : x.Inv c) {initialized powered : Bool} (hp : powered = true → initialized = true) :
    Engine.Inv c { x with initialized := initialized, powered := powered } :=
  { h with powered := hp }

/-- A configuration whose buffer has passed the checks may be stored, with the cursor at 0, but not during a zero fill. -/
theorem Engine.Inv.setBuffer (h : x.Inv c) {cfg : Cfg} (hb : fits c cfg.rxDmaBuffer cfg.rxDmaBuffLength)
    (hmin : cfg.rxDmaEn = true → c.rxDmaMinLen ≤ cfg.rxDmaBuffLength) (ha : c.addr cfg.rxDmaBuffer = cfg.rxDmaBuffer)
    (hl : c.len cfg.rxDmaBuffLength = cfg.rxDmaBuffLength) (hp : ∀ k, x.phase ≠ .kExecFill k) :
    Engine.Inv c { x with cfg := cfg, cursor := 0 } :=
  { h with
    cursor := fun _ => ⟨Nat.zero_le _, Nat.zero_le _⟩
    buffer := hb
    minimum := hmin
    record := ⟨ha, hl, cur_zero c⟩
    phase := by
      have hphase := h.phase
      cases hx : x.phase with
      | kExecFill k => exact absurd hx (hp k)
      | kDrain | kExecSwap => simpa [hx] using hphase
      | _ => simp }

end

/-! ### The invariant of a state -/

section
variable {s t : State} {i : InstId}

/-- Every record, that of an instance without one too, meets its invariant. -/
theorem State.Inv.eng (h : s.Inv) (i : InstId) : (s.eng i).Inv s.conf := by
  unfold State.eng
  cases hx : s.engines[i.toNat]? with
  | none => exact engine_reset_inv s.conf
  | some x => exact h.engines x (List.mem_of_getElem? hx)

/-- The invariant speaks of parameters, records and memory only. -/
theorem State.Inv.of_eq (h : s.Inv) (hc : t.conf = s.conf) (he : t.engines = s.engines) (hm : t.mem = s.mem) : t.Inv :=
  ⟨by rw [he, hc, h.size], by rw [he, hc]; exact h.engines, by rw [hm]; exact h.memory, by rw [hm, hc]; exact h.space⟩

/-- A record may be changed to one that meets its invariant. -/
theorem State.Inv.upd (h : s.Inv) {f : Engine → Engine} (hf : (f (s.eng i)).Inv s.conf) : (s.upd i f).Inv where
  size := (upd_length s i f).trans h.size
  engines := by
    intro x hx
    obtain ⟨n, hn⟩ := List.mem_iff_getElem?.1 hx
    by_cases hin : i.toNat = n
    · subst hin
      simp only [State.upd, List.getElem?_modify_eq, Option.map_eq_map, Option.map_eq_some_iff] at hn
      obtain ⟨y, hy, rfl⟩ := hn
      simpa [State.eng, hy] using hf
    · rw [State.upd, List.getElem?_modify_ne _ _ hin] at hn
      exact h.engines x (List.mem_of_getElem? hn)
  memory := h.memory
  space := h.space

/-- A byte may be stored at an address of `ADDRW` bits. -/
theorem State.Inv.putByte (h : s.Inv) (v : Nat) (b : Byte) : (s.putByte (s.conf.addr v) b).Inv where
  size := h.size
  engines := h.engines
  memory := putByte_wf s _ b h.memory
  space := by
    intro p hp
    rcases Memory.mem_put _ _ _ _ hp with hp | ⟨rfl, -⟩
    · exact h.space p hp
    · exact clip_lt _ _

/-- At reset every record meets its invariant, and memory is empty. -/
theorem resetWith_inv (c : Config) : (State.resetWith c).Inv where
  size := List.length_replicate
  engines := fun _ hx => List.eq_of_mem_replicate hx ▸ engine_reset_inv c
  memory := reset_memory_wf
  space := fun _ hp => absurd hp List.not_mem_nil

/-- A restart brings the records of reset and leaves memory. -/
theorem State.Inv.restart (h : s.Inv) : (restart s).Inv where
  size := (resetWith_inv s.conf).size
  engines := (resetWith_inv s.conf).engines
  memory := h.memory
  space := h.space

end

/-- Settles O7: every record is that of reset, which meets its invariant. -/
theorem resetMeetsTheInvariant : Obligations.ResetMeetsTheInvariant := resetWith_inv

/-! ### What an operation of engine `i` keeps -/

/-- From `s` to `t` at most the record of engine `i` changes among the records, the agenda stays, and the invariant is
kept. -/
structure Keeps (i : InstId) (s t : State) : Prop where
  size   : t.engines.length = s.engines.length
  others : ∀ j, j ≠ i → t.eng j = s.eng j
  agenda : t.agenda = s.agenda
  inv    : s.Inv → t.Inv

section
variable {i : InstId} {s t u : State}

theorem Keeps.refl : Keeps i s s := ⟨rfl, fun _ _ => rfl, rfl, id⟩

/-- One run after another. -/
theorem Keeps.trans (h : Keeps i s t) (g : Keeps i t u) : Keeps i s u :=
  ⟨g.size.trans h.size, fun j hj => (g.others j hj).trans (h.others j hj), g.agenda.trans h.agenda,
    fun hs => g.inv (h.inv hs)⟩

/-- A change that leaves parameters, records, memory and agenda. -/
theorem Keeps.keep (h : Keeps i s t) (hc : u.conf = t.conf) (he : u.engines = t.engines) (hm : u.mem = t.mem)
    (ha : u.agenda = t.agenda) : Keeps i s u where
  size := by rw [he, h.size]
  others := fun j hj => by rw [← h.others j hj, State.eng, he, State.eng]
  agenda := ha.trans h.agenda
  inv := fun hs => (h.inv hs).of_eq hc he hm

/-- A change of the record of engine `i` that keeps the record's invariant. -/
theorem Keeps.upd (h : Keeps i s t) {f : Engine → Engine}
    (hf : s.Inv → (t.eng i).Inv t.conf → (f (t.eng i)).Inv t.conf) : Keeps i s (t.upd i f) where
  size := (upd_length t i f).trans h.size
  others := fun j hj => (upd_eng_ne t i j f hj).trans (h.others j hj)
  agenda := h.agenda
  inv := fun hs => (h.inv hs).upd (hf hs ((h.inv hs).eng i))

/-- A change of the byte, the count, the held entries or the write side of the UART. -/
theorem Keeps.scratch (h : Keeps i s t) {n held : Engine → Nat} {b : Engine → Byte} {uart : Engine → Uart} :
    Keeps i s (t.upd i fun x => { x with n := n x, b := b x, heldIrq := held x, uart := uart x }) :=
  h.upd fun _ hx => hx.working hx.values

theorem Keeps.setPhase (h : Keeps i s t) {p : Phase} (hp : p.plain = true) : Keeps i s (t.setPhase i p) :=
  h.upd fun _ hx => hx.setPhase hp

/-- Event bits are entered into the mask. -/
theorem Keeps.orEv (h : Keeps i s t) {m : Nat} (hm : EventBits t.conf m) : Keeps i s (orEv i m t) :=
  h.upd fun _ hx => hx.setEv (EventBits.or hx.events hm)

/-- The mask of one event is entered. -/
theorem Keeps.event (h : Keeps i s t) {m : Nat} (hm : m ∈ t.conf.ev.all := by simp [EncEv.all]) :
    Keeps i s (Machine.orEv i m t) :=
  h.orEv (eventBits_of_mem hm)

theorem Keeps.emit (h : Keeps i s t) (a : Act) : Keeps i s (t.emit a) := h.keep rfl rfl rfl rfl

theorem Keeps.read (h : Keeps i s t) (r : Reg) : Keeps i s (regRead i r t).2 :=
  h.keep (regRead_conf t i r) (regRead_engines t i r) (regRead_mem t i r) (regRead_agenda t i r)

theorem Keeps.write (h : Keeps i s t) (r : Reg) (v : Nat) : Keeps i s (regWrite i r v t) := h.scratch.emit _

theorem Keeps.memWrite (h : Keeps i s t) (buffer k : Nat) (b : Byte) :
    Keeps i s (memWrite i (bufByte t.conf buffer k) b t) :=
  ⟨h.size, h.others, h.agenda, fun hs => ((h.inv hs).putByte (buffer + k) b).of_eq rfl rfl rfl⟩

theorem Keeps.respond (h : Keeps i s t) (st : Status) (v : Nat) : Keeps i s (respond i st v t) :=
  (h.setPhase rfl).emit _

theorem Keeps.readLeft (h : Keeps i s t) : Keeps i s (readLeft i t).2 := by
  rw [readLeft_eq]
  refine (h.read .DMA_RX_LEFT).upd fun _ hx => hx.working ?_
  obtain ⟨hiir, hv, hl, -⟩ := hx.values
  exact ⟨hiir, hv, hl, by simp⟩

theorem Keeps.readLsr (h : Keeps i s t) : Keeps i s (readLsr i t).2 := by
  rw [readLsr_eq]
  refine (h.read .LSR).upd fun _ hx => hx.working ?_
  obtain ⟨hiir, hv, -, hleft⟩ := hx.values
  exact ⟨hiir, hv, by rw [regRead_conf, regRead_width], hleft⟩

/-- One received byte: its read and its delivery. -/
theorem Keeps.deliverRbr (h : Keeps i s t) : Keeps i s (byteSink i (readRbr i t).1 (readRbr i t).2) :=
  (h.read .RBR).scratch.emit _

/-- A register write leaves every phase. -/
@[simp] theorem regWrite_phase (j : InstId) (r : Reg) (v : Nat) (s : State) :
    ((regWrite i r v s).eng j).phase = (s.eng j).phase := by
  by_cases hj : j = i
  · subst hj
    by_cases hl : j.toNat < s.engines.length
    · rw [regWrite_eq, emit_eng, upd_eng_self _ _ _ hl]
    · simp [regWrite_eq, State.eng, State.upd, hl]
  · rw [regWrite_eq, emit_eng, upd_eng_ne _ _ _ _ hj]

/-- `SWAP` stores arguments that have passed its checks; no zero fill is in progress. -/
theorem Keeps.swapCommit (h : Keeps i s t) {a n : Nat} (args : s.Inv → SwapArgs t.conf a n)
    (hp : ∀ k, (t.eng i).phase ≠ .kExecFill k) : Keeps i s (swapCommit i a n t) := by
  refine ((((h.write .DMA_RX_EN 0).write .DMA_RX_ADDR a).write .DMA_RX_LEN n).write .DMA_RX_EN 1).upd fun hs hx => ?_
  obtain ⟨hfits, hmin, ha, hn⟩ := args hs
  exact hx.setBuffer hfits (fun _ => hmin) ha hn (by simpa using hp)

theorem Keeps.drainTurn (h : Keeps i s t) : Keeps i s (drainTurn i t).2 := by
  by_cases hc : (t.eng i).cursor < scanEnd t.conf (t.eng i)
  · by_cases hb : t.byteAt (bufByte t.conf (t.eng i).cfg.rxDmaBuffer (t.eng i).cursor) = 0
    · rw [drainTurn_zero hc hb]
      exact (h.emit _).scratch
    · rw [drainTurn_deliver hc hb]
      exact ((h.emit _).emit _).upd fun _ hx => (hx.advance hc).working hx.values
  · rw [drainTurn_end hc]
    exact h

theorem Keeps.fillTurn (h : Keeps i s t) (k : Nat) : Keeps i s (fillTurn i k t).2 := by
  by_cases hk : k < (t.eng i).cfg.rxDmaBuffLength
  · rw [fillTurn_write hk]
    exact (h.memWrite _ _ _).upd fun _ hx => hx.toFill hk
  · rw [fillTurn_end hk]
    exact h

/-! ### Activations and handlers -/

theorem Keeps.enterActivation (h : Keeps i s t) : Keeps i s (enterActivation i t) := by
  have cleared : Keeps i s (t.upd i fun x => { x with ev := 0 }) := h.upd fun _ hx => hx.setEv eventBits_zero
  simp only [Machine.enterActivation]
  split
  · exact cleared.setPhase rfl
  · refine (cleared.read .IIR).upd fun _ hx => (hx.setPhase (p := .cTxDma) rfl).working ?_
    obtain ⟨-, hv, hl, hleft⟩ := hx.values
    exact ⟨by rw [regRead_conf, regRead_width], hv, hl, hleft⟩

theorem Keeps.leaveActivation (h : Keeps i s t) : Keeps i s (leaveActivation i t) := by
  simp only [Machine.leaveActivation]
  split
  · exact (h.emit _).setPhase rfl
  · exact h.setPhase rfl

theorem Keeps.hRxData (h : Keeps i s t) {p : Phase} (hp : p.plain = true) : Keeps i s (hRxData i p t) := by
  simp only [Machine.hRxData]
  split
  · exact h.deliverRbr.setPhase rfl
  · exact h.event.setPhase hp

theorem Keeps.hLine (h : Keeps i s t) (v : Variant) {p : Phase} (hp : p.plain = true) : Keeps i s (hLine v i p t) := by
  have errors : Keeps i s (Machine.lineErrorEvents i (Machine.readLsr i t).1 (Machine.readLsr i t).2) := by
    rw [lineErrorEvents_eq]
    exact h.readLsr.orEv (eventBits_lineErrors _)
  simp only [Machine.hLine]
  cases v
  · exact errors.setPhase hp
  · exact (errors.write _ _).setPhase hp

theorem Keeps.hTimeout (h : Keeps i s t) {p : Phase} (hp : p.plain = true) : Keeps i s (hTimeout i p t) := by
  simp only [Machine.hTimeout]
  split
  · exact h.upd fun _ hx => (hx.setPhase (p := .cTimeoutLoop) rfl).working hx.values
  · exact h.event.setPhase hp

theorem Keeps.receiveByte (h : Keeps i s t) : Keeps i s (receiveByte i t) := h.deliverRbr.scratch

theorem Keeps.dmaTxDone (h : Keeps i s t) (r : Reg) (v : Nat) : Keeps i s (dmaTxDone i r v t) := by
  simp only [Machine.dmaTxDone]
  split
  · exact ((h.write r v).write .DMA_TX_EN 0).event.setPhase rfl
  · exact h.setPhase rfl

theorem Keeps.lowWaterEvent (h : Keeps i s t) (left : Nat) : Keeps i s (lowWaterEvent i left t) := by
  rw [lowWaterEvent_eq]
  exact h.orEv (.ite eventBits_of_mem)

theorem Keeps.dmaRxDone (h : Keeps i s t) (r : Reg) (v : Nat) : Keeps i s (dmaRxDone i r v t) := by
  have tested := (h.write r v).readLeft.lowWaterEvent (Machine.readLeft i (regWrite i r v t)).1
  simp only [Machine.dmaRxDone]
  split
  · split
    · exact tested.setPhase rfl
    · exact tested.event.setPhase rfl
  · exact h.setPhase rfl

theorem Keeps.unexpectedIfNone (h : Keeps i s t) : Keeps i s (unexpectedIfNone i t) := by
  unfold Machine.unexpectedIfNone
  split
  · exact h.event
  · exact h

end

/-! ### Checks of the commands -/

section
variable {c : Config} {x : Engine}

/-- Past the check of `INIT_COMMIT` a buffer for RX DMA is not shorter than the minimum. -/
theorem le_of_checkInit {cfg : Cfg} (h : checkInit c cfg = none) (hen : cfg.rxDmaEn = true) :
    c.rxDmaMinLen ≤ cfg.rxDmaBuffLength := by
  simp only [checkInit, hen, true_and] at h
  split at h
  · cases h
  · omega

/-- Past the checks of `SWAP` the new buffer is not shorter than the minimum. -/
theorem le_of_checkSwap {n : Nat} (h : checkSwap c x n = none) : c.rxDmaMinLen ≤ n := by
  unfold checkSwap at h
  split at h
  · cases h
  · split at h
    · cases h
    · omega

/-- Past the check of the marks the instance is initialized. -/
theorem initialized_of_check (h : checkInitialized x = none) : x.initialized = true := by
  simpa [checkInitialized] using h

end

/-! ### Rows -/

/-- A next state that the answer holds is reached by what engine `i` may do. -/
def AnswerKeeps (i : InstId) (s : State) (r : Result) : Prop := ∀ t, r = .next t → Keeps i s t

section
variable {i : InstId} {s t : State}

theorem Keeps.next (h : Keeps i s t) : AnswerKeeps i s (.next t) := by
  rintro u ⟨⟩
  exact h

theorem onInst_keeps {f : State → State} (h : Keeps i s (f s)) : AnswerKeeps i s (onInst i f s) := by
  intro t ht
  obtain ⟨-, rfl⟩ := onInst_next ht
  exact h

theorem withinSpace_keeps {buffer length : Nat} {own : State → Result}
    (h : fits s.conf buffer length → AnswerKeeps i s (own s)) : AnswerKeeps i s (withinSpace buffer length own s) :=
  fun t ht => h (withinSpace_next ht).1 t (withinSpace_next ht).2

theorem checked_keeps {fails : Option Status} {effect : State → Result}
    (h : fails = none → AnswerKeeps i s (effect s)) : AnswerKeeps i s (checked i fails effect s) := by
  cases fails with
  | none => exact h rfl
  | some st => exact (Keeps.refl.respond st 0).next

/-- The own rule of a command runs on an idle engine. -/
theorem command_keeps {w : Nat} {own : State → Result} (h : (s.eng i).phase = .idle → AnswerKeeps i s (own s)) :
    AnswerKeeps i s (command w i own s) := by
  unfold command
  split
  · split
    · next hidle => exact h hidle
    · exact Keeps.next (.keep .refl rfl rfl rfl rfl)
  · exact (Keeps.refl.respond .invalidId 0).next

theorem execIrq_keeps : AnswerKeeps i s (execIrq i s) := by
  refine onInst_keeps ?_
  split
  · exact Keeps.refl.enterActivation
  · exact Keeps.refl.scratch

theorem execInitCommit_keeps (a b : Nat) : AnswerKeeps i s (execInitCommit i a b s) := by
  refine command_keeps fun hidle => withinSpace_keeps fun hfits => checked_keeps fun hcheck => ?_
  have committed : Keeps i s (s.upd i (commitRecord (sampled s.conf s.cfgIn))) := Keeps.refl.upd fun _ hx =>
    (hx.setBuffer hfits (le_of_checkInit hcheck) (addr_addr _ _) (len_len _ _) (by simp [hidle])).setFlags fun _ => rfl
  split
  · exact (committed.upd fun _ hx => hx.toFill (Nat.zero_le _)).next
  · exact (committed.respond .ok 0).next

theorem execSwap_keeps (a b : Nat) : AnswerKeeps i s (execSwap i a b s) := by
  refine command_keeps fun hidle => withinSpace_keeps fun hfits => checked_keeps fun hcheck => ?_
  have args : SwapArgs s.conf (s.conf.addr a) (s.conf.len b) :=
    ⟨hfits, le_of_checkSwap hcheck, addr_addr _ _, len_len _ _⟩
  split
  · exact (Keeps.refl.upd fun _ hx => (hx.toSwap args).1).next
  · exact ((Keeps.refl.swapCommit (fun _ => args) (by simp [hidle])).respond .ok 0).next

theorem execLeft_keeps (a b : Nat) : AnswerKeeps i s (execLeft i a b s) :=
  command_keeps fun _ => checked_keeps fun _ => (Keeps.refl.readLeft.respond .ok _).next

theorem execTxdmaStart_keeps (a b : Nat) : AnswerKeeps i s (execTxdmaStart i a b s) :=
  command_keeps fun _ => checked_keeps fun _ =>
    ((((Keeps.refl.write .DMA_TX_ADDR _).write .DMA_TX_LEN _).write .DMA_TX_EN 1).respond .ok 0).next

/-- A mark changes the flags so that no instance is powered and not initialized. -/
theorem execPowerOnMark_keeps (a b : Nat) : AnswerKeeps i s (execPowerOnMark i a b s) :=
  command_keeps fun _ => checked_keeps fun hcheck =>
    ((Keeps.refl.upd fun _ hx => hx.setFlags fun _ => initialized_of_check hcheck).respond .ok 0).next

/-- See `execPowerOnMark_keeps`. -/
theorem execPowerOffMark_keeps (a b : Nat) : AnswerKeeps i s (execPowerOffMark i a b s) :=
  command_keeps fun _ => checked_keeps fun _ =>
    ((Keeps.refl.upd fun _ hx => hx.setFlags Bool.noConfusion).respond .ok 0).next

/-- See `execPowerOnMark_keeps`. -/
theorem execUninitMark_keeps (a b : Nat) : AnswerKeeps i s (execUninitMark i a b s) :=
  command_keeps fun _ => checked_keeps fun _ =>
    ((Keeps.refl.upd fun _ hx => hx.setFlags Bool.noConfusion).respond .ok 0).next

/-- A row keeps what its own engine may not change. -/
theorem exec_keeps (r : Instr) : AnswerKeeps r.inst s (exec r s) := by
  unfold exec
  cases r
  case irq => exact execIrq_keeps
  case initCommit a b => exact execInitCommit_keeps a b
  case swap a b => exact execSwap_keeps a b
  case left a b => exact execLeft_keeps a b
  case txdmaStart a b => exact execTxdmaStart_keeps a b
  case powerOffMark a b => exact execPowerOffMark_keeps a b
  case powerOnMark a b => exact execPowerOnMark_keeps a b
  case uninitMark a b => exact execUninitMark_keeps a b
  case reserved7 => exact command_keeps fun _ => (Keeps.refl.respond .unsupported 0).next
  case iirALineErr | iirBLineErr => exact onInst_keeps (Keeps.refl.hLine _ rfl)
  case iirARxData | iirBRxData => exact onInst_keeps (Keeps.refl.hRxData rfl)
  case iirATimeout | iirBTimeout => exact onInst_keeps (Keeps.refl.hTimeout rfl)
  case iirAThrEmpty | iirBThrEmpty | iirAModem | iirBModem | iirAUnexpected6 | iirAUnexpected7 =>
    exact onInst_keeps (Keeps.refl.event.setPhase rfl)
  case iirANone => exact onInst_keeps (Keeps.refl.setPhase rfl)
  case iirBNoneMatched => exact onInst_keeps (Keeps.refl.unexpectedIfNone.setPhase rfl)
  case iirBDmaTxDone | dmaStatusATxDone => exact onInst_keeps (Keeps.refl.dmaTxDone _ _)
  case iirBDmaRxDone | dmaStatusARxDone => exact onInst_keeps (Keeps.refl.dmaRxDone _ _)
  case lsrDr => exact onInst_keeps Keeps.refl.receiveByte
  case lsrTxEmpty => exact onInst_keeps Keeps.refl
  case rspOk | rspInvalidId | rspNotInit | rspNotPowered | rspDmaNotEnabled
      | rspBufferTooSmall | rspBadDmaBuffer | rspUnsupported =>
    exact (Keeps.refl.respond _ _).next
  -- the error rows of `LSR` and the rows of `EV` enter an event
  all_goals exact onInst_keeps Keeps.refl.event

end

/-! ### Phases and turns -/

/-- A turn of engine `i`: the row, if there is one, is about instance `i`, and the state in which it is executed is reached
by what engine `i` may do. -/
structure TurnOf (i : InstId) (s : State) (turn : Option Instr × State) : Prop where
  row   : ∀ r, turn.1 = some r → r.inst = i
  state : Keeps i s turn.2

section
variable {i : InstId} {s t : State}

theorem TurnOf.none (h : Keeps i s t) : TurnOf i s (none, t) := ⟨nofun, h⟩

theorem TurnOf.some (h : Keeps i s t) {r : Instr} (hr : r.inst = i) : TurnOf i s (some r, t) :=
  ⟨fun _ he => Option.some.inj he ▸ hr, h⟩

/-- A bit-tested row is about the instance whose value is tested. -/
theorem bitRow_inst {row : InstId → Nat → Instr} {m w : Nat} {r : Instr} (hrow : ∀ g, (row i g).inst = i)
    (h : bitRow row m i w = some r) : r.inst = i := by
  obtain ⟨-, rfl⟩ := bitRow_eq_some.1 h
  exact hrow _

/-- The row of an identification value on variant A is about its instance. -/
theorem decodeIirA_inst (c : Config) (w : Nat) : (decodeIirA c i w).inst = i := by
  unfold decodeIirA
  dsimp only
  (repeat' split) <;> rfl

/-- The unexpected row is about its instance. -/
theorem rowIirBNoneMatched_inst {c : Config} {w : Nat} {r : Instr} (h : rowIirBNoneMatched c i w = some r) :
    r.inst = i := by
  unfold rowIirBNoneMatched at h
  split at h
  · exact Option.some.inj h ▸ rfl
  · cases h

theorem Keeps.test (h : Keeps i s t) {row : Option Instr} (hrow : ∀ r, row = some r → r.inst = i) {p : Phase}
    (hp : p.plain = true) : TurnOf i s (test row i p t) := by
  cases row with
  | none => exact .none (h.setPhase hp)
  | some r => exact .some h (hrow r rfl)

/-- A test of one bit of a value. -/
theorem Keeps.testBit (h : Keeps i s t) {row : InstId → Nat → Instr} (hrow : ∀ g, (row i g).inst = i) {m w : Nat}
    {p : Phase} (hp : p.plain = true) : TurnOf i s (Machine.test (bitRow row m i w) i p t) :=
  h.test (fun _ => bitRow_inst hrow) hp

theorem seqTxDma_turn : TurnOf i s (seqTxDma i s) := by
  unfold seqTxDma
  split
  · split
    · exact (Keeps.refl.read .DMA_STATUS).testBit (fun _ => rfl) rfl
    · exact .none (Keeps.refl.setPhase rfl)
  · exact Keeps.refl.testBit (fun _ => rfl) rfl

theorem seqRxDma_turn : TurnOf i s (seqRxDma i s) := by
  unfold seqRxDma
  split
  · split
    · exact (Keeps.refl.read .DMA_STATUS).testBit (fun _ => rfl) rfl
    · exact .none (Keeps.refl.setPhase rfl)
  · exact Keeps.refl.testBit (fun _ => rfl) rfl

/-- A turn of the drain, whether the scan goes on or not. -/
theorem keeps_of_drainTurn {b : Bool} (h : drainTurn i s = (b, t)) : Keeps i s t ∧ t.conf = s.conf := by
  have state : (drainTurn i s).2 = t := congrArg Prod.snd h
  exact ⟨state ▸ Keeps.refl.drainTurn, state ▸ (OnlyEngine.refl i s).drainTurn.conf⟩

/-- A turn of the zero fill, whether bytes remain or not. -/
theorem keeps_of_fillTurn {k : Nat} {b : Bool} (h : fillTurn i k s = (b, t)) : Keeps i s t := by
  have state : (fillTurn i k s).2 = t := congrArg Prod.snd h
  exact state ▸ Keeps.refl.fillTurn k

theorem seqDrain_turn : TurnOf i s (seqDrain i s) := by
  unfold seqDrain
  split
  · next u hu => exact .none (keeps_of_drainTurn hu).1
  · next u hu => exact .some ((keeps_of_drainTurn hu).1.setPhase rfl) rfl

/-- The arguments that the phases of a `SWAP` carry have passed its checks. -/
theorem State.Inv.swapArgs (h : s.Inv) {a n : Nat}
    (hp : (s.eng i).phase = .kDrain a n ∨ (s.eng i).phase = .kExecSwap a n) : SwapArgs s.conf a n := by
  have args := (h.eng i).phase
  rcases hp with hp | hp <;> rwa [hp] at args

theorem seqSwapDrain_turn {a n : Nat} (hp : (s.eng i).phase = .kDrain a n) : TurnOf i s (seqSwapDrain i a n s) := by
  unfold seqSwapDrain
  split
  · next u hu => exact .none (keeps_of_drainTurn hu).1
  · next u hu =>
    obtain ⟨drained, conf⟩ := keeps_of_drainTurn hu
    exact .none (drained.upd fun hs hx => (hx.toSwap (conf ▸ hs.swapArgs (.inl hp))).2)

theorem seqFill_turn (k : Nat) : TurnOf i s (seqFill i k s) := by
  unfold seqFill
  split
  · next u hu => exact .none (keeps_of_fillTurn hu)
  · next u hu => exact .some (keeps_of_fillTurn hu) rfl

/-- The masked value has the width of a register. -/
theorem seqDecode_turn : TurnOf i s (seqDecode i s) := by
  unfold seqDecode
  split
  · refine .some ((Keeps.refl.read .IIR).upd fun _ hx => hx.working ?_) (decodeIirA_inst _ _)
    obtain ⟨hiir, -, hl, hleft⟩ := hx.values
    exact ⟨hiir, clip_and _ _ _ (by rw [regRead_conf]; exact regRead_width _ _ _), hl, hleft⟩
  · refine .none (Keeps.refl.upd fun _ hx => (hx.setPhase (p := .cRxData) rfl).working ?_)
    obtain ⟨hiir, -, hl, hleft⟩ := hx.values
    exact ⟨hiir, clip_and _ _ _ hiir, hl, hleft⟩

theorem seqModem_turn : TurnOf i s (seqModem i s) := by
  unfold seqModem
  split
  · next hrow => exact .some .refl (bitRow_inst (fun _ => rfl) hrow)
  · exact Keeps.refl.test (fun _ => rowIirBNoneMatched_inst) rfl

/-- The phase after a receive loop carries no arguments. -/
theorem plain_after (v : Variant) : (afterRxData v).plain = true ∧ (afterTimeout v).plain = true := by
  cases v <;> exact ⟨rfl, rfl⟩

theorem seqRxDataLoop_turn : TurnOf i s (seqRxDataLoop i s) := by
  have status : Keeps i s (readLsr i s).2 := Keeps.refl.readLsr
  simp only [seqRxDataLoop]
  split
  · next hrow => exact .some status (bitRow_inst (fun _ => rfl) hrow)
  · exact .some (status.setPhase (plain_after _).1) rfl

theorem seqTimeoutLoop_turn : TurnOf i s (seqTimeoutLoop i s) := by
  have status : Keeps i s (readLsr i s).2 := Keeps.refl.readLsr
  simp only [seqTimeoutLoop]
  split
  · next hrow => exact .some status (bitRow_inst (fun _ => rfl) hrow)
  · split
    · exact .some ((status.read .RBR).setPhase (plain_after _).2) rfl
    · exact .some (status.setPhase (plain_after _).2) rfl

/-- A phase is a turn of its own engine. -/
theorem seqEngine_turn : TurnOf i s (seqEngine i s) := by
  unfold seqEngine
  cases hp : (s.eng i).phase
  case idle => exact .none .refl
  case cTxDma => exact seqTxDma_turn
  case cRxDma => exact seqRxDma_turn
  case cDrain => exact seqDrain_turn
  case cDecode => exact seqDecode_turn
  case cRxData | cThre | cLine | cTimeout => exact Keeps.refl.testBit (fun _ => rfl) rfl
  case cRxDataLoop => exact seqRxDataLoop_turn
  case cTimeoutLoop => exact seqTimeoutLoop_turn
  case cModem => exact seqModem_turn
  case cDispatch => exact .none Keeps.refl.leaveActivation
  case kDrain a n => exact seqSwapDrain_turn hp
  case kExecSwap a n => exact .some (Keeps.refl.swapCommit (fun hs => hs.swapArgs (.inr hp)) (by simp [hp])) rfl
  case kExecFill k => exact seqFill_turn k

theorem engineTurn_turn : TurnOf i s (engineTurn i s) := by
  unfold engineTurn
  split
  · exact .none .refl
  · split
    · exact seqEngine_turn
    · split
      · exact .none .refl
      · exact .some Keeps.refl.scratch rfl

/-! ### The invariant along a step -/

/-- A turn of port `cmd` leaves parameters, records and memory. -/
theorem State.Inv.hostTurn (h : s.Inv) : (hostTurn s).2.Inv := by
  unfold Machine.hostTurn
  split
  · exact h
  · dsimp only
    split
    · exact h
    · exact h.of_eq rfl rfl rfl

theorem State.Inv.autoTurn (h : s.Inv) : (autoTurn s).2.Inv := by
  unfold Machine.autoTurn
  split
  · exact engineTurn_turn.state.inv h
  · split
    · exact engineTurn_turn.state.inv h
    · exact h.hostTurn

/-- The state in which the row of a step is executed has the invariant. -/
theorem State.Inv.nextInstr (h : s.Inv) : (nextInstr s).2.Inv := by
  unfold Machine.nextInstr
  rcases s.agenda with _ | ⟨turn, rest⟩
  · exact h.autoTurn
  · have later : State.Inv { s with agenda := rest } := h.of_eq rfl rfl rfl
    cases turn
    case irq => exact later
    case cmd w c => exact (later.of_eq (t := { s with agenda := rest, cmdq := s.cmdq ++ [(w, c)] }) rfl rfl rfl).hostTurn
    case reset => exact later.restart
    case dmaStore a b => exact later.putByte a b
    case run => exact engineTurn_turn.state.inv later
    case host => exact later.hostTurn

end

/-- Settles O8: the turn and the row of a step each keep the invariant. -/
theorem stepKeepsTheInvariant : Obligations.StepKeepsTheInvariant := by
  intro s t hinv hstep
  have turn := hinv.nextInstr
  rcases step_next hstep with hn | ⟨r, u, hn, hr⟩ <;> rw [hn] at turn
  · exact turn
  · exact (exec_keeps r t hr).inv turn

/-- Settles O9: neither the turn nor the row of a step changes a parameter. -/
theorem stepKeepsTheParameters : Obligations.StepKeepsTheParameters := by
  intro s t hstep
  obtain ⟨i, turn⟩ := nextInstr_performs (s := s)
  rcases step_next hstep with hn | ⟨r, u, hn, hr⟩ <;> rw [hn] at turn
  · exact turn.conf
  · exact (exec_performs (m := 0) r t hr).conf.trans turn.conf

end Sys2Proof.Machine
end

section
/-! PROOF. An operation of one engine does not read the record of another: it answers the same and leaves that record as it
was, whatever the record holds. Said as commutation with an update of the other record, one lemma per operation, per row,
per phase and per turn. -/

namespace Sys2Proof.Machine

/-! ### The operations -/

section
variable {i j : InstId} {f : Engine → Engine} {s : State} (h : j ≠ i)
include h

/-- Updates of two records commute. -/
theorem upd_upd_ne (g : Engine → Engine) : (s.upd j f).upd i g = (s.upd i g).upd j f := by
  have hne : j.toNat ≠ i.toNat := fun e => h (BitVec.eq_of_toNat_eq e)
  simp only [State.upd, List.modify_modify_ne f g _ hne]

/-- The record of engine `i` does not depend on the other. -/
theorem upd_eng_other : (s.upd j f).eng i = s.eng i := upd_eng_ne s j i f h.symm

theorem setPhase_upd (p : Phase) : (s.upd j f).setPhase i p = (s.setPhase i p).upd j f := upd_upd_ne h _

theorem orEv_upd (m : Nat) : orEv i m (s.upd j f) = (orEv i m s).upd j f := upd_upd_ne h _

theorem regWrite_upd (r : Reg) (v : Nat) : regWrite i r v (s.upd j f) = (regWrite i r v s).upd j f :=
  congrArg (State.emit · (.regWrite i r (s.conf.reg v))) (upd_upd_ne h _)

theorem respond_upd (st : Status) (v : Nat) : respond i st v (s.upd j f) = (respond i st v s).upd j f :=
  congrArg (State.emit · (.ret i st v)) (setPhase_upd h .idle)

theorem readLeft_upd : readLeft i (s.upd j f) = ((readLeft i s).1, (readLeft i s).2.upd j f) := by
  simp only [readLeft_eq, regRead_upd, upd_upd_ne h, upd_conf]

theorem readRbr_upd : readRbr i (s.upd j f) = ((readRbr i s).1, (readRbr i s).2.upd j f) := by
  simp only [readRbr_eq, regRead_upd, upd_upd_ne h]

theorem readLsr_upd : readLsr i (s.upd j f) = ((readLsr i s).1, (readLsr i s).2.upd j f) := by
  simp only [readLsr_eq, regRead_upd, upd_upd_ne h]

/-- One received byte: its read and its delivery. -/
theorem deliverRbr_upd : byteSink i (readRbr i (s.upd j f)).1 (readRbr i (s.upd j f)).2 =
    (byteSink i (readRbr i s).1 (readRbr i s).2).upd j f := by
  rw [readRbr_upd h]
  rfl

theorem lineErrorEvents_upd (l : Nat) : lineErrorEvents i l (s.upd j f) = (lineErrorEvents i l s).upd j f := by
  rw [lineErrorEvents_eq, lineErrorEvents_eq, upd_upd_ne h]
  rfl

theorem lowWaterEvent_upd (left : Nat) : lowWaterEvent i left (s.upd j f) = (lowWaterEvent i left s).upd j f := by
  rw [lowWaterEvent_eq, lowWaterEvent_eq, upd_upd_ne h]
  rfl

theorem unexpectedIfNone_upd : unexpectedIfNone i (s.upd j f) = (unexpectedIfNone i s).upd j f := by
  unfold unexpectedIfNone
  rw [upd_eng_other h]
  split
  · exact orEv_upd h _
  · rfl

theorem swapCommit_upd (a n : Nat) : swapCommit i a n (s.upd j f) = (swapCommit i a n s).upd j f := by
  simp only [swapCommit, regWrite_upd h, upd_upd_ne h]

theorem drainTurn_upd : drainTurn i (s.upd j f) = ((drainTurn i s).1, (drainTurn i s).2.upd j f) := by
  have heng : (s.upd j f).eng i = s.eng i := upd_eng_other h
  by_cases hc : (s.eng i).cursor < scanEnd s.conf (s.eng i)
  · have hc' : ((s.upd j f).eng i).cursor < scanEnd (s.upd j f).conf ((s.upd j f).eng i) := by rwa [heng]
    by_cases hb : s.byteAt (bufByte s.conf (s.eng i).cfg.rxDmaBuffer (s.eng i).cursor) = 0
    · rw [drainTurn_zero hc hb, drainTurn_zero hc' (by rwa [heng]), heng, upd_emit, upd_upd_ne h]
      rfl
    · rw [drainTurn_deliver hc hb, drainTurn_deliver hc' (by rwa [heng]), heng, upd_emit, upd_emit, upd_upd_ne h]
      rfl
  · rw [drainTurn_end hc, drainTurn_end (by rwa [heng])]

theorem fillTurn_upd (k : Nat) : fillTurn i k (s.upd j f) = ((fillTurn i k s).1, (fillTurn i k s).2.upd j f) := by
  have heng : (s.upd j f).eng i = s.eng i := upd_eng_other h
  by_cases hk : k < (s.eng i).cfg.rxDmaBuffLength
  · have hw (a : Nat) : memWrite i a 0 (s.upd j f) = (memWrite i a 0 s).upd j f := rfl
    rw [fillTurn_write hk, fillTurn_write (by rwa [heng]), heng, hw, upd_upd_ne h]
    rfl
  · rw [fillTurn_end hk, fillTurn_end (by rwa [heng])]

/-! ### Activations and handlers -/

theorem enterActivation_upd : enterActivation i (s.upd j f) = (enterActivation i s).upd j f := by
  simp only [enterActivation, upd_conf, upd_upd_ne h, setPhase_upd h, regRead_upd]
  split <;> rfl

theorem leaveActivation_upd : leaveActivation i (s.upd j f) = (leaveActivation i s).upd j f := by
  simp only [leaveActivation, upd_eng_other h]
  split
  · exact setPhase_upd h (s := eventSink i (s.eng i).ev s) .idle
  · exact setPhase_upd h .idle

/-- An event is entered and the phase follows: the whole of most handlers. -/
theorem event_upd (m : Nat) (p : Phase) : (orEv i m (s.upd j f)).setPhase i p = ((orEv i m s).setPhase i p).upd j f := by
  rw [orEv_upd h, setPhase_upd h]

theorem hRxData_upd (p : Phase) : hRxData i p (s.upd j f) = (hRxData i p s).upd j f := by
  simp only [hRxData, upd_eng_other h, deliverRbr_upd h, setPhase_upd h]
  split
  · rfl
  · exact event_upd h _ p

theorem hLine_upd (v : Variant) (p : Phase) : hLine v i p (s.upd j f) = (hLine v i p s).upd j f := by
  simp only [hLine, readLsr_upd h, lineErrorEvents_upd h]
  cases v
  · exact setPhase_upd h p
  · simp only [regWrite_upd h, setPhase_upd h, upd_conf]

theorem hTimeout_upd (p : Phase) : hTimeout i p (s.upd j f) = (hTimeout i p s).upd j f := by
  simp only [hTimeout, upd_eng_other h]
  split
  · exact upd_upd_ne h _
  · exact event_upd h _ p

theorem receiveByte_upd : receiveByte i (s.upd j f) = (receiveByte i s).upd j f := by
  simp only [receiveByte, deliverRbr_upd h, upd_upd_ne h]

theorem dmaTxDone_upd (r : Reg) (v : Nat) : dmaTxDone i r v (s.upd j f) = (dmaTxDone i r v s).upd j f := by
  simp only [dmaTxDone, setDmaTxComplete, upd_eng_other h, regWrite_upd h, upd_conf, orEv_upd h]
  split <;> exact setPhase_upd h _

theorem dmaRxDone_upd (r : Reg) (v : Nat) : dmaRxDone i r v (s.upd j f) = (dmaRxDone i r v s).upd j f := by
  simp only [dmaRxDone, setDmaRxReady, upd_eng_other h, regWrite_upd h, readLeft_upd h, lowWaterEvent_upd h, upd_conf,
    orEv_upd h, setPhase_upd h]
  split
  · split <;> rfl
  · rfl

end

/-! ### Rows -/

/-- The function answers the same whatever `f` makes of the record of instance `j`, and leaves that record as it was. -/
def Ignores (j : InstId) (f : Engine → Engine) (s : State) (own : State → Result) : Prop :=
  own (s.upd j f) = Result.map (fun t => t.upd j f) (own s)

section
variable {i j : InstId} {f : Engine → Engine} {s : State}

/-- Which instances exist does not depend on a record. -/
theorem upd_has : (s.upd j f).has i ↔ s.has i := Iff.rfl

theorem next_ignores {g : State → State} (hg : g (s.upd j f) = (g s).upd j f) : Ignores j f s (fun s => .next (g s)) :=
  congrArg Host.Outcome.next hg

theorem ite_ignores {p : Prop} [Decidable p] {own other : State → Result} (hown : Ignores j f s own)
    (hother : Ignores j f s other) : Ignores j f s (fun s => if p then own s else other s) := by
  unfold Ignores
  split
  · exact hown
  · exact hother

theorem onInst_ignores {g : State → State} (hg : g (s.upd j f) = (g s).upd j f) : Ignores j f s (onInst i g) := by
  simp only [Ignores, onInst, upd_has, hg]
  split <;> rfl

theorem withinSpace_ignores {buffer length : Nat} {own : State → Result} (hown : Ignores j f s own) :
    Ignores j f s (withinSpace buffer length own) := by
  by_cases hfits : fits s.conf buffer length
  · exact (withinSpace_of_fits (s := s.upd j f) hfits).trans (by rw [withinSpace_of_fits hfits]; exact hown)
  · exact (withinSpace_of_past (s := s.upd j f) hfits).trans (by rw [withinSpace_of_past hfits]; rfl)

section
variable (h : j ≠ i)
include h

theorem checked_ignores {fails : Option Status} {effect : State → Result} (he : Ignores j f s effect) :
    Ignores j f s (checked i fails effect) := by
  cases fails with
  | none => exact he
  | some st => exact next_ignores (respond_upd h st 0)

theorem command_ignores {w : Nat} {own : State → Result} (hown : Ignores j f s own) :
    Ignores j f s (command w i own) := by
  simp only [Ignores, command, upd_has, upd_eng_other h]
  split
  · split
    · exact hown
    · rfl
  · exact next_ignores (respond_upd h .invalidId 0)

theorem execIrq_ignores : Ignores j f s (execIrq i) := by
  refine onInst_ignores ?_
  simp only [upd_eng_other h]
  split
  · exact enterActivation_upd h
  · exact upd_upd_ne h _

theorem execInitCommit_ignores (a b : Nat) : Ignores j f s (execInitCommit i a b) := by
  refine command_ignores h (withinSpace_ignores (checked_ignores h (ite_ignores ?_ ?_)))
  · exact next_ignores (by rw [upd_upd_ne h, setPhase_upd h])
  · exact next_ignores (by rw [upd_upd_ne h, respond_upd h])

theorem execSwap_ignores (a b : Nat) : Ignores j f s (execSwap i a b) := by
  refine command_ignores h ?_
  unfold Ignores
  simp only [upd_conf, upd_eng_other h]
  refine withinSpace_ignores (checked_ignores h ?_)
  simp only [Ignores, upd_eng_other h, setPhase_upd h, swapCommit_upd h, respond_upd h]
  split <;> rfl

theorem execLeft_ignores (a b : Nat) : Ignores j f s (execLeft i a b) := by
  refine command_ignores h ?_
  simp only [Ignores, upd_eng_other h]
  refine checked_ignores h ?_
  simp only [Ignores, readLeft_upd h, respond_upd h, Result.map]

theorem execTxdmaStart_ignores (a b : Nat) : Ignores j f s (execTxdmaStart i a b) := by
  refine command_ignores h ?_
  simp only [Ignores, upd_eng_other h, upd_conf]
  refine checked_ignores h ?_
  simp only [Ignores, regWrite_upd h, respond_upd h, Result.map]

/-- The three marks. -/
theorem mark_ignores {w : Nat} (g : Engine → Engine) : Ignores j f s (command w i fun s =>
    checked i (checkInitialized (s.eng i)) (fun s => .next (respond i .ok 0 (s.upd i g))) s) := by
  refine command_ignores h ?_
  simp only [Ignores, upd_eng_other h]
  refine checked_ignores h ?_
  simp only [Ignores, upd_upd_ne h, respond_upd h, Result.map]

end

/-- A row does not read the record of another instance. -/
theorem exec_ignores (r : Instr) (h : j ≠ r.inst) : Ignores j f s (exec r) := by
  cases r
  case irq => exact execIrq_ignores h
  case initCommit a b => exact execInitCommit_ignores h a b
  case swap a b => exact execSwap_ignores h a b
  case left a b => exact execLeft_ignores h a b
  case txdmaStart a b => exact execTxdmaStart_ignores h a b
  case powerOffMark | powerOnMark | uninitMark => exact mark_ignores h _
  case reserved7 => exact command_ignores h (next_ignores (respond_upd h _ _))
  case iirALineErr | iirBLineErr => exact onInst_ignores (hLine_upd h _ _)
  case iirARxData | iirBRxData => exact onInst_ignores (hRxData_upd h _)
  case iirATimeout | iirBTimeout => exact onInst_ignores (hTimeout_upd h _)
  case iirAThrEmpty | iirBThrEmpty | iirAModem | iirBModem | iirAUnexpected6 | iirAUnexpected7 =>
    exact onInst_ignores (event_upd h _ _)
  case iirANone => exact onInst_ignores (setPhase_upd h _)
  case iirBNoneMatched =>
    exact onInst_ignores ((congrArg (State.setPhase · _ _) (unexpectedIfNone_upd h)).trans (setPhase_upd h _))
  case iirBDmaTxDone | dmaStatusATxDone => exact onInst_ignores (dmaTxDone_upd h _ _)
  case iirBDmaRxDone | dmaStatusARxDone => exact onInst_ignores (dmaRxDone_upd h _ _)
  case lsrDr => exact onInst_ignores (receiveByte_upd h)
  case lsrTxEmpty => exact onInst_ignores rfl
  case rspOk | rspInvalidId | rspNotInit | rspNotPowered | rspDmaNotEnabled
      | rspBufferTooSmall | rspBadDmaBuffer | rspUnsupported =>
    exact next_ignores (respond_upd h _ _)
  -- the error rows of `LSR` and the rows of `EV` enter an event
  all_goals exact onInst_ignores (orEv_upd h _)

/-! ### Phases and turns -/

/-- A turn with an update of the record of instance `j` in its state. -/
def turnUpd (j : InstId) (f : Engine → Engine) (turn : Option Instr × State) : Option Instr × State :=
  (turn.1, turn.2.upd j f)

section
variable (h : j ≠ i)
include h

theorem test_upd (row : Option Instr) (p : Phase) : test row i p (s.upd j f) = turnUpd j f (test row i p s) := by
  cases row with
  | none => exact congrArg (Prod.mk none) (setPhase_upd h p)
  | some r => rfl

theorem seqTxDma_upd : seqTxDma i (s.upd j f) = turnUpd j f (seqTxDma i s) := by
  simp only [seqTxDma, upd_conf, upd_eng_other h, regRead_upd, test_upd h, advance, setPhase_upd h]
  split
  · split <;> rfl
  · rfl

theorem seqRxDma_upd : seqRxDma i (s.upd j f) = turnUpd j f (seqRxDma i s) := by
  simp only [seqRxDma, upd_conf, upd_eng_other h, regRead_upd, test_upd h, advance, setPhase_upd h]
  split
  · split <;> rfl
  · rfl

theorem seqDrain_upd : seqDrain i (s.upd j f) = turnUpd j f (seqDrain i s) := by
  simp only [seqDrain, drainTurn_upd h]
  rcases drainTurn i s with ⟨_ | _, t⟩
  · exact congrArg (Prod.mk _) (setPhase_upd h _)
  · rfl

theorem seqSwapDrain_upd (a n : Nat) : seqSwapDrain i a n (s.upd j f) = turnUpd j f (seqSwapDrain i a n s) := by
  simp only [seqSwapDrain, drainTurn_upd h]
  rcases drainTurn i s with ⟨_ | _, t⟩
  · exact congrArg (Prod.mk _) (setPhase_upd h _)
  · rfl

theorem seqFill_upd (k : Nat) : seqFill i k (s.upd j f) = turnUpd j f (seqFill i k s) := by
  simp only [seqFill, fillTurn_upd h]
  rcases fillTurn i k s with ⟨_ | _, t⟩ <;> rfl

theorem seqDecode_upd : seqDecode i (s.upd j f) = turnUpd j f (seqDecode i s) := by
  simp only [seqDecode, upd_conf, regRead_upd, upd_upd_ne h]
  split <;> rfl

theorem seqModem_upd : seqModem i (s.upd j f) = turnUpd j f (seqModem i s) := by
  simp only [seqModem, upd_conf, upd_eng_other h, test_upd h]
  split <;> rfl

theorem seqRxDataLoop_upd : seqRxDataLoop i (s.upd j f) = turnUpd j f (seqRxDataLoop i s) := by
  simp only [seqRxDataLoop, readLsr_upd h, upd_conf, setPhase_upd h]
  split <;> rfl

theorem seqTimeoutLoop_upd : seqTimeoutLoop i (s.upd j f) = turnUpd j f (seqTimeoutLoop i s) := by
  simp only [seqTimeoutLoop, readLsr_upd h, upd_conf, upd_eng_other h, regRead_upd, setPhase_upd h]
  split
  · rfl
  · split <;> rfl

/-- A phase does not read the record of another instance. -/
theorem seqEngine_upd : seqEngine i (s.upd j f) = turnUpd j f (seqEngine i s) := by
  simp only [seqEngine, upd_eng_other h, upd_conf]
  cases (s.eng i).phase
  case idle => rfl
  case cTxDma => exact seqTxDma_upd h
  case cRxDma => exact seqRxDma_upd h
  case cDrain => exact seqDrain_upd h
  case cDecode => exact seqDecode_upd h
  case cRxData | cThre | cLine | cTimeout => exact test_upd h _ _
  case cRxDataLoop => exact seqRxDataLoop_upd h
  case cTimeoutLoop => exact seqTimeoutLoop_upd h
  case cModem => exact seqModem_upd h
  case cDispatch => exact congrArg (Prod.mk none) (leaveActivation_upd h)
  case kDrain a n => exact seqSwapDrain_upd h a n
  case kExecSwap a n => exact congrArg (Prod.mk _) (swapCommit_upd h a n)
  case kExecFill k => exact seqFill_upd h k

theorem engineTurn_upd : engineTurn i (s.upd j f) = turnUpd j f (engineTurn i s) := by
  simp only [engineTurn, upd_has, State.busy, upd_eng_other h, seqEngine_upd h, upd_upd_ne h]
  split
  · rfl
  · split
    · rfl
    · split <;> rfl

/-- A step that is a turn of engine `i` does not read the record of another instance. -/
theorem step_run_ignores {rest : List Turn} (hrun : s.agenda = .run i :: rest) : Ignores j f s step := by
  have here := nextInstr_run hrun
  have there : nextInstr (s.upd j f) = turnUpd j f (engineTurn i { s with agenda := rest }) :=
    (nextInstr_run (s := s.upd j f) hrun).trans (engineTurn_upd (s := { s with agenda := rest }) h)
  have turn : TurnOf i { s with agenda := rest } (engineTurn i { s with agenda := rest }) := engineTurn_turn
  rcases hturn : engineTurn i { s with agenda := rest } with ⟨_ | r, t⟩ <;> rw [hturn] at here there turn
  · rw [Ignores, step_none here, step_none there]
    rfl
  · rw [Ignores, step_some here, step_some there]
    exact exec_ignores r (turn.row r rfl ▸ h)

end
end

/-! ### Locality -/

section
variable {i : InstId} {m : Nat} {s t : State}

/-- What a run of allowed actions adds to the trace is of its engine. -/
theorem Performs.insts (h : Performs i m s t) : ∃ acts, t.trace = s.trace ++ acts ∧ ∀ a ∈ acts, a.inst = i := by
  obtain ⟨-, acts, trace, allowed⟩ := h
  exact ⟨acts, trace, fun a ha => (allowed a ha).1⟩

/-- A step that is a turn of engine `i` changes no other record and takes its turn from the agenda. -/
theorem step_run_keeps {rest : List Turn} (hrun : s.agenda = .run i :: rest) (hstep : step s = .next t) :
    Keeps i { s with agenda := rest } t := by
  have turn : TurnOf i { s with agenda := rest } (nextInstr s) := nextInstr_run hrun ▸ engineTurn_turn
  rcases step_next hstep with hn | ⟨r, u, hn, hr⟩ <;> rw [hn] at turn
  · exact turn.state
  · exact turn.state.trans (turn.row r rfl ▸ exec_keeps r t hr)

/-- It adds actions of instance `i` to the trace. -/
theorem step_run_insts {rest : List Turn} (hrun : s.agenda = .run i :: rest) (hstep : step s = .next t) :
    ∃ acts, t.trace = s.trace ++ acts ∧ ∀ a ∈ acts, a.inst = i := by
  have turn : TurnOf i { s with agenda := rest } (nextInstr s) := nextInstr_run hrun ▸ engineTurn_turn
  have performs : Performs i _ { s with agenda := rest } (nextInstr s).2 := nextInstr_run hrun ▸ engineTurn_performs
  obtain ⟨acts, htrace, hacts⟩ := performs.insts
  rcases step_next hstep with hn | ⟨r, u, hn, hr⟩ <;> rw [hn] at turn htrace
  · exact ⟨acts, htrace, hacts⟩
  · obtain ⟨more, hmore, hinsts⟩ := (exec_performs (m := 0) r t hr).insts
    rw [turn.row r rfl] at hinsts
    exact ⟨acts ++ more, by rw [hmore, htrace, List.append_assoc], List.forall_mem_append.2 ⟨hacts, hinsts⟩⟩

end

/-- Settles O11: a row keeps the other records, performs actions of its own engine, and ignores the other records. -/
theorem instancesAreIndependent : Obligations.InstancesAreIndependent := fun r _ =>
  ⟨fun t ht => ⟨(exec_keeps r t ht).others, (exec_performs (m := 0) r t ht).insts⟩, fun _ _ hj => exec_ignores r hj⟩

/-- Settles O12: a turn of an engine does the same, since the row it has is about its own instance. -/
theorem engineTurnIsLocal : Obligations.EngineTurnIsLocal := fun _ _ _ hrun =>
  ⟨fun _ ht => ⟨(step_run_keeps hrun ht).others, (step_run_keeps hrun ht).agenda, step_run_insts hrun ht⟩,
    fun _ _ hj => step_run_ignores hj hrun⟩

end Sys2Proof.Machine
end

section
/-! PROOF. Buffer memory, register answers and port `cmd` (spec/20_memory.md): the search of the script of answers, what a
command's frame does with an idle and with a busy engine, and that the three turns that reach the port are one turn of it. -/

namespace Sys2Proof.Machine

/-! ### Bytes of memory -/

/-- Settles O16, by the laws of `putByte`. -/
theorem storeChangesOneByte : Obligations.StoreChangesOneByte := fun s a b v hm =>
  ⟨putByte_wf s a v hm, putByte_byteAt s a b v hm⟩

/-- Settles O17: the turn of a DMA store has no row, and `putByte` is all it does. -/
theorem dmaStoreLandsBetweenSteps : Obligations.DmaStoreLandsBetweenSteps := fun _ _ v _ hm hagenda =>
  ⟨_, step_none (nextInstr_dmaStore hagenda), rfl, rfl, rfl, rfl, rfl, rfl, rfl, rfl, putByte_wf _ _ v hm,
    fun b => putByte_byteAt _ _ b v hm⟩

/-! ### The answer to a register read -/

section
variable {i : InstId} {r : Reg} {v : Nat} {before after : List Answer} {s : State}

/-- The search of the script passes over the answers of other registers and takes out the first of its own. -/
theorem takeAnswer_append_cons (h : ∀ p ∈ before, ¬ (p.i = i ∧ p.r = r)) :
    takeAnswer i r (before ++ ⟨i, r, v⟩ :: after) = some (v, before ++ after) := by
  induction before with
  | nil => simp [takeAnswer]
  | cons p ps ih =>
    obtain ⟨hp, hps⟩ := List.forall_mem_cons.1 h
    simp [takeAnswer, if_neg hp, ih hps]

/-- It finds nothing in a script without an answer of its own. -/
theorem takeAnswer_eq_none (h : ∀ p ∈ before, ¬ (p.i = i ∧ p.r = r)) : takeAnswer i r before = none := by
  induction before with
  | nil => rfl
  | cons p ps ih =>
    obtain ⟨hp, hps⟩ := List.forall_mem_cons.1 h
    simp [takeAnswer, if_neg hp, ih hps]

/-- A read takes the answer that the search finds. -/
theorem regRead_of_take (h : takeAnswer i r s.answers = some (v, after)) :
    regRead i r s =
      (s.conf.reg v, { s with answers := after, trace := s.trace ++ [.regRead i r (s.conf.reg v)] }) := by
  simp [regRead_eq, nextAnswer, h]

/-- A read without a scripted answer takes the next free value. -/
theorem regRead_of_take_none (h : takeAnswer i r s.answers = none) :
    regRead i r s = (s.conf.reg (Config.freeReg s.freeIx),
      { s with freeIx := s.freeIx + 1,
               trace := s.trace ++ [.regRead i r (s.conf.reg (Config.freeReg s.freeIx))] }) := by
  simp [regRead_eq, nextAnswer, h]

end

/-- Settles O18: the search stops at the first answer for the register, or runs through the script. -/
theorem registerReadTakesTheNextAnswer : Obligations.RegisterReadTakesTheNextAnswer := by
  intro s i r v before after hbefore
  refine ⟨fun hscript => ?_, fun hscript => ?_⟩
  · exact regRead_of_take (hscript ▸ takeAnswer_append_cons hbefore)
  · exact regRead_of_take_none (hscript ▸ takeAnswer_eq_none hbefore)

/-! ### The frame of a command -/

section
variable {i : InstId} {w : Nat} {own : State → Result} {s : State}

/-- A command of an idle engine has its own rule. -/
theorem command_of_idle (hi : s.has i) (hp : (s.eng i).phase = .idle) : command w i own s = own s := by
  rw [command, if_pos hi, if_pos hp]

/-- A command of a busy engine joins the line with its record. -/
theorem command_of_busy (hi : s.has i) (hb : s.busy i) :
    command w i own s = .next { s with cmdq := s.cmdq ++ [(w, s.cfgIn)] } := by
  rw [command, if_pos hi, if_neg hb]

end

/-- Settles O47: on an idle engine the buffer is tested before any other check. -/
theorem bufferPastTheTopIsRefused : Obligations.BufferPastTheTopIsRefused := by
  intro s i a b hi hp
  refine ⟨fun hpast => ?_, fun hpast => ?_⟩
  · show execInitCommit i a b s = _
    exact (command_of_idle hi hp).trans (withinSpace_of_past (Nat.not_le.2 hpast))
  · show execSwap i a b s = _
    exact (command_of_idle hi hp).trans (withinSpace_of_past (Nat.not_le.2 hpast))

/-! ### A command that waits -/

/-- Eight different codes of three bits are all there are. -/
theorem mem_cmd_codes {c : Config} (h : c.cmdWf = true) (op : BitVec 3) : op ∈ c.cmd.codes := by
  have hnodup : c.cmd.codes.Nodup := of_decide_eq_true (Bool.and_eq_true_iff.1 h).1
  have hcard : Fintype.card (BitVec 3) = 8 := rfl
  by_contra hop
  have hle := (List.nodup_cons.2 ⟨hop, hnodup⟩).length_le_card
  simp [EncCmd.codes, hcard] at hle

/-- A command word, decoded and encoded again, is the word without the bits that belong to no field: each branch of the
decoder names the code it found, the last one the only code left. -/
theorem encode_decodeCmd {c : Config} (h : c.cmdWf = true) (w : Nat) :
    encode c (decodeCmd c w) = .cmd (w &&& c.cmdBits) := by
  have hop := mem_cmd_codes h (BitVec.ofNat 3 (slice w c.cmd.opAt 3))
  simp only [EncCmd.codes, List.mem_cons, List.not_mem_nil, or_false] at hop
  rw [← cmdWord_of_fields, decodeCmd]
  repeat' split
  all_goals simp_all only [encode, false_or]

/-- Every row that encodes to a command word stands in the frame of the commands, with that word. -/
theorem exec_eq_command {r : Instr} {w : Nat} {s : State} (hw : encode s.conf r = .cmd w) :
    ∃ own, exec r s = command w r.inst own s := by
  unfold exec
  cases r
  case initCommit | swap | left | txdmaStart | powerOffMark | powerOnMark | uninitMark | reserved7 =>
    obtain rfl := Packet.cmd.inj hw
    exact ⟨_, rfl⟩
  all_goals cases hw

/-- Settles O22: a decoded command encodes to its own word, with which the frame of the commands makes it wait. -/
theorem commandWaitsForABusyEngine : Obligations.CommandWaitsForABusyEngine := by
  intro s w hc r hi hb
  obtain ⟨own, hown⟩ := exec_eq_command (s := s) (encode_decodeCmd hc w)
  exact hown.trans (command_of_busy hi hb)

/-! ### Turns of an engine and of the port -/

/-- Settles O21: the row of the turn is the interrupt entry. -/
theorem heldEntryStartsAfterTheCommand : Obligations.HeldEntryStartsAfterTheCommand := fun _ _ _ hlive hrun hidle hheld =>
  step_some ((nextInstr_run hrun).trans (engineTurn_holds hlive.1 hidle hheld))

/-- With a command in line, the port's own turn, the arrival of a further command and a step about which the outside
world says nothing are each a turn of the port. -/
theorem nextInstr_port {s : State} {rest : List Turn} {w : Nat} {c : Cfg} {q : List (Nat × Cfg)}
    (h : (s.agenda = .host :: rest ∧ s.cmdq = (w, c) :: q) ∨
      (∃ w' c' q', s.agenda = .cmd w' c' :: rest ∧ s.cmdq = (w, c) :: q' ∧ q = q' ++ [(w', c')]) ∨
      (s.agenda = [] ∧ rest = [] ∧ s.cmdq = (w, c) :: q ∧ ∀ j, s.has j → ¬ s.busy j ∧ (s.eng j).heldIrq = 0)) :
    nextInstr s = hostTurn { s with agenda := rest, cmdq := (w, c) :: q } := by
  rcases h with ⟨hagenda, hq⟩ | ⟨w', c', q', hagenda, hq, rfl⟩ | ⟨hagenda, rfl, hq, hquiet⟩
  · rw [nextInstr_host hagenda, ← hq]
  · rw [nextInstr_cmd hagenda, hq, List.cons_append]
  · rw [← hagenda, ← hq, ← autoTurn_host hquiet]
    simp only [nextInstr, hagenda]

/-- Settles O57: the port takes its oldest command, or waits for its engine. -/
theorem portTakesTheOldestCommand : Obligations.PortTakesTheOldestCommand := by
  intro s rest w c q r hturn
  have hport := nextInstr_port hturn
  exact ⟨fun hfree => step_some (hport.trans (hostTurn_take rfl hfree)),
    fun hbusy => step_none (hport.trans (hostTurn_wait rfl hbusy))⟩

end Sys2Proof.Machine
end

section
/-! PROOF. The encoding (spec/30_encoding.md): what an admissible parameter record says of each format, one lemma per format
on what its decoder answers, and that decoding takes every encoding back. -/

namespace Sys2Proof

/-! ### What an admissible parameter record says -/

/-- Each format of an admissible record is admissible. -/
theorem formats_of_wf {c : Config} (h : c.wf = true) :
    c.iirA.wf = true ∧ c.iirB.wf = true ∧ c.dmaA.wf = true ∧ c.lsr.wf = true ∧ c.ev.wf = true ∧ c.cmdWf = true ∧
      c.rsp.wf = true := by
  simp only [Config.wf, Bool.and_eq_true] at h
  obtain ⟨⟨⟨⟨⟨⟨⟨⟨⟨-, hA⟩, hB⟩, hdma⟩, hlsr⟩, hev⟩, hcmd⟩, hrsp⟩, -⟩, -⟩ := h
  exact ⟨hA, hB, hdma, hlsr, hev, hcmd, hrsp⟩

/-- The codes of variant A are different, not zero, and inside the mask. -/
theorem iirA_wf_iff {e : EncIirA} : e.wf = true ↔ e.codes.Nodup ∧ ∀ m ∈ e.codes, m ≠ 0 ∧ m &&& e.mask = m := by
  simp [EncIirA.wf]

/-- A mask of one bit is not zero. -/
theorem oneBit_ne_zero {m : Nat} (h : oneBit m = true) : m ≠ 0 := by
  simp only [oneBit, Bool.and_eq_true, bne_iff_ne] at h
  exact h.1

/-- A value that has the bit of a one-bit mask has the whole mask. -/
theorem and_oneBit {w m : Nat} (hm : oneBit m = true) (h : w &&& m ≠ 0) : w &&& m = m := by
  obtain ⟨k, rfl⟩ := oneBit_twoPow hm
  rw [Nat.and_two_pow] at h ⊢
  cases hk : w.testBit k <;> simp_all

/-- A clear code meets its own condition and none of the others. -/
theorem clearsOnly_iff {code own : Nat} {others : List Nat} :
    clearsOnly code own others = true ↔ code &&& own ≠ 0 ∧ ∀ m ∈ others, code &&& m = 0 := by
  simp [clearsOnly, hasBit]

/-! ### Format `IIR_A` -/

/-- The codes of format `IIR_A` and the zero of no condition, with their rows (R81, R82). -/
def iirARows (e : EncIirA) : List (Nat × (InstId → Nat → Instr)) :=
  [(e.rxData, .iirARxData), (e.thrEmpty, .iirAThrEmpty), (e.lineErr, .iirALineErr), (e.timeout, .iirATimeout),
   (e.modem, .iirAModem), (0, .iirANone)]

/-- Every code of an admissible record is inside the mask. -/
theorem iirARows_masked {e : EncIirA} (h : e.wf = true) : ∀ p ∈ iirARows e, p.1 &&& e.mask = p.1 := by
  obtain ⟨-, hcodes⟩ := iirA_wf_iff.1 h
  simp only [EncIirA.codes, List.forall_mem_cons] at hcodes
  simp [iirARows, hcodes]

/-- A masked value that is a code has that code's row: the tests before it fail, since the codes are different and not
zero. -/
theorem decodeIirA_of_code {c : Config} (h : c.iirA.wf = true) {w : Nat} {row : InstId → Nat → Instr}
    (hrow : (w &&& c.iirA.mask, row) ∈ iirARows c.iirA) (i : InstId) :
    decodeIirA c i w = row i (without w c.iirA.mask) := by
  obtain ⟨hnodup, hcodes⟩ := iirA_wf_iff.1 h
  simp only [EncIirA.codes, List.forall_mem_cons] at hcodes
  simp only [EncIirA.codes, List.nodup_cons, List.mem_cons, List.not_mem_nil, or_false, not_or] at hnodup
  simp only [iirARows, List.mem_cons, List.not_mem_nil, or_false, Prod.mk.injEq] at hrow
  simp only [decodeIirA, beq_iff_eq]
  rcases hrow with ⟨hv, rfl⟩ | ⟨hv, rfl⟩ | ⟨hv, rfl⟩ | ⟨hv, rfl⟩ | ⟨hv, rfl⟩ | ⟨hv, rfl⟩
  · exact if_pos hv
  all_goals grind

/-- An unmatched value has one of the two unexpected rows, by its masked value. -/
theorem decodeIirA_unmatched {c : Config} {w : Nat} (i : InstId) (h : c.iirA.unmatched w = true) :
    decodeIirA c i w = if w &&& c.iirA.mask = 6 then .iirAUnexpected6 i w else .iirAUnexpected7 i w := by
  simp only [EncIirA.unmatched, EncIirA.codes, Bool.and_eq_true, bne_iff_ne, Bool.not_eq_true', List.contains_eq_mem,
    decide_eq_false_iff_not, List.mem_cons, List.not_mem_nil, or_false, not_or] at h
  obtain ⟨hzero, hrx, hthr, hline, htimeout, hmodem⟩ := h
  simp [decodeIirA, *]

/-- Settles O4: each code has its row, and a value that is none of them is unmatched. -/
theorem variantADecodesByEquality : Obligations.VariantADecodesByEquality := by
  intro c i w h v ign
  obtain ⟨hA, -⟩ := formats_of_wf h
  have coded {m : Nat} {row : InstId → Nat → Instr} (hrow : (m, row) ∈ iirARows c.iirA) (hv : w &&& c.iirA.mask = m) :
      decodeIirA c i w = row i ign := decodeIirA_of_code hA (hv ▸ hrow) i
  refine ⟨coded (by simp [iirARows]), coded (by simp [iirARows]), coded (by simp [iirARows]),
    coded (by simp [iirARows]), coded (by simp [iirARows]), coded (by simp [iirARows]), fun hzero hv => ?_⟩
  rw [decodeIirA_unmatched i (by simpa [EncIirA.unmatched] using ⟨hzero, hv⟩)]
  split
  · exact .inl rfl
  · exact .inr rfl

/-! ### Bit-tested formats -/

/-- The seven tests of format `IIR_B` (R83), in the decoder's order. -/
def iirBTests (e : EncIirB) : List (Nat × (InstId → Nat → Instr)) :=
  [(e.dmaTxDone, .iirBDmaTxDone), (e.dmaRxDone, .iirBDmaRxDone), (e.rxData, .iirBRxData), (e.thrEmpty, .iirBThrEmpty),
   (e.lineErr, .iirBLineErr), (e.timeout, .iirBTimeout), (e.modem, .iirBModem)]

/-- The two tests of format `DMA_STATUS_A` (R85). -/
def dmaTests (e : EncDmaA) : List (Nat × (InstId → Nat → Instr)) :=
  [(e.txDone, .dmaStatusATxDone), (e.rxDone, .dmaStatusARxDone)]

/-- The six tests of format `LSR` (R87). -/
def lsrTests (e : EncLsr) : List (Nat × (InstId → Nat → Instr)) :=
  [(e.dr, .lsrDr), (e.oe, .lsrOe), (e.pe, .lsrPe), (e.fe, .lsrFe), (e.bi, .lsrBi), (e.txEmpty, .lsrTxEmpty)]

/-- One of the tests finds its bit in the value, and the row is its row, with the other bits as operand. -/
def FoundBy (tests : List (Nat × (InstId → Nat → Instr))) (i : InstId) (w : Nat) (r : Instr) : Prop :=
  ∃ p ∈ tests, w &&& p.1 ≠ 0 ∧ r = p.2 i (without w p.1)

section
variable {c : Config} {i : InstId} {w g m : Nat} {r : Instr} {row : InstId → Nat → Instr}
  {tests : List (Nat × (InstId → Nat → Instr))}

/-- The rows of a list of tests are those that a test finds. -/
theorem mem_filterMap_bitRow :
    r ∈ (tests.map fun p => bitRow p.2 p.1 i w).filterMap id ↔ FoundBy tests i w r := by
  have found (m : Nat) (row : InstId → Nat → Instr) :
      bitRow row m i w = some r ↔ w &&& m ≠ 0 ∧ r = row i (without w m) := bitRow_eq_some.trans (and_congr_right' eq_comm)
  simp [FoundBy, found]

/-- The rows of a line status. -/
theorem mem_decodeLsr_iff : r ∈ decodeLsr c i w ↔ FoundBy (lsrTests c.lsr) i w r :=
  mem_filterMap_bitRow (tests := lsrTests c.lsr)

/-- The rows of a DMA status. -/
theorem mem_decodeDmaStatusA_iff : r ∈ decodeDmaStatusA c i w ↔ FoundBy (dmaTests c.dmaA) i w r :=
  mem_filterMap_bitRow (tests := dmaTests c.dmaA)

/-- Beside the rows that a test finds there is the row of no match. -/
theorem mem_decodeIirB_iff (h : c.iirB.wf = true) :
    r ∈ decodeIirB c i w ↔
      FoundBy (iirBTests c.iirB) i w r ∨ (r = .iirBNoneMatched i w ∧ ∀ m ∈ c.iirB.nonDma, w &&& m = 0) := by
  show r ∈ ((iirBTests c.iirB).map (fun p => bitRow p.2 p.1 i w) ++ [rowIirBNoneMatched c i w]).filterMap id ↔ _
  rw [List.filterMap_append, List.mem_append, mem_filterMap_bitRow]
  simp [rowIirBNoneMatched, known_eq_zero h, and_comm, @eq_comm _ r]

/-- The events of a mask are the rows of the table whose bit it has. -/
theorem mem_decodeEv_iff : r ∈ decodeEv c i w ↔ ∃ p ∈ Machine.eventTable c i, w &&& p.1 ≠ 0 ∧ r = p.2 := by
  show r ∈ ((Machine.eventTable c i).filter fun p => hasBit w p.1).map (fun p => p.2) ↔ _
  simp only [List.mem_map, List.mem_filter, hasBit, bne_iff_ne, and_assoc, @eq_comm _ r]

/-- A value made of a test's bit and bits beside it is found by that test. -/
theorem foundBy_or (hp : (m, row) ∈ tests) (hm : m ≠ 0) (hg : g &&& m = 0) : FoundBy tests i (g ||| m) (row i g) :=
  ⟨(m, row), hp, by rwa [or_and_self], by rw [or_without hg]⟩

end

/-- Settles O54: the register formats are lists of tests, and `EV` picks from the table of events. -/
theorem bitTestedFormatsHoldTheSetBits : Obligations.BitTestedFormatsHoldTheSetBits := fun _ _ _ _ =>
  ⟨mem_decodeLsr_iff, mem_decodeDmaStatusA_iff, mem_decodeEv_iff⟩

/-- Settles O5: a row of a condition is found by its own test only, and no test gives the row of no match. -/
theorem variantBTestsEveryBitAlone : Obligations.VariantBTestsEveryBitAlone := by
  intro c i w h
  obtain ⟨-, hB, -⟩ := formats_of_wf h
  simp [mem_decodeIirB_iff hB, FoundBy, iirBTests]

/-- Every test of an admissible record is of one bit. -/
theorem iirBTests_oneBit {e : EncIirB} (h : e.wf = true) : ∀ p ∈ iirBTests e, oneBit p.1 = true := by
  simp only [EncIirB.wf, Bool.and_eq_true, List.all_eq_true] at h
  obtain ⟨⟨⟨⟨⟨⟨⟨-, hone⟩, -⟩, -⟩, -⟩, -⟩, -⟩, -⟩ := h
  simp only [EncIirB.nonDma, List.forall_mem_append, List.forall_mem_cons] at hone
  simp [iirBTests, hone]

/-- See `iirBTests_oneBit`. -/
theorem dmaTests_oneBit {e : EncDmaA} (h : e.wf = true) : ∀ p ∈ dmaTests e, oneBit p.1 = true := by
  simp only [EncDmaA.wf, Bool.and_eq_true] at h
  simp [dmaTests, h]

/-- See `iirBTests_oneBit`. -/
theorem lsrTests_oneBit {e : EncLsr} (h : e.wf = true) : ∀ p ∈ lsrTests e, oneBit p.1 = true := by
  simp only [EncLsr.wf, Bool.and_eq_true, List.all_eq_true, List.forall_mem_cons] at h
  simp [lsrTests, h]

/-- Two clear codes, each of its own one-bit condition, are different and not zero. -/
theorem separate_codes {tx rx clrTx clrRx : Nat} (htx : oneBit tx = true) (hrx : oneBit rx = true)
    (hclrTx : clrTx &&& tx ≠ 0) (hclrRx : clrRx &&& rx ≠ 0) (hother : clrRx &&& tx = 0) :
    clrTx ≠ 0 ∧ clrRx ≠ 0 ∧ clrTx ≠ clrRx ∧ clrTx &&& tx = tx ∧ clrRx &&& rx = rx := by
  refine ⟨?_, ?_, ?_, and_oneBit htx hclrTx, and_oneBit hrx hclrRx⟩
  · rintro rfl
    exact hclrTx (Nat.zero_and tx)
  · rintro rfl
    exact hclrRx (Nat.zero_and rx)
  · rintro rfl
    exact hclrTx hother

/-- Settles O60: a clear code has the one bit of its own condition and meets no other condition. -/
theorem dmaConditionsAreSeparatelyClearable : Obligations.DmaConditionsAreSeparatelyClearable := by
  intro c h
  obtain ⟨-, hB, hA, -⟩ := formats_of_wf h
  constructor
  · simp only [EncDmaA.wf, Bool.and_eq_true, clearsOnly_iff, List.forall_mem_singleton] at hA
    obtain ⟨⟨⟨⟨-, honeTx⟩, honeRx⟩, htx, hnotRx⟩, hrx, hnotTx⟩ := hA
    obtain ⟨hclrTx, hclrRx, hne, hownTx, hownRx⟩ := separate_codes honeTx honeRx htx hrx hnotTx
    exact ⟨hclrTx, hclrRx, hne, hownTx, hnotRx, hownRx, hnotTx⟩
  · have hone := iirBTests_oneBit hB
    simp only [iirBTests, List.forall_mem_cons] at hone
    obtain ⟨honeTx, honeRx, -⟩ := hone
    simp only [EncIirB.wf, Bool.and_eq_true, clearsOnly_iff] at hB
    obtain ⟨⟨⟨-, htx, hothersTx⟩, hrx, hothersRx⟩, -⟩ := hB
    obtain ⟨hclrTx, hclrRx, hne, hownTx, hownRx⟩ :=
      separate_codes honeTx honeRx htx hrx (hothersRx _ List.mem_cons_self)
    exact ⟨hclrTx, hclrRx, hne, hownTx, hownRx, hothersTx, hothersRx⟩

/-! ### Format `CMD` -/

/-- The operation codes with their rows (R93). -/
def commandRows (e : EncCmd) : List (BitVec 3 × (InstId → Nat → Nat → Instr)) :=
  e.codes.zip [.initCommit, .swap, .left, .txdmaStart, .powerOffMark, .powerOnMark, .uninitMark, .reserved7]

/-- A word with an operation code is that code's row: the decoder's tests before it fail, since the codes are different. -/
theorem decodeCmd_of_code {c : Config} (h : c.cmdWf = true) {w : Nat} {row : InstId → Nat → Nat → Instr}
    (hrow : (BitVec.ofNat 3 (slice w c.cmd.opAt 3), row) ∈ commandRows c.cmd) :
    decodeCmd c w = row (cmdInst c w) (slice w c.cmd.arg0At c.addrw) (slice w c.cmd.arg1At c.lenw) := by
  have hnodup : c.cmd.codes.Nodup := of_decide_eq_true (Bool.and_eq_true_iff.1 h).1
  simp only [EncCmd.codes, List.nodup_cons, List.mem_cons, List.not_mem_nil, or_false, not_or] at hnodup
  simp only [commandRows, EncCmd.codes, List.zip_cons_cons, List.zip_nil_left, List.mem_cons, List.not_mem_nil, or_false,
    Prod.mk.injEq] at hrow
  simp only [decodeCmd]
  rcases hrow with ⟨hop, rfl⟩ | ⟨hop, rfl⟩ | ⟨hop, rfl⟩ | ⟨hop, rfl⟩ | ⟨hop, rfl⟩ | ⟨hop, rfl⟩ | ⟨hop, rfl⟩ | ⟨hop, rfl⟩
  · exact if_pos hop
  all_goals grind

/-- The word of a command whose operands have their widths decodes to its row. -/
theorem decodeCmd_cmdWord {c : Config} (h : c.cmdWf = true) {op : BitVec 3} {row : InstId → Nat → Nat → Instr}
    (hrow : (op, row) ∈ commandRows c.cmd) (i : InstId) {a b : Nat} (ha : c.addr a = a) (hb : c.len b = b) :
    decodeCmd c (cmdWord c op i a b) = row i a b := by
  obtain ⟨hop, hi, harg0, harg1⟩ := cmdWord_fields h op i a b
  rw [decodeCmd_of_code h (by rwa [hop]), hi, harg0, harg1, ha, hb]

/-- The tabulated operation codes are the numbers 0 to 7. -/
theorem commandRows_default {op : Nat} (hop : op < 2 ^ 3) {row : InstId → Nat → Nat → Instr}
    (hrow : [Instr.initCommit, .swap, .left, .txdmaStart, .powerOffMark, .powerOnMark, .uninitMark, .reserved7][op]? =
      some row) : (BitVec.ofNat 3 op, row) ∈ commandRows (Config.default .A).cmd := by
  have hcode : ∀ k < 2 ^ 3, (Config.default .A).cmd.codes[k]? = some (BitVec.ofNat 3 k) := by decide
  exact List.mem_of_getElem? (List.getElem?_zip_eq_some.2 ⟨hcode op hop, hrow⟩)

/-- Four fields of 3, 5, 32 and 32 bits side by side are read back as slices. -/
theorem slices_of_sum {w op inst a b : Nat} (hop : op < 2 ^ 3) (hinst : inst < 2 ^ 5) (ha : a < 2 ^ 32) (hb : b < 2 ^ 32)
    (hsum : w = op + 2 ^ 3 * inst + 2 ^ 8 * a + 2 ^ 40 * b) :
    slice w 0 3 = op ∧ slice w 3 5 = inst ∧ slice w 8 32 = a ∧ slice w 40 32 = b := by
  simp only [slice, clip, Nat.shiftRight_eq_div_pow]
  omega

/-- Settles O3: a word encodes again to the bits of its fields, which under the tabulated layout are all its bits, and its
row is that of its operation code. -/
theorem everyCommandWordIsOneCommand : Obligations.EveryCommandWordIsOneCommand := by
  intro c w h
  refine ⟨rfl, Machine.encode_decodeCmd h w, fun hlayout haddr hlen hw => ⟨?_, ?_⟩⟩
  · have hbits : c.cmdBits = 2 ^ 72 - 1 := by
      simp [Config.cmdBits, Config.cmdFields, hlayout, haddr, hlen, Config.default]
    rw [Machine.encode_decodeCmd h, hbits, Nat.and_two_pow_sub_one_of_lt_two_pow hw]
  · intro op inst a b row hop hinst ha hb hsum hrow
    obtain ⟨hopf, hinstf, haf, hbf⟩ := slices_of_sum hop hinst ha hb hsum
    have hcode : BitVec.ofNat 3 (slice w c.cmd.opAt 3) = BitVec.ofNat 3 op := by simp [hlayout, Config.default, hopf]
    have hmem : (BitVec.ofNat 3 op, row) ∈ commandRows c.cmd := hlayout ▸ commandRows_default hop hrow
    rw [decodeCmd_of_code h (hcode ▸ hmem)]
    simp [hlayout, haddr, hlen, Config.default, cmdInst, hinstf, haf, hbf]

/-! ### Format `RSP` -/

/-- The code of a failing status decodes to the row of the status, and with a value beside it to no row. -/
theorem decodeRsp_code {c : Config} (h : c.rsp.wf = true) (i : InstId) {st : Status} (hst : st ≠ .ok) (value : Nat) :
    decodeRsp c i (c.rsp.code st) value = if value = 0 then .rows [rspRow i st] else .rejected .valueNotZero := by
  rw [decodeRsp, statusOf_code h]
  cases st with
  | ok => exact absurd rfl hst
  | _ => rfl

/-- The code of `OK` decodes to its row, with the `LENW` bits of the value. -/
theorem decodeRsp_ok {c : Config} (h : c.rsp.wf = true) (i : InstId) (value : Nat) :
    decodeRsp c i c.rsp.ok value = .rows [.rspOk i (c.len value)] := by
  rw [decodeRsp, show c.rsp.ok = c.rsp.code .ok from rfl, statusOf_code h]

/-- The word of a response without a value. -/
theorem encode_rspRow (c : Config) (i : InstId) (st : Status) : encode c (rspRow i st) = .rsp i (c.rsp.code st) 0 := by
  cases st <;> rfl

/-- A status that is none of the eight codes is rejected. -/
theorem decodeRsp_of_notMem {c : Config} (i : InstId) {status : BitVec 4} (value : Nat) (h : status ∉ c.rsp.codes) :
    decodeRsp c i status value = .rejected .statusNeverProduced := by
  rw [decodeRsp, statusOf_eq_none.2 h]

/-- Settles O55: a status is the code of one of the eight statuses, or it is none of the codes. -/
theorem responseWordsOutsideTheTableAreRejected : Obligations.ResponseWordsOutsideTheTableAreRejected := by
  intro c i status value h
  refine ⟨decodeRsp_of_notMem i value, fun htable hstatus => decodeRsp_of_notMem i value ?_, ?_, ?_⟩
  · have small : ∀ code ∈ (Config.default .A).rsp.codes, code.toNat < 8 := by decide
    rw [htable]
    exact fun hmem => Nat.not_lt.2 hstatus (small status hmem)
  · rintro rfl
    exact decodeRsp_ok h i value
  · show ∀ p ∈ [Status.invalidId, .notInit, .notPowered, .dmaNotEnabled, .bufferTooSmall, .badDmaBuffer,
      .unsupported].map fun st => (c.rsp.code st, rspRow i st), _
    simp only [List.forall_mem_map]
    rintro st hst rfl
    have hdecode := decodeRsp_code h i (show st ≠ .ok by rintro rfl; simp at hst) value
    exact ⟨fun hzero => hdecode.trans (if_pos hzero), fun hvalue => hdecode.trans (if_neg hvalue)⟩

/-! ### Decoding what was encoded -/

/-- What O2 says of one row: its word has it among its rows, and no other where the row stands alone. -/
def DecodesBack (c : Config) (r : Instr) : Prop :=
  ∃ rs, decode c (encode c r) = .rows rs ∧ r ∈ rs ∧ (r.alone = true → rs = [r])

section
variable {c : Config} {i : InstId} {g m a b : Nat} {r : Instr} {row : InstId → Nat → Instr}

/-- A word with one row. -/
theorem DecodesBack.single (h : decode c (encode c r) = .rows [r]) : DecodesBack c r :=
  ⟨[r], h, List.mem_singleton_self r, fun _ => rfl⟩

/-- The word of a bit-tested format. -/
theorem DecodesBack.tested {rs : List Instr} (h : decode c (encode c r) = .ofRows rs) (hr : r ∈ rs)
    (halone : r.alone = false) : DecodesBack c r :=
  ⟨rs, h.trans (ofRows_of_mem hr), hr, fun h => Bool.noConfusion (halone.symm.trans h)⟩

/-- A command word, whose operands have their widths. -/
theorem DecodesBack.command {op : BitVec 3} {row : InstId → Nat → Nat → Instr} (h : c.cmdWf = true)
    (hrow : (op, row) ∈ commandRows c.cmd) (hword : encode c (row i a b) = .cmd (cmdWord c op i a b))
    (ha : c.addr a = a) (hb : c.len b = b) : DecodesBack c (row i a b) :=
  .single (by rw [hword, decode, decodeCmd_cmdWord h hrow i ha hb])

/-- A code of variant A beside bits outside the mask. -/
theorem DecodesBack.iirA (h : c.iirA.wf = true) (hrow : (m, row) ∈ iirARows c.iirA)
    (hword : encode c (row i g) = .iirA i (g ||| m)) (hg : g &&& c.iirA.mask = 0) : DecodesBack c (row i g) := by
  obtain ⟨hcode, hrest⟩ := masked_code hg (iirARows_masked h _ hrow)
  exact .single (by rw [hword, decode, decodeIirA_of_code h (by rwa [hcode]), hrest])

/-- The bit of a test beside other bits, where the decoder's rows hold what the tests find. -/
theorem DecodesBack.found {tests : List (Nat × (InstId → Nat → Instr))} {rs : List Instr}
    (hone : ∀ p ∈ tests, oneBit p.1 = true) (hrow : (m, row) ∈ tests) (hg : g &&& m = 0)
    (hdecode : decode c (encode c (row i g)) = .ofRows rs) (hrs : FoundBy tests i (g ||| m) (row i g) → row i g ∈ rs)
    (halone : (row i g).alone = false) : DecodesBack c (row i g) :=
  .tested hdecode (hrs (foundBy_or hrow (oneBit_ne_zero (hone _ hrow)) hg)) halone

/-- The mask of one event. -/
theorem DecodesBack.event (h : c.ev.wf = true) (hword : encode c r = .ev i m) (hrow : (m, r) ∈ evRows c i) :
    DecodesBack c r :=
  .single (by rw [hword, decode, decodeEv_one h hrow]; rfl)

/-- The response of a failing status. -/
theorem DecodesBack.failure (h : c.rsp.wf = true) {st : Status} (hst : st ≠ .ok) : DecodesBack c (rspRow i st) :=
  .single (by rw [encode_rspRow, decode, decodeRsp_code h i hst, if_pos rfl])

end

/-- Settles O2: each format takes its own encodings back. -/
theorem encodedInstructionsDecodeBack : Obligations.EncodedInstructionsDecodeBack := by
  intro c r hc hr
  show DecodesBack c r
  obtain ⟨hA, hB, hdma, hlsr, hev, hcmd, hrsp⟩ := formats_of_wf hc
  cases r
  all_goals simp only [Instr.wf, Bool.and_eq_true, beq_iff_eq, decide_eq_true_eq] at hr
  case irq => exact .single rfl
  case initCommit | swap | left | txdmaStart | powerOffMark | powerOnMark | uninitMark | reserved7 =>
    obtain ⟨ha, hb⟩ := hr
    exact .command hcmd (by simp [commandRows, EncCmd.codes]) rfl ha hb
  case iirALineErr | iirARxData | iirAThrEmpty | iirATimeout | iirAModem =>
    exact .iirA hA (by simp [iirARows]) rfl hr.2
  case iirANone i g =>
    exact .iirA hA (by simp [iirARows]) (congrArg (Packet.iirA i) (Nat.or_zero g).symm) hr.2
  case iirAUnexpected6 i w =>
    obtain ⟨⟨-, hunmatched⟩, hsix⟩ := hr
    exact .single (by rw [encode, decode, decodeIirA_unmatched i hunmatched, if_pos hsix])
  case iirAUnexpected7 i w =>
    obtain ⟨⟨-, hunmatched⟩, hsix⟩ := hr
    exact .single (by rw [encode, decode, decodeIirA_unmatched i hunmatched, if_neg (by simpa using hsix)])
  case iirBLineErr | iirBRxData | iirBThrEmpty | iirBTimeout | iirBModem | iirBDmaTxDone | iirBDmaRxDone =>
    exact .found (iirBTests_oneBit hB) (by simp [iirBTests]) hr.2 rfl (fun h => (mem_decodeIirB_iff hB).2 (.inl h)) rfl
  case iirBNoneMatched i w =>
    exact .tested rfl ((mem_decodeIirB_iff hB).2 (.inr ⟨rfl, (known_eq_zero hB w).1 hr.2⟩)) rfl
  case dmaStatusATxDone | dmaStatusARxDone =>
    exact .found (dmaTests_oneBit hdma) (by simp [dmaTests]) hr.2 rfl mem_decodeDmaStatusA_iff.2 rfl
  case lsrDr | lsrOe | lsrPe | lsrFe | lsrBi | lsrTxEmpty =>
    exact .found (lsrTests_oneBit hlsr) (by simp [lsrTests]) hr.2 rfl mem_decodeLsr_iff.2 rfl
  case rspOk i v => exact .single (by rw [encode, decode, decodeRsp_ok hrsp, hr])
  case rspInvalidId => exact .failure hrsp (st := .invalidId) nofun
  case rspNotInit => exact .failure hrsp (st := .notInit) nofun
  case rspNotPowered => exact .failure hrsp (st := .notPowered) nofun
  case rspDmaNotEnabled => exact .failure hrsp (st := .dmaNotEnabled) nofun
  case rspBufferTooSmall => exact .failure hrsp (st := .bufferTooSmall) nofun
  case rspBadDmaBuffer => exact .failure hrsp (st := .badDmaBuffer) nofun
  case rspUnsupported => exact .failure hrsp (st := .unsupported) nofun
  -- the rows of `EV`
  all_goals exact .event hev rfl (by simp [evRows])

/-- Settles O1: each of the twelve words is a closed case of the decoder. -/
theorem tableWordsDecodeToTheirRows : Obligations.TableWordsDecodeToTheirRows := by
  unfold Obligations.TableWordsDecodeToTheirRows
  decide

end Sys2Proof
end

section
/-! PROOF. The event mask, the rows of the output formats and of the line status (spec/30_encoding.md R86, R87, R97), the
reserved command, and what a word of spec/opcode_table.json does where it is placed. -/

namespace Sys2Proof.Machine

/-- Settles O10: `ev` holds event bits only, and the tabulated ones are the low sixteen. -/
theorem eventMaskHasSixteenBits : Obligations.EventMaskHasSixteenBits := by
  intro s i hinv htable
  have hevents := (hinv.eng i).events
  have hunion : s.conf.ev.union = 2 ^ 16 - 1 := by rw [htable]; rfl
  rw [← hevents, hunion]
  exact Nat.and_lt_two_pow _ (by decide)

/-! ### Rows that change their own record only -/

section
variable {s : State} {i : InstId} {r : Instr}

/-- A row that is an update of its record performs no action. -/
theorem runs_upd (h : s.live i) {f : Engine → Engine} (hr : exec r s = .next (s.upd i f)) : Runs i r s [] (f (s.eng i)) :=
  ⟨_, hr, (OnlyEngine.refl i s).upd f, ⟨(List.append_nil _).symm, rfl, rfl⟩, live_eng h f⟩

/-- A row that enters an event. -/
theorem runs_orEv (h : s.live i) {m : Nat} (hr : exec r s = .next (orEv i m s)) :
    Runs i r s [] { s.eng i with ev := (s.eng i).ev ||| m } :=
  runs_upd h (f := fun x => { x with ev := x.ev ||| m }) hr

/-- A row that makes a response. -/
theorem runs_respond (h : s.live i) {st : Status} {v : Nat} (hr : exec r s = .next (respond i st v s)) :
    Runs i r s [.ret i st v] { s.eng i with phase := .idle } :=
  ⟨_, hr, (OnlyEngine.refl i s).respond st v, ⟨rfl, rfl, rfl⟩, live_eng h fun x => { x with phase := .idle }⟩

/-- A received byte is one read, one delivery and one update of the record, in which the timeout loop counts it. -/
theorem receiveByte_eq : receiveByte i s =
    ((regRead i .RBR s).2.emit (.byteSink i (BitVec.ofNat 8 (s.answer i .RBR)))).upd i fun x =>
      { x with b := BitVec.ofNat 8 (s.answer i .RBR), n := if x.phase = .cTimeoutLoop then x.n + 1 else x.n } := by
  simp only [receiveByte, readRbr_eq, byteSink_eq, upd_emit, upd_upd]
  rfl

/-- A row that receives a byte. -/
theorem runs_receiveByte (h : s.live i) (hr : exec r s = .next (receiveByte i s)) :
    let b := BitVec.ofNat 8 (s.answer i .RBR)
    RunsReading i .RBR r s [.regRead i .RBR (s.answer i .RBR), .byteSink i b]
      { s.eng i with b := b, n := if (s.eng i).phase = .cTimeoutLoop then (s.eng i).n + 1 else (s.eng i).n } := by
  have hlive : ((regRead i .RBR s).2.emit (.byteSink i (BitVec.ofNat 8 (s.answer i .RBR)))).live i := by simpa using h
  refine ⟨_, hr, (OnlyEngine.refl i s).receiveByte, ⟨?_, ?_, ?_⟩, ?_⟩
  all_goals rw [receiveByte_eq]
  · simp [State.answer]
  · rfl
  · rfl
  · rw [live_eng hlive, emit_eng, regRead_eng]

/-- An event row enters its mask. -/
theorem exec_eventRow (hi : s.has i) : ∀ p ∈ eventTable s.conf i, exec p.2 s = .next (orEv i p.1 s) := by
  simp only [eventTable, List.cons_append, List.nil_append, List.forall_mem_cons, List.not_mem_nil, false_implies,
    implies_true, and_true]
  and_intros
  all_goals exact onInst_of_has hi

end

/-- Settles O35: the error rows enter an event, the transmitter-empty row changes nothing, the data-ready row receives. -/
theorem lineStatusRows : Obligations.LineStatusRows := by
  intro s i g h x b
  have hi : s.has i := h.1
  exact ⟨runs_orEv h (onInst_of_has hi), runs_orEv h (onInst_of_has hi), runs_orEv h (onInst_of_has hi),
    runs_orEv h (onInst_of_has hi),
    ⟨s, onInst_of_has hi, OnlyEngine.refl i s, ⟨(List.append_nil _).symm, rfl, rfl⟩, rfl⟩,
    runs_receiveByte h (onInst_of_has hi)⟩

/-- Settles O36: each row is the entering of its mask. -/
theorem eventRowsEnterTheirBit : Obligations.EventRowsEnterTheirBit := fun _ _ h p hp =>
  runs_orEv h (exec_eventRow h.1 p hp)

/-- Settles O53: each row is its response, which on an instance without a record is its action only. -/
theorem responseRowsAnswerTheirStatus : Obligations.ResponseRowsAnswerTheirStatus := by
  intro s i v hsize x responds
  refine ⟨fun hi => ?_, fun hi => ?_⟩
  · have h : s.live i := ⟨hi, hsize⟩
    exact ⟨runs_respond h rfl, runs_respond h rfl, runs_respond h rfl, runs_respond h rfl, runs_respond h rfl,
      runs_respond h rfl, runs_respond h rfl, runs_respond h rfl⟩
  · have absent (st : Status) (v : Nat) :
        (.next (respond i st v s) : Result) = .next { s with trace := s.trace ++ [.ret i st v] } :=
      congrArg _ (respond_of_absent hsize hi st v)
    exact ⟨absent .ok _, absent .invalidId 0, absent .notInit 0, absent .notPowered 0, absent .dmaNotEnabled 0,
      absent .bufferTooSmall 0, absent .badDmaBuffer 0, absent .unsupported 0⟩

/-! ### The reserved command -/

section
variable {i : InstId} {s : State}

/-- A phase that is set again leaves the state as it is. -/
theorem setPhase_of_phase {p : Phase} (h : (s.eng i).phase = p) : s.setPhase i p = s := upd_id s i _ (by rw [← h])

/-- On an idle engine a response is its action only. -/
theorem respond_of_idle (h : (s.eng i).phase = .idle) (st : Status) (v : Nat) :
    respond i st v s = { s with trace := s.trace ++ [.ret i st v] } := by
  rw [respond, setPhase_of_phase h]
  rfl

/-- A command of an instance that does not exist answers that. -/
theorem command_of_absent (h : ¬ s.has i) {w : Nat} {own : State → Result} :
    command w i own s = .next (respond i .invalidId 0 s) := if_neg h

end

/-- Settles O44: the range check answers first, and on an idle engine a response is all there is. -/
theorem reservedCommandIsUnsupported : Obligations.ReservedCommandIsUnsupported := by
  intro s i a b hsize
  show (_ → execReserved7 i a b s = _) ∧ (_ → _ → execReserved7 i a b s = _)
  refine ⟨fun hi => ?_, fun hi hidle => ?_⟩
  · rw [execReserved7, command_of_absent hi, respond_of_absent hsize hi]
  · rw [execReserved7, command_of_idle hi hidle, respond_of_idle hidle]

/-! ### Placed words -/

/-- At reset every record is that of reset, also the one that stands for an instance without a record. -/
theorem reset_eng (i : InstId) : State.reset.eng i = Engine.reset := restart_eng State.reset i

/-- Settles O20: at reset every engine is idle, so the port takes the command and leaves the state of reset. -/
theorem placedCommandRunsFirst : Obligations.PlacedCommandRunsFirst := by
  intro nbits w hbits
  have hpacket : tablePacket nbits w = .cmd (clip 72 w) := if_neg (by omega)
  have hidle (i : InstId) : (State.reset.eng i).phase = .idle := by rw [reset_eng]; rfl
  have hplaced : State.reset.withFetchWord nbits w =
      { State.reset with agenda := [.host], cmdq := [(clip 72 w, Cfg.reset)] } := by
    rw [State.withFetchWord, hpacket]
    exact setPhase_of_phase (hidle _)
  refine ⟨decodeCmd State.reset.conf (clip 72 w), by rw [decodeTableWord, hpacket]; rfl, ?_⟩
  rw [hplaced]
  exact step_some ((nextInstr_host rfl).trans (hostTurn_take rfl fun hbusy => hbusy.2 (hidle _)))

/-- At the opening of step 3 variant A reads `IIR` and has the row of the value (spec/40_classifier.md R119). -/
theorem step_decode {s : State} {i : InstId} {rest : List Turn} {w : Nat} {as : List Answer} (hi : s.has i)
    (hrun : s.agenda = .run i :: rest) (hA : s.conf.variant = .A) (hphase : (s.eng i).phase = .cDecode)
    (hanswer : s.answers = ⟨i, .IIR, w⟩ :: as) (hw : s.conf.reg w = w) :
    step s = exec (decodeIirA s.conf i w)
      ({ s with agenda := rest, answers := as, trace := s.trace ++ [Act.regRead i .IIR w] }.upd i fun x =>
        { x with v := w &&& s.conf.iirA.mask }) := by
  have hbusy : (s.eng i).phase ≠ .idle := by simp [hphase]
  have hturn : engineTurn i { s with agenda := rest } = seqEngine i { s with agenda := rest } := engineTurn_busy hi hbusy
  refine step_some ((nextInstr_run hrun).trans (hturn.trans ?_))
  simp only [seqEngine, withAgenda_eng, hphase, seqDecode, hA, regRead_withAgenda, regRead_of_head i .IIR hanswer, hw]

/-- Settles O58: the placed value is the answer that the read of step 3 takes. -/
theorem placedIdentificationRunsFirst : Obligations.PlacedIdentificationRunsFirst := by
  intro nbits w hmin hmax v
  have hpacket : tablePacket nbits w = .iirA 0 v := if_pos ⟨hmin, hmax⟩
  have hexists : (0 : InstId).toNat < 3 := by decide
  refine ⟨decodeIirA State.reset.conf 0 v, by rw [decodeTableWord, hpacket]; rfl, ?_⟩
  rw [State.withFetchWord, hpacket]
  exact step_decode (s := placePacket (.iirA 0 v) State.reset) hexists rfl rfl rfl rfl (clip_clip 32 w)

end Sys2Proof.Machine
end

section
/-! PROOF. The activation in one form. Whatever an operation of engine `i` does, the state it leaves is the state before it, with
the environment's coming answers after its reads, one record, a trace and an agenda: a `scene`. One equation per operation says
which scene it leaves, from any state; the rows, the steps and the runs of an activation are read off these equations. -/

namespace Sys2Proof.Machine

/-! ### Scenes -/

/-- The state `s` with `x` as the record of instance `i`, the trace `tr` and the agenda `l`. -/
def State.scene (s : State) (i : InstId) (x : Engine) (tr : List Act) (l : List Turn) : State :=
  { s.upd i (fun _ => x) with trace := tr, agenda := l }

/-- Instance `i` has a record, so that an update of it takes effect. -/
abbrev State.stored (s : State) (i : InstId) : Prop := i.toNat < s.engines.length

/-- A live instance has its record. -/
theorem State.live.stored {s : State} {i : InstId} (h : s.live i) : s.stored i := by
  rw [State.stored, h.2]
  exact h.1

section
variable (s : State) (i : InstId) (x : Engine) (tr : List Act) (l : List Turn)

@[simp] theorem scene_conf : (s.scene i x tr l).conf = s.conf := rfl
@[simp] theorem scene_cfgIn : (s.scene i x tr l).cfgIn = s.cfgIn := rfl
@[simp] theorem scene_cmdq : (s.scene i x tr l).cmdq = s.cmdq := rfl
@[simp] theorem scene_agenda : (s.scene i x tr l).agenda = l := rfl
@[simp] theorem scene_answers : (s.scene i x tr l).answers = s.answers := rfl
@[simp] theorem scene_freeIx : (s.scene i x tr l).freeIx = s.freeIx := rfl
@[simp] theorem scene_trace : (s.scene i x tr l).trace = tr := rfl
@[simp] theorem scene_byteAt (a : Nat) : (s.scene i x tr l).byteAt a = s.byteAt a := rfl
@[simp] theorem scene_length : (s.scene i x tr l).engines.length = s.engines.length := upd_length s i _

/-- The record of a scene. -/
theorem scene_eng (h : s.stored i) : (s.scene i x tr l).eng i = x := upd_eng_self s i (fun _ => x) h

/-- Every state is a scene of its own. -/
@[simp] theorem scene_self : s.scene i (s.eng i) s.trace s.agenda = s :=
  congrArg (fun t : State => { t with trace := s.trace, agenda := s.agenda }) (upd_id s i (fun _ => s.eng i) rfl)

/-- An update leaves a scene. -/
theorem upd_eq_scene (f : Engine → Engine) : s.upd i f = s.scene i (f (s.eng i)) s.trace s.agenda :=
  upd_congr s i f (fun _ => f (s.eng i)) rfl

/-- An agenda put into a state leaves a scene. -/
theorem withAgenda_eq_scene : { s with agenda := l } = s.scene i (s.eng i) s.trace l :=
  congrArg (fun t : State => { t with agenda := l }) (scene_self s i).symm

@[simp] theorem scene_upd (f : Engine → Engine) : (s.scene i x tr l).upd i f = s.scene i (f x) tr l :=
  congrArg (fun t : State => { t with trace := tr, agenda := l }) (upd_upd s i (fun _ => x) f)

@[simp] theorem scene_scene (y : Engine) (tr' : List Act) (l' : List Turn) :
    (s.scene i x tr l).scene i y tr' l' = s.scene i y tr' l' :=
  congrArg (fun t : State => { t with trace := tr', agenda := l' }) (scene_upd s i x tr l fun _ => y)

@[simp] theorem scene_emit (a : Act) : (s.scene i x tr l).emit a = s.scene i x (tr ++ [a]) l := rfl

@[simp] theorem scene_withAgenda (l' : List Turn) : { s.scene i x tr l with agenda := l' } = s.scene i x tr l' := rfl

/-- A scene takes neither trace nor agenda from the state it is made of. -/
@[simp] theorem withAgenda_scene (l' : List Turn) : { s with agenda := l' }.scene i x tr l = s.scene i x tr l := rfl

/-- The action is in the trace that the scene replaces. -/
@[simp] theorem emit_scene (a : Act) : (s.emit a).scene i x tr l = s.scene i x tr l := rfl

/-- What a read answers depends on the coming answers only. -/
@[simp] theorem scene_answer (r : Reg) : (s.scene i x tr l).answer i r = s.answer i r :=
  (regRead_congr (s := s.scene i x tr l) (t := s) i r rfl rfl rfl).1

/-- A read in a scene takes an answer and grows the trace. -/
theorem scene_read (r : Reg) : regRead i r (s.scene i x tr l) =
    (s.answer i r, (regRead i r s).2.scene i x (tr ++ [.regRead i r (s.answer i r)]) l) := by
  obtain ⟨hvalue, hanswers, hfree⟩ := nextAnswer_congr (s := s.scene i x tr l) (t := s) i r rfl rfl
  simp only [State.answer, regRead_eq, hvalue, hanswers, hfree]
  rfl

/-- The first component of a read is the environment's answer. -/
theorem regRead_fst (r : Reg) : (regRead i r s).1 = s.answer i r := rfl

end

/-- A live instance is live in every scene. -/
@[simp] theorem live_scene {s : State} {i : InstId} {x : Engine} {tr : List Act} {l : List Turn} :
    (s.scene i x tr l).live i ↔ s.live i := by simp [State.live]

/-- A scene changes one record only. -/
theorem OnlyEngine.scene {i : InstId} {s t : State} (h : OnlyEngine i s t) (x : Engine) (tr : List Act) (l : List Turn) :
    OnlyEngine i { s with agenda := l } (t.scene i x tr l) :=
  ⟨h.conf, (scene_length t i x tr l).trans h.size, fun j hj => (upd_eng_ne t i j _ hj).trans (h.others j hj), h.bytes,
    h.cfgIn, h.cmdq, rfl⟩

/-! ### Accesses -/

section
variable {s : State} {i : InstId}

/-- Every scene stores the records that its state does, and so does the state after a read. -/
@[simp] theorem stored_scene {x : Engine} {tr : List Act} {l : List Turn} : (s.scene i x tr l).stored i ↔ s.stored i := by
  simp [State.stored]

@[simp] theorem stored_read {r : Reg} : (regRead i r s).2.stored i ↔ s.stored i := by simp [State.stored]

/-- A register write. -/
theorem regWrite_scene (r : Reg) (v : Nat) : regWrite i r v s =
    s.scene i { s.eng i with uart := (s.eng i).uart.write r (s.conf.reg v) }
      (s.trace ++ [.regWrite i r (s.conf.reg v)]) s.agenda := by
  rw [regWrite_eq, upd_eq_scene, scene_emit]

/-- The remaining length. -/
theorem readLeft_scene : readLeft i s = (s.conf.len (s.answer i .DMA_RX_LEFT),
    (regRead i .DMA_RX_LEFT s).2.scene i { s.eng i with left := s.conf.len (s.answer i .DMA_RX_LEFT) }
      (s.trace ++ [.regRead i .DMA_RX_LEFT (s.answer i .DMA_RX_LEFT)]) s.agenda) := by
  simp [readLeft_eq, upd_eq_scene, regRead_fst]

/-- A line status. -/
theorem readLsr_scene : readLsr i s = (s.answer i .LSR,
    (regRead i .LSR s).2.scene i { s.eng i with l := s.answer i .LSR }
      (s.trace ++ [.regRead i .LSR (s.answer i .LSR)]) s.agenda) := by
  simp [readLsr_eq, upd_eq_scene, regRead_fst]

/-- A received byte, read and delivered. -/
theorem deliverRbr_scene : byteSink i (readRbr i s).1 (readRbr i s).2 =
    (regRead i .RBR s).2.scene i { s.eng i with b := BitVec.ofNat 8 (s.answer i .RBR) }
      (s.trace ++ [.regRead i .RBR (s.answer i .RBR), .byteSink i (BitVec.ofNat 8 (s.answer i .RBR))]) s.agenda := by
  simp [readRbr_eq, byteSink_eq, upd_eq_scene, regRead_fst]

/-- An event is entered. -/
theorem orEv_scene (m : Nat) : orEv i m s = s.scene i { s.eng i with ev := (s.eng i).ev ||| m } s.trace s.agenda :=
  upd_eq_scene s i _

/-- An event is entered and the phase follows: the whole of most handlers. -/
theorem event_scene (m : Nat) (p : Phase) : (orEv i m s).setPhase i p =
    s.scene i { s.eng i with ev := (s.eng i).ev ||| m, phase := p } s.trace s.agenda := by
  rw [orEv_scene, setPhase_eq, scene_upd]

/-! ### Entry and return of an activation -/

/-- On variant A the entry clears `ev` and reads nothing. -/
theorem enterActivation_scene_A (hA : s.conf.variant = .A) : enterActivation i s =
    s.scene i { s.eng i with ev := 0, phase := .cTxDma } s.trace s.agenda := by
  simp [enterActivation, hA, upd_eq_scene s]

/-- On variant B it latches the one read of `IIR`. -/
theorem enterActivation_scene_B (hB : s.conf.variant = .B) : enterActivation i s =
    (regRead i .IIR s).2.scene i { s.eng i with ev := 0, iir := s.answer i .IIR, phase := .cTxDma }
      (s.trace ++ [.regRead i .IIR (s.answer i .IIR)]) s.agenda := by
  simp [enterActivation, hB, upd_eq_scene s, scene_read]

/-- The return makes the one call of the event sink, if a callback is registered. -/
theorem leaveActivation_scene : leaveActivation i s =
    s.scene i { s.eng i with phase := .idle }
      (s.trace ++ if (s.eng i).cfg.evCb = none then [] else [.eventSink i (s.eng i).ev]) s.agenda := by
  cases hcb : (s.eng i).cfg.evCb <;> simp [leaveActivation, hcb, eventSink_eq, upd_eq_scene]

/-! ### Condition handlers -/

/-- RX data: the first byte is delivered and the loop follows, or readiness is reported. -/
theorem hRxData_scene (p : Phase) : hRxData i p s =
    if (s.eng i).cfg.rxCb.isSome then
      (regRead i .RBR s).2.scene i { s.eng i with b := BitVec.ofNat 8 (s.answer i .RBR), phase := .cRxDataLoop }
        (s.trace ++ [.regRead i .RBR (s.answer i .RBR), .byteSink i (BitVec.ofNat 8 (s.answer i .RBR))]) s.agenda
    else s.scene i { s.eng i with ev := (s.eng i).ev ||| s.conf.ev.rxReady, phase := p } s.trace s.agenda := by
  simp only [hRxData, deliverRbr_scene, setRxReady, orEv_scene, setPhase_eq, scene_upd]

/-- Character timeout: the loop follows, or readiness is reported. -/
theorem hTimeout_scene (p : Phase) : hTimeout i p s =
    if (s.eng i).cfg.rxCb.isSome then s.scene i { s.eng i with n := 0, phase := .cTimeoutLoop } s.trace s.agenda
    else s.scene i { s.eng i with ev := (s.eng i).ev ||| s.conf.ev.rxMaybeReady, phase := p } s.trace s.agenda := by
  simp only [hTimeout, setRxMaybeReady, event_scene, upd_eq_scene s]

/-- Line error on variant A: one read, the errors present. -/
theorem hLine_scene_A (p : Phase) : hLine .A i p s =
    (regRead i .LSR s).2.scene i
      { s.eng i with l := s.answer i .LSR, ev := (s.eng i).ev ||| lineErrors s.conf (s.answer i .LSR), phase := p }
      (s.trace ++ [.regRead i .LSR (s.answer i .LSR)]) s.agenda := by
  simp [hLine, readLsr_scene, lineErrorEvents_eq]

/-- On variant B the write of the clear-pattern follows. -/
theorem hLine_scene_B (h : s.stored i) (p : Phase) : hLine .B i p s =
    (regRead i .LSR s).2.scene i
      { s.eng i with l := s.answer i .LSR, ev := (s.eng i).ev ||| lineErrors s.conf (s.answer i .LSR), phase := p }
      (s.trace ++ [.regRead i .LSR (s.answer i .LSR), .regWrite i .LSR (s.conf.reg s.conf.lsr.bClear)]) s.agenda := by
  simp [hLine, readLsr_scene, lineErrorEvents_eq, regWrite_scene, scene_eng, h, Uart.write]

/-- One byte of a receive loop, which the timeout loop counts. -/
theorem receiveByte_scene : receiveByte i s =
    (regRead i .RBR s).2.scene i
      { s.eng i with
        b := BitVec.ofNat 8 (s.answer i .RBR)
        n := if (s.eng i).phase = .cTimeoutLoop then (s.eng i).n + 1 else (s.eng i).n }
      (s.trace ++ [.regRead i .RBR (s.answer i .RBR), .byteSink i (BitVec.ofNat 8 (s.answer i .RBR))]) s.agenda := by
  simp only [receiveByte, deliverRbr_scene, scene_upd]

/-- The unexpected event of variant B is entered where `ev` is 0. -/
theorem unexpectedIfNone_scene (p : Phase) : (unexpectedIfNone i s).setPhase i p =
    s.scene i { s.eng i with ev := if (s.eng i).ev = 0 then s.conf.ev.unexpected else (s.eng i).ev, phase := p }
      s.trace s.agenda := by
  unfold unexpectedIfNone
  split
  · next hev => simp [setUnexpected, orEv_scene, hev]
  · exact upd_eq_scene s i _

/-! ### DMA steps -/

/-- The UART keeps no value of the register: what is written to it only clears a condition (spec/20_memory.md R62). -/
def Reg.unkept (r : Reg) : Prop := ∀ u v, Uart.write u r v = u

/-- The UART keeps the value that enables or disables DMA transmit. -/
theorem write_dmaTxEn (u : Uart) (v : Nat) : u.write .DMA_TX_EN v = { u with dmaTxEn := v } := rfl

theorem unkept_iir : Reg.IIR.unkept := fun _ _ => rfl
theorem unkept_dmaStatus : Reg.DMA_STATUS.unkept := fun _ _ => rfl

/-- The record that step 1 leaves when it has disabled DMA transmit. -/
def txDoneRecord (c : Config) (x : Engine) : Engine :=
  { x with ev := x.ev ||| c.ev.dmaTxComplete, phase := .cRxDma, uart := { x.uart with dmaTxEn := 0 } }

/-- Step 1: clear, disable and the event, or nothing. -/
theorem dmaTxDone_scene (h : s.stored i) {r : Reg} (hr : r.unkept) (v : Nat) : dmaTxDone i r v s =
    if (s.eng i).cfg.txDmaEn then
      s.scene i (txDoneRecord s.conf (s.eng i))
        (s.trace ++ [.regWrite i r (s.conf.reg v), .regWrite i .DMA_TX_EN 0]) s.agenda
    else s.scene i { s.eng i with phase := .cRxDma } s.trace s.agenda := by
  have clear (u : Uart) (v : Nat) : u.write r v = u := hr u v
  simp only [dmaTxDone, setDmaTxComplete]
  split
  · simp [regWrite_scene, orEv_scene, scene_eng, h, clear, write_dmaTxEn, txDoneRecord]
  · exact upd_eq_scene s i _

/-- What step 2 adds to `ev` before the delivery: the low-water event exactly below the threshold. -/
def lowWaterMask (c : Config) (left : Nat) : Nat := if left < c.lowWater then c.ev.rxBufferLow else 0

/-- The record that step 2 leaves when it has read the remaining length. -/
def rxDoneRecord (c : Config) (x : Engine) (read : Nat) : Engine :=
  if x.cfg.rxCb = none then
    { x with left := c.len read, ev := x.ev ||| lowWaterMask c (c.len read) ||| c.ev.dmaRxReady, phase := .cDecode }
  else { x with left := c.len read, ev := x.ev ||| lowWaterMask c (c.len read), phase := .cDrain }

/-- Step 2: clear, one read of the remaining length and the events, or nothing. -/
theorem dmaRxDone_scene (h : s.stored i) {r : Reg} (hr : r.unkept) (v : Nat) : dmaRxDone i r v s =
    if (s.eng i).cfg.rxDmaEn then
      (regRead i .DMA_RX_LEFT s).2.scene i (rxDoneRecord s.conf (s.eng i) (s.answer i .DMA_RX_LEFT))
        (s.trace ++ [.regWrite i r (s.conf.reg v), .regRead i .DMA_RX_LEFT (s.answer i .DMA_RX_LEFT)]) s.agenda
    else s.scene i { s.eng i with phase := .cDecode } s.trace s.agenda := by
  have clear (u : Uart) (v : Nat) : u.write r v = u := hr u v
  simp only [dmaRxDone]
  split
  · cases hcb : (s.eng i).cfg.rxCb <;>
      simp [regWrite_scene, readLeft_scene, scene_read, scene_eng, h, clear, lowWaterEvent_eq, setDmaRxReady, orEv_scene,
        rxDoneRecord, lowWaterMask, hcb]
  · exact upd_eq_scene s i _

end

/-! ### Rows -/

section
variable {s : State} {i : InstId} {r : Instr} {x : Engine} {acts : List Act}

/-- A row that leaves a scene of its state, with a record and a longer trace. -/
theorem runs_scene (hr : exec r s = .next (s.scene i x (s.trace ++ acts) s.agenda)) (h : s.live i) :
    Runs i r s acts x :=
  ⟨_, hr, (OnlyEngine.refl i s).scene x _ s.agenda, ⟨rfl, rfl, rfl⟩, scene_eng _ _ _ _ _ h.stored⟩

/-- A row that performs no action. -/
theorem runs_silent (hr : exec r s = .next (s.scene i x s.trace s.agenda)) (h : s.live i) : Runs i r s [] x :=
  runs_scene (by rw [hr, List.append_nil]) h

/-- A row that leaves a scene after one read. -/
theorem runsReading_scene {q : Reg} (hr : exec r s = .next ((regRead i q s).2.scene i x (s.trace ++ acts) s.agenda))
    (h : s.live i) : RunsReading i q r s acts x :=
  ⟨_, hr, ((OnlyEngine.refl i s).read q).scene x _ s.agenda, ⟨rfl, rfl, rfl⟩,
    scene_eng _ _ _ _ _ (stored_read.2 h.stored)⟩

end

end Sys2Proof.Machine
end

section
/-! PROOF. The entry of an activation and its rows (spec/40_classifier.md R113 to R121, R125): the scene each of them leaves. -/

namespace Sys2Proof.Machine

section
variable {s : State} {i : InstId} {x : Engine} {tr : List Act} {l : List Turn}

/-- An interrupt entry of an idle engine enters an activation. -/
theorem exec_irq_of_idle (hi : s.has i) (hidle : (s.eng i).phase = .idle) :
    exec (.irq i) s = .next (enterActivation i s) := by
  show execIrq i s = _
  rw [execIrq, onInst_of_has hi, if_pos hidle]

/-- The clear codes have `REGW` bits. -/
theorem reg_clear_codes {c : Config} (h : c.wf = true) :
    c.reg c.dmaA.clrDmaTx = c.dmaA.clrDmaTx ∧ c.reg c.dmaA.clrDmaRx = c.dmaA.clrDmaRx ∧
      c.reg c.iirB.clrDmaTx = c.iirB.clrDmaTx ∧ c.reg c.iirB.clrDmaRx = c.iirB.clrDmaRx := by
  and_intros
  all_goals exact reg_of_mem_regConsts h (by simp [Config.regConsts])

/-- The rows of step 1 with TX DMA enabled differ in the register and the code that clear the condition. -/
theorem exec_dmaTxDone_of_enabled (h : s.live i) (hwf : s.conf.wf = true) (hen : x.cfg.txDmaEn = true) (g : Nat) :
    exec (.dmaStatusATxDone i g) (s.scene i x tr l) = .next (s.scene i (txDoneRecord s.conf x)
      (tr ++ [.regWrite i .DMA_STATUS s.conf.dmaA.clrDmaTx, .regWrite i .DMA_TX_EN 0]) l) ∧
    exec (.iirBDmaTxDone i g) (s.scene i x tr l) = .next (s.scene i (txDoneRecord s.conf x)
      (tr ++ [.regWrite i .IIR s.conf.iirB.clrDmaTx, .regWrite i .DMA_TX_EN 0]) l) := by
  obtain ⟨codeA, -, codeB, -⟩ := reg_clear_codes hwf
  have row {r : Reg} (hr : r.unkept) (v : Nat) := dmaTxDone_scene (s := s.scene i x tr l) (stored_scene.2 h.stored) hr v
  simp only [scene_eng _ _ _ _ _ h.stored, hen, if_true, scene_scene, scene_conf, scene_trace, scene_agenda] at row
  have rowA := row unkept_dmaStatus s.conf.dmaA.clrDmaTx
  have rowB := row unkept_iir s.conf.iirB.clrDmaTx
  rw [codeA] at rowA
  rw [codeB] at rowB
  exact ⟨(if_pos h.1).trans (congrArg _ rowA), (if_pos h.1).trans (congrArg _ rowB)⟩

/-- Without it they only go on. -/
theorem exec_dmaTxDone_of_disabled (h : s.live i) (hen : x.cfg.txDmaEn = false) (g : Nat) :
    exec (.dmaStatusATxDone i g) (s.scene i x tr l) = .next (s.scene i { x with phase := .cRxDma } tr l) ∧
      exec (.iirBDmaTxDone i g) (s.scene i x tr l) = .next (s.scene i { x with phase := .cRxDma } tr l) := by
  have row (r : Reg) (v : Nat) : dmaTxDone i r v (s.scene i x tr l) = s.scene i { x with phase := .cRxDma } tr l := by
    simp [dmaTxDone, scene_eng, h.stored, hen]
  exact ⟨(if_pos h.1).trans (congrArg _ (row _ _)), (if_pos h.1).trans (congrArg _ (row _ _))⟩

/-- The rows of step 2 with RX DMA enabled differ in the register and the code that clear the condition. -/
theorem exec_dmaRxDone_of_enabled (h : s.live i) (hwf : s.conf.wf = true) (hen : x.cfg.rxDmaEn = true) (g : Nat) :
    let read := s.answer i .DMA_RX_LEFT
    exec (.dmaStatusARxDone i g) (s.scene i x tr l) = .next ((regRead i .DMA_RX_LEFT s).2.scene i
      (rxDoneRecord s.conf x read)
      (tr ++ [.regWrite i .DMA_STATUS s.conf.dmaA.clrDmaRx, .regRead i .DMA_RX_LEFT read]) l) ∧
    exec (.iirBDmaRxDone i g) (s.scene i x tr l) = .next ((regRead i .DMA_RX_LEFT s).2.scene i
      (rxDoneRecord s.conf x read)
      (tr ++ [.regWrite i .IIR s.conf.iirB.clrDmaRx, .regRead i .DMA_RX_LEFT read]) l) := by
  obtain ⟨-, codeA, -, codeB⟩ := reg_clear_codes hwf
  have row {r : Reg} (hr : r.unkept) (v : Nat) := dmaRxDone_scene (s := s.scene i x tr l) (stored_scene.2 h.stored) hr v
  simp only [scene_eng _ _ _ _ _ h.stored, hen, if_true, scene_read, scene_answer, scene_scene, scene_conf, scene_trace,
    scene_agenda] at row
  have rowA := row unkept_dmaStatus s.conf.dmaA.clrDmaRx
  have rowB := row unkept_iir s.conf.iirB.clrDmaRx
  rw [codeA] at rowA
  rw [codeB] at rowB
  exact ⟨(if_pos h.1).trans (congrArg _ rowA), (if_pos h.1).trans (congrArg _ rowB)⟩

/-- Without it they only go on. -/
theorem exec_dmaRxDone_of_disabled (h : s.live i) (hen : x.cfg.rxDmaEn = false) (g : Nat) :
    exec (.dmaStatusARxDone i g) (s.scene i x tr l) = .next (s.scene i { x with phase := .cDecode } tr l) ∧
      exec (.iirBDmaRxDone i g) (s.scene i x tr l) = .next (s.scene i { x with phase := .cDecode } tr l) := by
  have row (r : Reg) (v : Nat) : dmaRxDone i r v (s.scene i x tr l) = s.scene i { x with phase := .cDecode } tr l := by
    simp [dmaRxDone, scene_eng, h.stored, hen]
  exact ⟨(if_pos h.1).trans (congrArg _ (row _ _)), (if_pos h.1).trans (congrArg _ (row _ _))⟩

/-- A row that enters an event and goes on. -/
theorem runs_event (h : s.live i) {r : Instr} {m : Nat} {p : Phase}
    (hr : exec r s = .next ((orEv i m s).setPhase i p)) :
    Runs i r s [] { s.eng i with ev := (s.eng i).ev ||| m, phase := p } :=
  runs_silent (by rw [hr, event_scene]) h

/-- A row that only goes on. -/
theorem runs_setPhase (h : s.live i) {r : Instr} {p : Phase} (hr : exec r s = .next (s.setPhase i p)) :
    Runs i r s [] { s.eng i with phase := p } :=
  runs_upd h (f := fun x => { x with phase := p }) hr

/-- A value that matches no code and has no bit of the mask is the row of no condition. -/
theorem decodeIirA_zero {c : Config} {w : Nat} (hcode : w &&& c.iirA.mask ∉ c.iirA.codes) (hzero : w &&& c.iirA.mask = 0) :
    decodeIirA c i w = .iirANone i (without w c.iirA.mask) := by
  simp only [EncIirA.codes, List.mem_cons, List.not_mem_nil, or_false, not_or, hzero] at hcode
  simp [decodeIirA, hzero, hcode]

end

/-- Settles O23: the entry of an idle engine, on each variant. -/
theorem interruptEntryStartsAnActivation : Obligations.InterruptEntryStartsAnActivation := by
  intro s i h hidle
  have entry := exec_irq_of_idle h.1 hidle
  refine ⟨fun hA => ?_, fun hB => ?_⟩
  · exact runs_silent (by rw [entry, enterActivation_scene_A hA]) h
  · exact runsReading_scene (by rw [entry, enterActivation_scene_B hB]) h

/-- Settles O25: both rows act or not as TX DMA is enabled. -/
theorem dmaTransmitDone : Obligations.DmaTransmitDone := by
  intro s i g h hwf x done
  refine ⟨fun hen => ?_, fun hen => ?_⟩
  · have rows := exec_dmaTxDone_of_enabled h hwf (tr := s.trace) (l := s.agenda) hen g
    rw [scene_self] at rows
    exact ⟨runs_scene rows.1 h, runs_scene rows.2 h⟩
  · have rows := exec_dmaTxDone_of_disabled h (tr := s.trace) (l := s.agenda) hen g
    rw [scene_self] at rows
    exact ⟨runs_silent rows.1 h, runs_silent rows.2 h⟩

/-- Settles O26: both rows act or not as RX DMA is enabled. -/
theorem dmaReceiveDone : Obligations.DmaReceiveDone := by
  intro s i g h hwf x read left low done
  refine ⟨fun hen => ?_, fun hen => ?_⟩
  · have rows := exec_dmaRxDone_of_enabled h hwf (tr := s.trace) (l := s.agenda) hen g
    rw [scene_self] at rows
    exact ⟨runsReading_scene rows.1 h, runsReading_scene rows.2 h⟩
  · have rows := exec_dmaRxDone_of_disabled h (tr := s.trace) (l := s.agenda) hen g
    rw [scene_self] at rows
    exact ⟨runs_silent rows.1 h, runs_silent rows.2 h⟩

/-- Settles O34: an unmatched value has one of the two unexpected rows or the row of no condition, and on variant B the row
of no match looks at `ev`. -/
theorem unmatchedValuesAreUnexpected : Obligations.UnmatchedValuesAreUnexpected := by
  intro s i w h x v
  have unexpected6 : exec (.iirAUnexpected6 i w) s = .next ((setUnexpected i s).setPhase i .cDispatch) :=
    if_pos h.1
  have unexpected7 : exec (.iirAUnexpected7 i w) s = .next ((setUnexpected i s).setPhase i .cDispatch) :=
    if_pos h.1
  have none (g : Nat) : exec (.iirANone i g) s = .next (s.setPhase i .cDispatch) := if_pos h.1
  have noneMatched : exec (.iirBNoneMatched i w) s = .next ((unexpectedIfNone i s).setPhase i .cDispatch) :=
    if_pos h.1
  rw [unexpectedIfNone_scene] at noneMatched
  refine ⟨fun hcode hnonzero => ?_, fun hcode hzero => ?_, runs_event h unexpected6, runs_event h unexpected7,
    runs_setPhase h (none w), fun hev => ?_, fun hev => ?_⟩
  · rw [decodeIirA_unmatched i (by simpa [EncIirA.unmatched] using ⟨hnonzero, hcode⟩)]
    split
    · exact runs_event h unexpected6
    · exact runs_event h unexpected7
  · rw [decodeIirA_zero hcode hzero]
    exact runs_setPhase h (none _)
  · rw [if_pos hev] at noneMatched
    exact runs_silent noneMatched h
  · rw [if_neg hev] at noneMatched
    exact runs_silent noneMatched h

end Sys2Proof.Machine
end

section
/-! PROOF. The turns of an activation (spec/40_classifier.md R111, R115, R119 to R125): the row each phase has. -/

namespace Sys2Proof.Machine

section
variable {s t : State} {i : InstId} {rest : List Turn}

/-- A turn of a busy engine goes on with its sequence. -/
theorem nextInstr_seq (hi : s.has i) (hb : (s.eng i).phase ≠ .idle) (hrun : s.agenda = .run i :: rest) :
    nextInstr s = seqEngine i { s with agenda := rest } :=
  (nextInstr_run hrun).trans (engineTurn_busy (s := { s with agenda := rest }) hi hb)

/-- A turn whose sequence stands in phase `p`. -/
theorem nextInstr_phase {p : Phase} (hi : s.has i) (hrun : s.agenda = .run i :: rest) (hp : (s.eng i).phase = p)
    (hb : p ≠ .idle := by decide) : nextInstr s = seqEngine i { s with agenda := rest } :=
  nextInstr_seq hi (hp ▸ hb) hrun

/-- A step that tests one bit of a value has its row if the bit is set, and else goes on. -/
theorem step_test {row : InstId → Nat → Instr} {m w : Nat} {q : Phase}
    (h : nextInstr s = test (bitRow row m i w) i q t) :
    step s = if w &&& m ≠ 0 then exec (row i (without w m)) t else .next (t.setPhase i q) := by
  by_cases hbit : w &&& m = 0
  · rw [bitRow, if_neg (by simpa using hbit)] at h
    rw [step_none h, if_neg (not_not_intro hbit)]
  · rw [bitRow, if_pos (by simpa using hbit)] at h
    rw [step_some h, if_pos hbit]

end

section
variable {s : State} {i : InstId} {rest : List Turn} (hi : s.has i) (hrun : s.agenda = .run i :: rest)
include hi hrun

/-- At the opening of step 3 variant A has the row of the value it reads. -/
theorem step_decode_A (hp : (s.eng i).phase = .cDecode) (hA : s.conf.variant = .A) :
    step s = exec (decodeIirA s.conf i (s.answer i .IIR))
      ((regRead i .IIR { s with agenda := rest }).2.upd i fun x =>
        { x with v := s.answer i .IIR &&& s.conf.iirA.mask }) := by
  refine step_some ((nextInstr_phase hi hrun hp).trans ?_)
  simp [seqEngine, hp, seqDecode, hA, regRead_withAgenda, regRead_fst]

/-- Variant B masks the value it latched. -/
theorem step_decode_B (hp : (s.eng i).phase = .cDecode) (hB : s.conf.variant = .B) :
    step s = .next ({ s with agenda := rest }.upd i fun x =>
      { x with v := x.iir &&& s.conf.iirB.nonDmaMask, phase := .cRxData }) := by
  refine step_none ((nextInstr_phase hi hrun hp).trans ?_)
  simp [seqEngine, hp, seqDecode, hB]

/-- The first four tests of variant B, in the order of spec/40_classifier.md R124. -/
theorem step_test_B {m : Nat} {row : InstId → Nat → Instr} {q : Phase}
    (h : ((s.eng i).phase, m, row, q) ∈
      [(Phase.cRxData, s.conf.iirB.rxData, Instr.iirBRxData, Phase.cThre),
       (Phase.cThre, s.conf.iirB.thrEmpty, Instr.iirBThrEmpty, Phase.cLine),
       (Phase.cLine, s.conf.iirB.lineErr, Instr.iirBLineErr, Phase.cTimeout),
       (Phase.cTimeout, s.conf.iirB.timeout, Instr.iirBTimeout, Phase.cModem)]) :
    step s = if (s.eng i).v &&& m ≠ 0 then exec (row i (without (s.eng i).v m)) { s with agenda := rest }
      else .next ({ s with agenda := rest }.setPhase i q) := by
  simp only [List.mem_cons, List.not_mem_nil, or_false, Prod.mk.injEq] at h
  rcases h with ⟨hp, rfl, rfl, rfl⟩ | ⟨hp, rfl, rfl, rfl⟩ | ⟨hp, rfl, rfl, rfl⟩ | ⟨hp, rfl, rfl, rfl⟩
  all_goals
    refine step_test ((nextInstr_phase hi hrun hp).trans ?_)
    simp only [seqEngine, withAgenda_eng, hp]
    rfl

/-- The last test of variant B, and where no bit is set the row of no match. -/
theorem step_modem (hp : (s.eng i).phase = .cModem) :
    step s = if (s.eng i).v &&& s.conf.iirB.modem ≠ 0 then
        exec (.iirBModem i (without (s.eng i).v s.conf.iirB.modem)) { s with agenda := rest }
      else if (s.eng i).v &&& s.conf.iirB.nonDmaMask &&& s.conf.iirB.known = 0 then
        exec (.iirBNoneMatched i (s.eng i).v) { s with agenda := rest }
      else .next ({ s with agenda := rest }.setPhase i .cDispatch) := by
  have turn := nextInstr_phase hi hrun hp
  simp only [seqEngine, withAgenda_eng, hp, seqModem, rowIirBModem, rowIirBNoneMatched, bitRow, hasBit, bne_iff_ne,
    beq_iff_eq] at turn
  split_ifs with hbit hnone
  · exact step_some (by simpa [hbit] using turn)
  · exact step_some (by simpa [hbit, hnone, test] using turn)
  · exact step_none (by simpa [hbit, hnone, test, advance] using turn)

/-- Steps 1 and 2. Variant A reads the status where the direction is enabled; variant B tests the value it latched. -/
theorem step_dma {en : Bool} {m mA : Nat} {rowA rowB : InstId → Nat → Instr} {q : Phase}
    (h : ((s.eng i).phase, en, m, mA, rowA, rowB, q) ∈
      [(Phase.cTxDma, (s.eng i).cfg.txDmaEn, s.conf.iirB.dmaTxDone, s.conf.dmaA.txDone, Instr.dmaStatusATxDone,
          Instr.iirBDmaTxDone, Phase.cRxDma),
       (Phase.cRxDma, (s.eng i).cfg.rxDmaEn, s.conf.iirB.dmaRxDone, s.conf.dmaA.rxDone, Instr.dmaStatusARxDone,
          Instr.iirBDmaRxDone, Phase.cDecode)]) :
    (s.conf.variant = .A → en = false → step s = .next ({ s with agenda := rest }.setPhase i q)) ∧
    (s.conf.variant = .A → en = true →
      step s = if s.answer i .DMA_STATUS &&& mA ≠ 0 then
          exec (rowA i (without (s.answer i .DMA_STATUS) mA)) (regRead i .DMA_STATUS { s with agenda := rest }).2
        else .next ((regRead i .DMA_STATUS { s with agenda := rest }).2.setPhase i q)) ∧
    (s.conf.variant = .B →
      step s = if (s.eng i).iir &&& m ≠ 0 then exec (rowB i (without (s.eng i).iir m)) { s with agenda := rest }
        else .next ({ s with agenda := rest }.setPhase i q)) := by
  simp only [List.mem_cons, List.not_mem_nil, or_false, Prod.mk.injEq] at h
  rcases h with ⟨hp, rfl, rfl, rfl, rfl, rfl, rfl⟩ | ⟨hp, rfl, rfl, rfl, rfl, rfl, rfl⟩
  all_goals
    have turn := nextInstr_phase hi hrun hp
    simp only [seqEngine, withAgenda_eng, hp, seqTxDma, seqRxDma, rowDmaStatusATxDone, rowDmaStatusARxDone,
      rowIirBDmaTxDone, rowIirBDmaRxDone] at turn
    refine ⟨fun hA hen => step_none ?_, fun hA hen => step_test ?_, fun hB => step_test ?_⟩
    · simpa only [hA, hen, Bool.false_eq_true, if_false, advance] using turn
    · simpa only [hA, hen, if_true, regRead_withAgenda, regRead_fst, regRead_conf] using turn
    · simpa only [hB] using turn

/-- A receive loop whose line status has data-ready set has the row that delivers one byte. -/
theorem step_receive (hp : (s.eng i).phase = .cRxDataLoop ∨ (s.eng i).phase = .cTimeoutLoop)
    (hdr : s.answer i .LSR &&& s.conf.lsr.dr ≠ 0) :
    step s = exec (.lsrDr i (without (s.answer i .LSR) s.conf.lsr.dr))
      ((regRead i .LSR { s with agenda := rest }).2.upd i fun x => { x with l := s.answer i .LSR }) := by
  have row : rowLsrDr s.conf i (s.answer i .LSR) = some (.lsrDr i (without (s.answer i .LSR) s.conf.lsr.dr)) :=
    bitRow_eq_some.2 ⟨hdr, rfl⟩
  rcases hp with hp | hp
  all_goals
    refine step_some ((nextInstr_phase hi hrun hp).trans ?_)
    simp [seqEngine, hp, seqRxDataLoop, seqTimeoutLoop, readLsr_eq, regRead_withAgenda, regRead_fst, row]

/-- Step 9 has no row. -/
theorem step_dispatch (hp : (s.eng i).phase = .cDispatch) :
    step s = .next (leaveActivation i { s with agenda := rest }) := by
  refine step_none ((nextInstr_phase hi hrun hp).trans ?_)
  simp only [seqEngine, withAgenda_eng, hp]

end

/-- Settles O19: the turn of an entry, of a command at an empty port, and each phase of an activation that has a row. -/
theorem stepRunsTheDecodedInstruction : Obligations.StepRunsTheDecodedInstruction := by
  intro s i rest s' x value took
  refine ⟨fun hirq => step_some (nextInstr_irq hirq), fun w c hcmd hq hfree => ?_, fun hrun h => ?_⟩
  · refine step_some ((nextInstr_cmd hcmd).trans (hostTurn_take ?_ hfree))
    simp [s', hq]
  · exact ⟨step_decode_A h.1 hrun, step_decode_B h.1 hrun, fun _ _ _ => step_test_B h.1 hrun, step_modem h.1 hrun,
      fun _ _ _ _ _ _ => step_dma h.1 hrun, step_receive h.1 hrun⟩

/-- Settles O37: step 9 is the return of the activation. -/
theorem dispatchCallsTheEventSinkOnce : Obligations.DispatchCallsTheEventSinkOnce := by
  intro s i rest h hrun hp
  rw [step_dispatch h.1 hrun hp, leaveActivation_scene]
  exact ⟨_, rfl, (OnlyEngine.refl i s).scene _ _ rest, ⟨rfl, rfl, rfl⟩, scene_eng _ _ _ _ _ h.stored⟩

end Sys2Proof.Machine
end

section
/-! PROOF. Steps 1 and 2 of an activation (spec/40_classifier.md R113 to R118): the turn of each phase, with its row. -/

namespace Sys2Proof.Machine

section
variable {s t : State} {i : InstId} {rest : List Turn} {x : Engine} {acts : List Act}

/-- A turn that leaves a scene. -/
theorem takes_scene (h : s.live i) (ht : OnlyEngine i s t)
    (hstep : step s = .next (t.scene i x (s.trace ++ acts) rest)) : Takes i s rest acts t x :=
  ⟨_, hstep, ht.scene x _ rest, rfl, rfl, rfl, scene_eng _ _ _ _ _ (by rw [State.stored, ht.size]; exact h.stored)⟩

/-- A turn that reads nothing and performs no action. -/
theorem takes_silent (h : s.live i) (hstep : step s = .next (s.scene i x s.trace rest)) : Takes i s rest [] s x :=
  takes_scene h (OnlyEngine.refl i s) (by rw [hstep, List.append_nil])

end

/-- Settles O27: the turn of step 1, with its row where the condition is pending. -/
theorem dmaTransmitStep : Obligations.DmaTransmitStep := by
  intro s i rest h hwf hrun hp w x done
  obtain ⟨offA, onA, testB⟩ := step_dma h.1 hrun (by rw [hp]; exact List.mem_cons_self)
  simp only [withAgenda_eq_scene s i, scene_read, setPhase_eq, scene_upd] at offA onA testB
  refine ⟨fun hA hen => takes_silent h (offA hA hen), fun hA (hen : (s.eng i).cfg.txDmaEn = true) => ?_, fun hB => ?_⟩
  · refine takes_scene h ((OnlyEngine.refl i s).read .DMA_STATUS) ?_
    rw [onA hA hen]
    split_ifs
    · rw [(exec_dmaTxDone_of_enabled ((live_read i .DMA_STATUS).2 h) (by simpa using hwf) hen _).1, regRead_conf,
        List.append_assoc]
      rfl
    · rfl
  · intro pending
    refine takes_scene h (OnlyEngine.refl i s) ?_
    rw [testB hB]
    by_cases hbit : (s.eng i).iir &&& s.conf.iirB.dmaTxDone = 0
    · simp [hbit, pending, x]
    · by_cases hen : (s.eng i).cfg.txDmaEn = true
      · rw [if_pos hbit, (exec_dmaTxDone_of_enabled h hwf hen _).2]
        simp [hen, hbit, pending, txDoneRecord, x, done]
      · rw [if_pos hbit, (exec_dmaTxDone_of_disabled h (by simpa using hen) _).2]
        simp [hen, pending, x]

/-- Settles O28: the turn of step 2, with its row where the condition is pending. -/
theorem dmaReceiveStep : Obligations.DmaReceiveStep := by
  intro s i rest h hwf hrun hp x w sA bitA bitB done
  obtain ⟨offA, onA, testB⟩ := step_dma h.1 hrun (by rw [hp]; exact List.mem_cons_of_mem _ List.mem_cons_self)
  simp only [withAgenda_eq_scene s i, scene_read, setPhase_eq, scene_upd] at offA onA testB
  refine ⟨fun hA hen hbit => ?_, fun hA hen hbit => ?_, fun hB hen hbit => ?_, fun hB hen hbit => ?_, fun hen => ?_⟩
  · refine takes_scene h (((OnlyEngine.refl i s).read .DMA_STATUS).read .DMA_RX_LEFT) ?_
    rw [onA hA hen, if_pos hbit,
      (exec_dmaRxDone_of_enabled ((live_read i .DMA_STATUS).2 h) (by simpa using hwf) hen _).1, regRead_conf, List.append_assoc]
    rfl
  · refine takes_scene h ((OnlyEngine.refl i s).read .DMA_STATUS) ?_
    rw [onA hA hen, if_neg (not_not_intro hbit)]
  · refine takes_scene h ((OnlyEngine.refl i s).read .DMA_RX_LEFT) ?_
    rw [testB hB, if_pos hbit, (exec_dmaRxDone_of_enabled h hwf hen _).2]
    rfl
  · exact takes_silent h ((testB hB).trans (if_neg (not_not_intro hbit)))
  · refine takes_silent h ?_
    cases hv : s.conf.variant
    · exact offA hv hen
    · rw [testB hv]
      split_ifs
      · exact (exec_dmaRxDone_of_disabled h hen _).2
      · rfl

end Sys2Proof.Machine
end

section
/-! PROOF. The receive loop (spec/40_classifier.md R131): one turn of it, and by induction any number of turns. -/

namespace Sys2Proof.Machine

/-- A run that begins with a next state goes on from it. -/
theorem run_of_step {M : Host.Core} {s t : M.State} (h : M.step s = .next t) (k : Nat) : M.run (k + 1) s = M.run k t := by
  rw [Host.Core.run, h]

/-- See `run_of_step`, for this machine. -/
theorem run_succ {s t : State} (h : step s = .next t) (k : Nat) :
    Sys2Proof.core.run (k + 1) s = Sys2Proof.core.run k t := run_of_step (M := Sys2Proof.core) h k

/-- The record after one turn of a receive loop that reads `a` from `LSR` and `b` from `RBR`. -/
def receivedRecord (c : Config) (x : Engine) (a b : Nat) : Engine :=
  { x with
    l := c.reg a
    b := BitVec.ofNat 8 (c.reg b)
    n := if x.phase = .cTimeoutLoop then x.n + 1 else x.n }

/-- The actions of a loop are those of its first turn and of the rest. -/
theorem loopActs_cons (c : Config) (i : InstId) (p : Nat × Nat) (bs : List (Nat × Nat)) :
    loopActs c i (p :: bs) = loopActs c i [p] ++ loopActs c i bs := by simp [loopActs]

/-- One turn of a receive loop whose answers head the script. -/
theorem step_receiveByte {s : State} {i : InstId} {p : Nat × Nat} {as : List Answer} {rest : List Turn} (h : s.live i)
    (hrun : s.agenda = .run i :: rest) (hp : (s.eng i).phase = .cRxDataLoop ∨ (s.eng i).phase = .cTimeoutLoop)
    (hanswers : s.answers = ⟨i, .LSR, p.1⟩ :: ⟨i, .RBR, p.2⟩ :: as) (hdr : s.conf.reg p.1 &&& s.conf.lsr.dr ≠ 0) :
    ∃ t, step s = .next t ∧ t.conf = s.conf ∧ t.live i ∧ t.agenda = rest ∧ t.answers = as ∧
      t.trace = s.trace ++ loopActs s.conf i [p] ∧ t.eng i = receivedRecord s.conf (s.eng i) p.1 p.2 := by
  have status := regRead_of_head i .LSR hanswers
  have hvalue : s.answer i .LSR = s.conf.reg p.1 := congrArg Prod.fst status
  have hleft : (regRead i .LSR s).2.answers = ⟨i, .RBR, p.2⟩ :: as := by rw [status]
  have byte := regRead_of_head i .RBR hleft
  have hbyte : (regRead i .LSR s).2.answer i .RBR = s.conf.reg p.2 := by rw [State.answer, byte, regRead_conf]
  have turn := step_receive h.1 hrun hp (by rwa [hvalue])
  rw [withAgenda_eq_scene s i, scene_read, scene_upd, hvalue] at turn
  refine ⟨_, turn.trans (if_pos (by simpa using h.1)), ?_, ?_, ?_, ?_, ?_, ?_⟩
  all_goals rw [receiveByte_scene]
  · simp [scene_read]
  · simpa [scene_read] using h
  · rfl
  · rw [scene_answers, scene_read, scene_answers, byte]
  · simp [hbyte, loopActs]
  · simp only [scene_read, scene_scene, scene_answer, hbyte]
    rw [scene_eng _ _ _ _ _ (by simpa using h.stored), scene_eng _ _ _ _ _ (by simpa using h.stored)]
    rfl

/-- Settles O40, by induction on the turns: each leaves the engine in its loop. -/
theorem receiveLoopIsNotBounded : Obligations.ReceiveLoopIsNotBounded := by
  intro s i bs as h hp hdr hanswers hagenda
  induction bs generalizing s with
  | nil => exact ⟨s, rfl, rfl, (List.append_nil _).symm, hanswers, rfl, by simp⟩
  | cons p bs ih =>
    obtain ⟨hfirst, hrest⟩ := List.forall_mem_cons.1 hdr
    obtain ⟨u, hstep, hconf, hlive, hturns, hleft, hacts, hrecord⟩ := step_receiveByte h hagenda hp hanswers hfirst
    have hphase : (u.eng i).phase = (s.eng i).phase := by rw [hrecord]; rfl
    obtain ⟨t, hrun, hphase', htrace, hend, hev, hn⟩ :=
      ih u hlive (by rwa [hphase]) (by rwa [hconf]) hleft hturns
    refine ⟨t, (run_succ hstep _).trans hrun, hphase'.trans hphase, ?_, hend, ?_, ?_⟩
    · rw [htrace, hacts, hconf, List.append_assoc, ← loopActs_cons]
    · rw [hev, hrecord]
      rfl
    · rw [hn, hphase, hrecord]
      simp only [receivedRecord, List.length_cons]
      split <;> omega

end Sys2Proof.Machine
end

section
/-! PROOF. What an activation leaves (spec/40_classifier.md R129): its operations change the working registers, the event mask,
the phase and the write side of the UART, and never an instance's flags, configuration and cursor. -/

namespace Sys2Proof.Machine

/-- The two records have the same flags, configuration and cursor. -/
structure SameRecord (x y : Engine) : Prop where
  initialized : y.initialized = x.initialized
  powered     : y.powered = x.powered
  cfg         : y.cfg = x.cfg
  cursor      : y.cursor = x.cursor

theorem SameRecord.trans {x y z : Engine} (h : SameRecord x y) (g : SameRecord y z) : SameRecord x z :=
  ⟨g.initialized.trans h.initialized, g.powered.trans h.powered, g.cfg.trans h.cfg, g.cursor.trans h.cursor⟩

/-- From `s` to `t` at most the record of engine `i`, the trace and the answers change, and of that record neither flags nor
configuration nor cursor. -/
structure Leaves (i : InstId) (s t : State) : Prop where
  only   : OnlyEngine i s t
  record : SameRecord (s.eng i) (t.eng i)

/-- An update of a record that is not there changes nothing. -/
theorem upd_of_not_stored {s : State} {i : InstId} (h : ¬ s.stored i) (f : Engine → Engine) : s.upd i f = s := by
  rw [State.upd, List.modify_eq_self (Nat.le_of_not_lt h)]

section
variable {i : InstId} {s t : State}

theorem Leaves.refl : Leaves i s s := ⟨OnlyEngine.refl i s, rfl, rfl, rfl, rfl⟩

/-- A change of the record that keeps flags, configuration and cursor. -/
theorem Leaves.upd (h : Leaves i s t) {f : Engine → Engine}
    (hf : ∀ x, SameRecord x (f x) := by exact fun _ => ⟨rfl, rfl, rfl, rfl⟩) : Leaves i s (t.upd i f) := by
  refine ⟨h.only.upd f, ?_⟩
  by_cases hs : t.stored i
  · rw [upd_eng_self t i f hs]
    exact h.record.trans (hf _)
  · rw [upd_of_not_stored hs]
    exact h.record

theorem Leaves.emit (h : Leaves i s t) (a : Act) : Leaves i s (t.emit a) := ⟨h.only.emit a, h.record⟩

theorem Leaves.read (h : Leaves i s t) (r : Reg) : Leaves i s (regRead i r t).2 :=
  ⟨h.only.read r, by rw [regRead_eng]; exact h.record⟩

theorem Leaves.write (h : Leaves i s t) (r : Reg) (v : Nat) : Leaves i s (regWrite i r v t) := h.upd.emit _

theorem Leaves.readLeft (h : Leaves i s t) : Leaves i s (readLeft i t).2 := by
  rw [readLeft_eq]
  exact (h.read .DMA_RX_LEFT).upd

theorem Leaves.readLsr (h : Leaves i s t) : Leaves i s (readLsr i t).2 := (h.read .LSR).upd

/-- One received byte: its read and its delivery. -/
theorem Leaves.deliverRbr (h : Leaves i s t) : Leaves i s (byteSink i (readRbr i t).1 (readRbr i t).2) :=
  (h.read .RBR).upd.emit _

theorem Leaves.enterActivation (h : Leaves i s t) : Leaves i s (enterActivation i t) := by
  simp only [Machine.enterActivation]
  split
  · exact h.upd.upd
  · exact (h.upd.read .IIR).upd

theorem Leaves.hRxData (h : Leaves i s t) (p : Phase) : Leaves i s (hRxData i p t) := by
  simp only [Machine.hRxData]
  split
  · exact h.deliverRbr.upd
  · exact h.upd.upd

theorem Leaves.hLine (h : Leaves i s t) (v : Variant) (p : Phase) : Leaves i s (hLine v i p t) := by
  simp only [Machine.hLine, lineErrorEvents_eq]
  cases v
  · exact h.readLsr.upd.upd
  · exact (h.readLsr.upd.write .LSR _).upd

theorem Leaves.hTimeout (h : Leaves i s t) (p : Phase) : Leaves i s (hTimeout i p t) := by
  simp only [Machine.hTimeout]
  split
  · exact h.upd
  · exact h.upd.upd

theorem Leaves.dmaTxDone (h : Leaves i s t) (r : Reg) (v : Nat) : Leaves i s (dmaTxDone i r v t) := by
  simp only [Machine.dmaTxDone]
  split
  · exact ((h.write r v).write .DMA_TX_EN 0).upd.upd
  · exact h.upd

theorem Leaves.lowWaterEvent (h : Leaves i s t) (left : Nat) : Leaves i s (lowWaterEvent i left t) := by
  rw [lowWaterEvent_eq]
  exact h.upd

theorem Leaves.dmaRxDone (h : Leaves i s t) (r : Reg) (v : Nat) : Leaves i s (dmaRxDone i r v t) := by
  have tested := (h.write r v).readLeft.lowWaterEvent (Machine.readLeft i (regWrite i r v t)).1
  simp only [Machine.dmaRxDone]
  split
  · split
    · exact tested.upd
    · exact tested.upd.upd
  · exact h.upd

theorem Leaves.unexpectedIfNone (h : Leaves i s t) : Leaves i s (unexpectedIfNone i t) := by
  unfold Machine.unexpectedIfNone
  split
  · exact h.upd
  · exact h

end

/-- A row of an activation acts on an instance that exists, and leaves its flags, configuration and cursor. -/
def LeavesOrRefused (i : InstId) (s : State) (r : Result) : Prop :=
  (¬ s.has i ∧ r = .refused .noSuchInstance) ∨ ∃ t, s.has i ∧ r = .next t ∧ Leaves i s t

theorem onInst_leaves {i : InstId} {s : State} {f : State → State} (h : Leaves i s (f s)) :
    LeavesOrRefused i s (onInst i f s) := by
  by_cases hi : s.has i
  · exact .inr ⟨f s, hi, onInst_of_has hi, h⟩
  · exact .inl ⟨hi, onInst_of_absent hi⟩

/-- What a row of an activation does. -/
theorem exec_leaves {r : Instr} {s : State} (hr : r.ofActivation = true) : LeavesOrRefused r.inst s (exec r s) := by
  unfold exec
  cases r
  case irq =>
    refine onInst_leaves ?_
    split
    · exact Leaves.refl.enterActivation
    · exact Leaves.refl.upd
  case initCommit | swap | left | txdmaStart | powerOffMark | powerOnMark | uninitMark | reserved7 => cases hr
  case rspOk | rspInvalidId | rspNotInit | rspNotPowered | rspDmaNotEnabled
      | rspBufferTooSmall | rspBadDmaBuffer | rspUnsupported => cases hr
  case iirALineErr | iirBLineErr => exact onInst_leaves (Leaves.refl.hLine _ _)
  case iirARxData | iirBRxData => exact onInst_leaves (Leaves.refl.hRxData _)
  case iirATimeout | iirBTimeout => exact onInst_leaves (Leaves.refl.hTimeout _)
  case iirAThrEmpty | iirBThrEmpty | iirAModem | iirBModem | iirAUnexpected6 | iirAUnexpected7 =>
    exact onInst_leaves Leaves.refl.upd.upd
  case iirBNoneMatched => exact onInst_leaves Leaves.refl.unexpectedIfNone.upd
  case iirBDmaTxDone | dmaStatusATxDone => exact onInst_leaves (Leaves.refl.dmaTxDone _ _)
  case iirBDmaRxDone | dmaStatusARxDone => exact onInst_leaves (Leaves.refl.dmaRxDone _ _)
  case lsrDr => exact onInst_leaves Leaves.refl.deliverRbr.upd
  case lsrTxEmpty => exact onInst_leaves Leaves.refl
  -- the row of no condition goes on, the error rows of `LSR` and the rows of `EV` enter an event
  all_goals exact onInst_leaves Leaves.refl.upd

/-- Settles O13: a row is refused on an instance that does not exist, or leaves its record. -/
theorem activationRowsLeaveTheRecord : Obligations.ActivationRowsLeaveTheRecord := by
  intro r s hr
  rcases exec_leaves (s := s) hr with ⟨habsent, hrefused⟩ | ⟨u, hi, hnext, hu⟩
  · exact ⟨iff_of_true hrefused habsent, fun t ht => by rw [hrefused] at ht; cases ht⟩
  · refine ⟨iff_of_false (by simp [hnext]) (not_not_intro hi), fun t ht => ?_⟩
    obtain rfl : u = t := Host.Outcome.next.inj (hnext.symm.trans ht)
    obtain ⟨only, record⟩ := hu
    refine ⟨fun j => ?_, only.bytes, only.cfgIn, only.cmdq, only.agenda⟩
    by_cases hj : j = r.inst
    · subst hj
      exact ⟨record.initialized, record.powered, record.cfg, record.cursor⟩
    · rw [only.others j hj]
      exact ⟨rfl, rfl, rfl, rfl⟩

end Sys2Proof.Machine
end

section
/-! PROOF. No readiness check (spec/40_classifier.md R112): the operations of a turn of engine `i` do the same whatever the flags
of instance `i` are, and leave the flags. Said as commutation with a change of the flags, per operation, row, phase and turn. -/

namespace Sys2Proof.Machine

/-- The record with other flags. -/
def Engine.flagged (initialized powered : Bool) (x : Engine) : Engine :=
  { x with initialized := initialized, powered := powered }

section
variable {a b : Bool} {i : InstId} {s : State}

/-- A change of the record that neither reads nor writes the flags. -/
theorem upd_flags {f : Engine → Engine} (hf : ∀ x, f (x.flagged a b) = (f x).flagged a b := by exact fun _ => rfl) :
    (s.upd i (.flagged a b)).upd i f = (s.upd i f).upd i (.flagged a b) := by
  rw [upd_upd, upd_upd]
  exact congrArg (s.upd i) (funext hf)

theorem setPhase_flags (p : Phase) : (s.upd i (.flagged a b)).setPhase i p = (s.setPhase i p).upd i (.flagged a b) :=
  upd_flags

theorem orEv_flags (m : Nat) : orEv i m (s.upd i (.flagged a b)) = (orEv i m s).upd i (.flagged a b) := upd_flags

/-- An event is entered and the phase follows. -/
theorem event_flags (m : Nat) (p : Phase) :
    (orEv i m (s.upd i (.flagged a b))).setPhase i p = ((orEv i m s).setPhase i p).upd i (.flagged a b) := by
  rw [orEv_flags, setPhase_flags]

theorem regWrite_flags (r : Reg) (v : Nat) :
    regWrite i r v (s.upd i (.flagged a b)) = (regWrite i r v s).upd i (.flagged a b) :=
  congrArg (State.emit · (.regWrite i r (s.conf.reg v)))
    (upd_flags (f := fun x => { x with uart := x.uart.write r (s.conf.reg v) }))

theorem readLsr_flags : readLsr i (s.upd i (.flagged a b)) = ((readLsr i s).1, (readLsr i s).2.upd i (.flagged a b)) := by
  rw [readLsr_eq, readLsr_eq, regRead_upd, upd_flags]

theorem swapCommit_flags (n m : Nat) :
    swapCommit i n m (s.upd i (.flagged a b)) = (swapCommit i n m s).upd i (.flagged a b) := by
  simp only [swapCommit, regWrite_flags]
  exact upd_flags

theorem respond_flags (st : Status) (v : Nat) :
    respond i st v (s.upd i (.flagged a b)) = (respond i st v s).upd i (.flagged a b) :=
  congrArg (State.emit · (.ret i st v)) (setPhase_flags .idle)

end

section
variable {a b : Bool} {i : InstId} {s : State} (h : s.stored i)
include h

/-! ### Activations and handlers -/

theorem enterActivation_flags :
    enterActivation i (s.upd i (.flagged a b)) = (enterActivation i s).upd i (.flagged a b) := by
  cases hv : s.conf.variant
  · simp [enterActivation_scene_A, hv, upd_eq_scene s, scene_eng, h, Engine.flagged]
  · simp [enterActivation_scene_B, hv, upd_eq_scene s, scene_eng, scene_read, h, Engine.flagged]

/-- An entry that starts an activation or is held. -/
theorem irq_flags :
    (if ((s.upd i (.flagged a b)).eng i).phase = .idle then enterActivation i (s.upd i (.flagged a b))
      else holdIrq i (s.upd i (.flagged a b))) =
    (if (s.eng i).phase = .idle then enterActivation i s else holdIrq i s).upd i (.flagged a b) := by
  rw [upd_eng_self s i _ h, enterActivation_flags h]
  show (if (s.eng i).phase = .idle then _ else _) = _
  split
  · rfl
  · exact upd_flags

theorem leaveActivation_flags :
    leaveActivation i (s.upd i (.flagged a b)) = (leaveActivation i s).upd i (.flagged a b) := by
  simp [leaveActivation_scene, upd_eq_scene s, scene_eng, h, Engine.flagged]

theorem hRxData_flags (p : Phase) : hRxData i p (s.upd i (.flagged a b)) = (hRxData i p s).upd i (.flagged a b) := by
  cases hcb : (s.eng i).cfg.rxCb <;>
    simp [hRxData_scene, hcb, upd_eq_scene s, scene_eng, scene_read, h, Engine.flagged]

theorem hTimeout_flags (p : Phase) : hTimeout i p (s.upd i (.flagged a b)) = (hTimeout i p s).upd i (.flagged a b) := by
  cases hcb : (s.eng i).cfg.rxCb <;> simp [hTimeout_scene, hcb, upd_eq_scene s, scene_eng, h, Engine.flagged]

theorem hLine_flags (v : Variant) (p : Phase) :
    hLine v i p (s.upd i (.flagged a b)) = (hLine v i p s).upd i (.flagged a b) := by
  cases v
  · simp [hLine_scene_A, upd_eq_scene s, scene_eng, scene_read, h, Engine.flagged]
  · simp [hLine_scene_B, upd_eq_scene s, scene_eng, scene_read, h, Engine.flagged]

theorem receiveByte_flags : receiveByte i (s.upd i (.flagged a b)) = (receiveByte i s).upd i (.flagged a b) := by
  simp [receiveByte_scene, upd_eq_scene s, scene_eng, scene_read, h, Engine.flagged]

theorem noneMatched_flags (p : Phase) : (unexpectedIfNone i (s.upd i (.flagged a b))).setPhase i p =
    ((unexpectedIfNone i s).setPhase i p).upd i (.flagged a b) := by
  rw [unexpectedIfNone_scene, unexpectedIfNone_scene]
  simp [upd_eq_scene s, scene_eng, h, Engine.flagged]

theorem dmaTxDone_flags {r : Reg} (hr : r.unkept) (v : Nat) :
    dmaTxDone i r v (s.upd i (.flagged a b)) = (dmaTxDone i r v s).upd i (.flagged a b) := by
  rw [dmaTxDone_scene h hr, dmaTxDone_scene (by simpa using h) hr]
  cases hen : (s.eng i).cfg.txDmaEn <;> simp [hen, upd_eq_scene s, scene_eng, h, Engine.flagged, txDoneRecord]

theorem dmaRxDone_flags {r : Reg} (hr : r.unkept) (v : Nat) :
    dmaRxDone i r v (s.upd i (.flagged a b)) = (dmaRxDone i r v s).upd i (.flagged a b) := by
  rw [dmaRxDone_scene h hr, dmaRxDone_scene (by simpa using h) hr]
  cases hen : (s.eng i).cfg.rxDmaEn <;> cases hcb : (s.eng i).cfg.rxCb <;>
    simp [hen, hcb, upd_eq_scene s, scene_eng, scene_read, h, Engine.flagged, rxDoneRecord]

theorem drainTurn_flags :
    drainTurn i (s.upd i (.flagged a b)) = ((drainTurn i s).1, (drainTurn i s).2.upd i (.flagged a b)) := by
  have heng : (s.upd i (.flagged a b)).eng i = (s.eng i).flagged a b := upd_eng_self s i _ h
  by_cases hc : (s.eng i).cursor < scanEnd s.conf (s.eng i)
  · have hc' : ((s.upd i (.flagged a b)).eng i).cursor < scanEnd s.conf ((s.upd i (.flagged a b)).eng i) := by rwa [heng]
    by_cases hb : s.byteAt (bufByte s.conf (s.eng i).cfg.rxDmaBuffer (s.eng i).cursor) = 0
    · rw [drainTurn_zero hc hb, drainTurn_zero hc' (by rwa [heng]), heng, upd_emit, upd_flags]
      rfl
    · rw [drainTurn_deliver hc hb, drainTurn_deliver hc' (by rwa [heng]), heng, upd_emit, upd_emit, upd_flags]
      rfl
  · rw [drainTurn_end hc, drainTurn_end (by rwa [heng])]

theorem fillTurn_flags (k : Nat) :
    fillTurn i k (s.upd i (.flagged a b)) = ((fillTurn i k s).1, (fillTurn i k s).2.upd i (.flagged a b)) := by
  have heng : (s.upd i (.flagged a b)).eng i = (s.eng i).flagged a b := upd_eng_self s i _ h
  by_cases hk : k < (s.eng i).cfg.rxDmaBuffLength
  · have hw (n : Nat) : memWrite i n 0 (s.upd i (.flagged a b)) = (memWrite i n 0 s).upd i (.flagged a b) := rfl
    rw [fillTurn_write hk, fillTurn_write (by rwa [heng]), heng, hw, upd_flags]
    rfl
  · rw [fillTurn_end hk, fillTurn_end (by rwa [heng])]

/-! ### Rows -/

/-- A row of an activation neither reads nor writes the flags. -/
theorem exec_flags {r : Instr} (hr : r.ofActivation = true) (hi : r.inst = i) : Ignores i (.flagged a b) s (exec r) := by
  subst hi
  cases r
  case irq => exact onInst_ignores (irq_flags h)
  case initCommit | swap | left | txdmaStart | powerOffMark | powerOnMark | uninitMark | reserved7 => cases hr
  case rspOk | rspInvalidId | rspNotInit | rspNotPowered | rspDmaNotEnabled
      | rspBufferTooSmall | rspBadDmaBuffer | rspUnsupported => cases hr
  case iirALineErr | iirBLineErr => exact onInst_ignores (hLine_flags h _ _)
  case iirARxData | iirBRxData => exact onInst_ignores (hRxData_flags h _)
  case iirATimeout | iirBTimeout => exact onInst_ignores (hTimeout_flags h _)
  case iirAThrEmpty | iirBThrEmpty | iirAModem | iirBModem | iirAUnexpected6 | iirAUnexpected7 =>
    exact onInst_ignores (event_flags _ _)
  case iirANone => exact onInst_ignores (setPhase_flags _)
  case iirBNoneMatched => exact onInst_ignores (noneMatched_flags h _)
  case iirBDmaTxDone => exact onInst_ignores (dmaTxDone_flags h unkept_iir _)
  case iirBDmaRxDone => exact onInst_ignores (dmaRxDone_flags h unkept_iir _)
  case dmaStatusATxDone => exact onInst_ignores (dmaTxDone_flags h unkept_dmaStatus _)
  case dmaStatusARxDone => exact onInst_ignores (dmaRxDone_flags h unkept_dmaStatus _)
  case lsrDr => exact onInst_ignores (receiveByte_flags h)
  case lsrTxEmpty => exact onInst_ignores rfl
  -- the error rows of `LSR` and the rows of `EV` enter an event
  all_goals exact onInst_ignores (orEv_flags _)


/-! ### Phases and turns -/

omit h in
theorem test_flags (row : Option Instr) (p : Phase) :
    test row i p (s.upd i (.flagged a b)) = turnUpd i (.flagged a b) (test row i p s) := by
  cases row with
  | none => exact congrArg (Prod.mk none) (setPhase_flags p)
  | some r => rfl

theorem eng_flags : (s.upd i (.flagged a b)).eng i = (s.eng i).flagged a b := upd_eng_self s i _ h

theorem seqTxDma_flags : seqTxDma i (s.upd i (.flagged a b)) = turnUpd i (.flagged a b) (seqTxDma i s) := by
  simp only [seqTxDma, upd_conf, eng_flags h, Engine.flagged, regRead_upd, test_flags, advance, setPhase_flags]
  split
  · split <;> rfl
  · rfl

theorem seqRxDma_flags : seqRxDma i (s.upd i (.flagged a b)) = turnUpd i (.flagged a b) (seqRxDma i s) := by
  simp only [seqRxDma, upd_conf, eng_flags h, Engine.flagged, regRead_upd, test_flags, advance, setPhase_flags]
  split
  · split <;> rfl
  · rfl

theorem seqDrain_flags : seqDrain i (s.upd i (.flagged a b)) = turnUpd i (.flagged a b) (seqDrain i s) := by
  simp only [seqDrain, drainTurn_flags h]
  rcases drainTurn i s with ⟨_ | _, t⟩
  · exact congrArg (Prod.mk _) (setPhase_flags _)
  · rfl

theorem seqSwapDrain_flags (n m : Nat) :
    seqSwapDrain i n m (s.upd i (.flagged a b)) = turnUpd i (.flagged a b) (seqSwapDrain i n m s) := by
  simp only [seqSwapDrain, drainTurn_flags h]
  rcases drainTurn i s with ⟨_ | _, t⟩
  · exact congrArg (Prod.mk _) (setPhase_flags _)
  · rfl

theorem seqFill_flags (k : Nat) : seqFill i k (s.upd i (.flagged a b)) = turnUpd i (.flagged a b) (seqFill i k s) := by
  simp only [seqFill, fillTurn_flags h]
  rcases fillTurn i k s with ⟨_ | _, t⟩ <;> rfl

omit h in
theorem seqDecode_flags : seqDecode i (s.upd i (.flagged a b)) = turnUpd i (.flagged a b) (seqDecode i s) := by
  simp only [seqDecode, upd_conf, regRead_upd]
  split <;> exact congrArg (Prod.mk _) upd_flags

theorem seqModem_flags : seqModem i (s.upd i (.flagged a b)) = turnUpd i (.flagged a b) (seqModem i s) := by
  simp only [seqModem, upd_conf, eng_flags h, Engine.flagged, test_flags]
  split <;> rfl

omit h in
theorem seqRxDataLoop_flags :
    seqRxDataLoop i (s.upd i (.flagged a b)) = turnUpd i (.flagged a b) (seqRxDataLoop i s) := by
  simp only [seqRxDataLoop, readLsr_flags, upd_conf, setPhase_flags]
  split <;> rfl

theorem seqTimeoutLoop_flags :
    seqTimeoutLoop i (s.upd i (.flagged a b)) = turnUpd i (.flagged a b) (seqTimeoutLoop i s) := by
  have hread : (readLsr i s).2.stored i := by simpa [readLsr_eq, State.stored] using h
  simp only [seqTimeoutLoop, readLsr_flags, upd_conf, eng_flags hread, Engine.flagged, regRead_upd, setPhase_flags]
  split
  · rfl
  · split <;> rfl

/-- A phase neither reads nor writes the flags. -/
theorem seqEngine_flags : seqEngine i (s.upd i (.flagged a b)) = turnUpd i (.flagged a b) (seqEngine i s) := by
  simp only [seqEngine, eng_flags h, Engine.flagged, upd_conf]
  cases (s.eng i).phase
  case idle => rfl
  case cTxDma => exact seqTxDma_flags h
  case cRxDma => exact seqRxDma_flags h
  case cDrain => exact seqDrain_flags h
  case cDecode => exact seqDecode_flags
  case cRxData | cThre | cLine | cTimeout => exact test_flags _ _
  case cRxDataLoop => exact seqRxDataLoop_flags
  case cTimeoutLoop => exact seqTimeoutLoop_flags h
  case cModem => exact seqModem_flags h
  case cDispatch => exact congrArg (Prod.mk none) (leaveActivation_flags h)
  case kDrain n m => exact seqSwapDrain_flags h n m
  case kExecSwap n m => exact congrArg (Prod.mk _) (swapCommit_flags n m)
  case kExecFill k => exact seqFill_flags h k

theorem engineTurn_flags : engineTurn i (s.upd i (.flagged a b)) = turnUpd i (.flagged a b) (engineTurn i s) := by
  simp only [engineTurn, upd_has, State.busy, eng_flags h, Engine.flagged, seqEngine_flags h]
  split
  · rfl
  · split
    · rfl
    · split
      · rfl
      · exact congrArg (Prod.mk _) upd_flags

end

/-! ### The rows of a turn -/

/-- The row stands for a part of an activation, or for the response that ends a command. -/
def OfTurn (r : Instr) : Prop := r.ofActivation = true ∨ ∃ i v, r = .rspOk i v

section
variable {i : InstId} {s : State} {r : Instr}

/-- The row of a test, whose rows all stand for a part of an activation. -/
theorem test_ofTurn {row : InstId → Nat → Instr} (hrow : ∀ g, (row i g).ofActivation = true) {m w : Nat} {p : Phase}
    (h : (test (bitRow row m i w) i p s).1 = some r) : OfTurn r := by
  cases hbit : bitRow row m i w with
  | none => rw [hbit] at h; cases h
  | some r' =>
    obtain ⟨-, rfl⟩ := bitRow_eq_some.1 hbit
    rw [hbit] at h
    exact .inl (Option.some.inj h ▸ hrow _)

/-- Every row of an identification value on variant A stands for a part of an activation. -/
theorem decodeIirA_ofActivation (c : Config) (w : Nat) : (decodeIirA c i w).ofActivation = true := by
  unfold decodeIirA
  dsimp only
  (repeat' split) <;> rfl

theorem seqTxDma_ofTurn (h : (seqTxDma i s).1 = some r) : OfTurn r := by
  unfold seqTxDma at h
  split at h
  · split at h
    · exact test_ofTurn (fun _ => rfl) h
    · cases h
  · exact test_ofTurn (fun _ => rfl) h

theorem seqRxDma_ofTurn (h : (seqRxDma i s).1 = some r) : OfTurn r := by
  unfold seqRxDma at h
  split at h
  · split at h
    · exact test_ofTurn (fun _ => rfl) h
    · cases h
  · exact test_ofTurn (fun _ => rfl) h

theorem seqDrain_ofTurn (h : (seqDrain i s).1 = some r) : OfTurn r := by
  unfold seqDrain at h
  split at h
  · cases h
  · exact .inl (Option.some.inj h ▸ rfl)

theorem seqDecode_ofTurn (h : (seqDecode i s).1 = some r) : OfTurn r := by
  unfold seqDecode at h
  split at h
  · exact .inl (Option.some.inj h ▸ decodeIirA_ofActivation _ _)
  · cases h

theorem seqSwapDrain_ofTurn {n m : Nat} (h : (seqSwapDrain i n m s).1 = some r) : OfTurn r := by
  unfold seqSwapDrain at h
  split at h <;> cases h

theorem seqFill_ofTurn {k : Nat} (h : (seqFill i k s).1 = some r) : OfTurn r := by
  unfold seqFill at h
  split at h
  · cases h
  · exact .inr ⟨i, 0, (Option.some.inj h).symm⟩

theorem seqModem_ofTurn (h : (seqModem i s).1 = some r) : OfTurn r := by
  unfold seqModem at h
  split at h
  · next hbit =>
    obtain ⟨-, rfl⟩ := bitRow_eq_some.1 hbit
    exact .inl (Option.some.inj h ▸ rfl)
  · unfold rowIirBNoneMatched at h
    split at h
    · exact .inl (Option.some.inj h ▸ rfl)
    · cases h

/-- A receive loop has the row of one byte or an event. -/
theorem seqLoop_ofTurn (h : (seqRxDataLoop i s).1 = some r ∨ (seqTimeoutLoop i s).1 = some r) : OfTurn r := by
  simp only [seqRxDataLoop, seqTimeoutLoop, rowLsrDr, bitRow] at h
  left
  rcases h with h | h
  · split_ifs at h <;> exact Option.some.inj h ▸ rfl
  · split_ifs at h <;> exact Option.some.inj h ▸ rfl

/-- A turn has no row of a command. -/
theorem seqEngine_ofTurn (h : (seqEngine i s).1 = some r) : OfTurn r := by
  unfold seqEngine at h
  cases hp : (s.eng i).phase <;> rw [hp] at h
  case idle | cDispatch => cases h
  case cTxDma => exact seqTxDma_ofTurn h
  case cRxDma => exact seqRxDma_ofTurn h
  case cDrain => exact seqDrain_ofTurn h
  case cDecode => exact seqDecode_ofTurn h
  case cRxData | cThre | cLine | cTimeout => exact test_ofTurn (fun _ => rfl) h
  case cRxDataLoop => exact seqLoop_ofTurn (.inl h)
  case cTimeoutLoop => exact seqLoop_ofTurn (.inr h)
  case cModem => exact seqModem_ofTurn h
  case kDrain n m => exact seqSwapDrain_ofTurn h
  case kExecSwap => exact .inr ⟨i, 0, (Option.some.inj h).symm⟩
  case kExecFill k => exact seqFill_ofTurn h

theorem engineTurn_ofTurn (h : (engineTurn i s).1 = some r) : OfTurn r := by
  unfold engineTurn at h
  split at h
  · cases h
  · split at h
    · exact seqEngine_ofTurn h
    · split at h
      · cases h
      · exact .inl (Option.some.inj h ▸ rfl)

end

/-! ### Steps -/

section
variable {a b : Bool} {i : InstId} {s : State} {rest : List Turn}

/-- Where there is no record there are no flags. -/
theorem ignores_of_not_stored {own : State → Result} (h : ¬ s.stored i)
    (hsize : ∀ t, own s = .next t → t.engines.length = s.engines.length) : Ignores i (.flagged a b) s own := by
  rw [Ignores, upd_of_not_stored h]
  cases hown : own s with
  | next t => exact congrArg _ (upd_of_not_stored (by rw [State.stored, hsize t hown]; exact h) _).symm
  | fault | refused => rfl

/-- A row of a turn of engine `i` neither reads nor writes the flags. -/
theorem exec_ofTurn_flags {r : Instr} (h : s.stored i) (hr : OfTurn r) (hi : r.inst = i) :
    Ignores i (.flagged a b) s (exec r) := by
  rcases hr with hr | ⟨_, v, rfl⟩
  · exact exec_flags h hr hi
  · subst hi
    exact next_ignores (respond_flags _ _)

/-- An interrupt entry of instance `i`. -/
theorem step_irq_flags (hirq : s.agenda = .irq i :: rest) : Ignores i (.flagged a b) s step := by
  have entry : Ignores i (.flagged a b) { s with agenda := rest } (exec (.irq i)) := by
    by_cases h : s.stored i
    · exact exec_flags (s := { s with agenda := rest }) (r := .irq i) h rfl rfl
    · exact ignores_of_not_stored h fun t ht => (exec_keeps (.irq i) t ht).size
  rw [Ignores, step_some (nextInstr_irq hirq), step_some (nextInstr_irq (s := s.upd i _) hirq)]
  exact entry

/-- A turn of engine `i`. -/
theorem step_run_flags (hrun : s.agenda = .run i :: rest) : Ignores i (.flagged a b) s step := by
  by_cases h : s.stored i
  · have here := nextInstr_run hrun
    have there : nextInstr (s.upd i (.flagged a b)) = turnUpd i (.flagged a b) (engineTurn i { s with agenda := rest }) :=
      (nextInstr_run (s := s.upd i _) hrun).trans (engineTurn_flags (s := { s with agenda := rest }) h)
    have turn : TurnOf i { s with agenda := rest } (engineTurn i { s with agenda := rest }) := engineTurn_turn
    have rows {r : Instr} (hr : (engineTurn i { s with agenda := rest }).1 = some r) : OfTurn r := engineTurn_ofTurn hr
    rcases hturn : engineTurn i { s with agenda := rest } with ⟨_ | r, t⟩ <;> rw [hturn] at here there turn rows
    · rw [Ignores, step_none here, step_none there]
      rfl
    · rw [Ignores, step_some here, step_some there]
      exact exec_ofTurn_flags (by rw [State.stored, turn.state.size]; exact h) (rows rfl) (turn.row r rfl)
  · exact ignores_of_not_stored h fun t ht => (step_run_keeps hrun ht).size

end

/-- Settles O15: an entry or a turn of the instance with other flags does the same, and one of another instance does not see
the record. -/
theorem activationsMakeNoReadinessCheck : Obligations.ActivationsMakeNoReadinessCheck := by
  intro s i j initialized powered rest hagenda
  by_cases hij : i = j
  · subst hij
    exact hagenda.elim step_irq_flags step_run_flags
  · rcases hagenda with hirq | hrun
    · show Ignores i (.flagged initialized powered) s step
      rw [Ignores, step_some (nextInstr_irq hirq), step_some (nextInstr_irq (s := s.upd i _) hirq)]
      exact exec_ignores (s := { s with agenda := rest }) (.irq j) hij
    · exact step_run_ignores hij hrun

end Sys2Proof.Machine
end

section
/-! PROOF. Whole activations without DMA and receive callback (spec/40_classifier.md R111 to R128): the scene each turn leaves,
and the run of an activation on variant A as the chain of its turns. -/

namespace Sys2Proof.Machine

section
variable {s : State} {i : InstId} {x : Engine} {tr : List Act} {rest : List Turn} (h : s.live i)
include h

/-! ### Turns of both variants -/

/-- The entry on variant A. -/
theorem turn_irq_A (hA : s.conf.variant = .A) (hidle : x.phase = .idle) :
    step (s.scene i x tr (.irq i :: rest)) = .next (s.scene i { x with ev := 0, phase := .cTxDma } tr rest) := by
  have entry : step (s.scene i x tr (.irq i :: rest)) = exec (.irq i) (s.scene i x tr rest) := step_some (nextInstr_irq rfl)
  rw [entry, exec_irq_of_idle (s := s.scene i x tr rest) h.1 (by rwa [scene_eng _ _ _ _ _ h.stored]),
    enterActivation_scene_A (s := s.scene i x tr rest) hA, scene_scene, scene_eng _ _ _ _ _ h.stored]
  rfl

/-- The entry on variant B. -/
theorem turn_irq_B (hB : s.conf.variant = .B) (hidle : x.phase = .idle) :
    step (s.scene i x tr (.irq i :: rest)) = .next ((regRead i .IIR s).2.scene i
      { x with ev := 0, iir := s.answer i .IIR, phase := .cTxDma } (tr ++ [.regRead i .IIR (s.answer i .IIR)]) rest) := by
  have entry : step (s.scene i x tr (.irq i :: rest)) = exec (.irq i) (s.scene i x tr rest) := step_some (nextInstr_irq rfl)
  rw [entry, exec_irq_of_idle (s := s.scene i x tr rest) h.1 (by rwa [scene_eng _ _ _ _ _ h.stored]),
    enterActivation_scene_B (s := s.scene i x tr rest) hB, scene_read, scene_scene, scene_eng _ _ _ _ _ h.stored,
    scene_answer]
  rfl

/-- Step 1 without TX DMA. -/
theorem turn_txDma_of_disabled (hp : x.phase = .cTxDma) (hen : x.cfg.txDmaEn = false) :
    step (s.scene i x tr (.run i :: rest)) = .next (s.scene i { x with phase := .cRxDma } tr rest) := by
  have heng := scene_eng s i x tr (.run i :: rest) h.stored
  obtain ⟨offA, -, testB⟩ := step_dma (s := s.scene i x tr (.run i :: rest)) h.1 rfl
    (by rw [heng, hp]; exact List.mem_cons_self)
  simp only [heng, scene_withAgenda, setPhase_eq, scene_upd] at offA testB
  cases hv : s.conf.variant
  · exact offA hv hen
  · rw [testB hv]
    split_ifs
    · exact (exec_dmaTxDone_of_disabled h hen _).2
    · rfl

/-- Step 2 without RX DMA. -/
theorem turn_rxDma_of_disabled (hp : x.phase = .cRxDma) (hen : x.cfg.rxDmaEn = false) :
    step (s.scene i x tr (.run i :: rest)) = .next (s.scene i { x with phase := .cDecode } tr rest) := by
  have heng := scene_eng s i x tr (.run i :: rest) h.stored
  obtain ⟨offA, -, testB⟩ := step_dma (s := s.scene i x tr (.run i :: rest)) h.1 rfl
    (by rw [heng, hp]; exact List.mem_cons_of_mem _ List.mem_cons_self)
  simp only [heng, scene_withAgenda, setPhase_eq, scene_upd] at offA testB
  cases hv : s.conf.variant
  · exact offA hv hen
  · rw [testB hv]
    split_ifs
    · exact (exec_dmaRxDone_of_disabled h hen _).2
    · rfl

/-- Step 9. -/
theorem turn_dispatch (hp : x.phase = .cDispatch) :
    step (s.scene i x tr (.run i :: rest)) = .next (s.scene i { x with phase := .idle }
      (tr ++ if x.cfg.evCb = none then [] else [.eventSink i x.ev]) rest) := by
  rw [step_dispatch (s := s.scene i x tr (.run i :: rest)) h.1 rfl (by rw [scene_eng _ _ _ _ _ h.stored, hp]),
    scene_withAgenda, leaveActivation_scene, scene_eng _ _ _ _ _ h.stored]
  simp

/-- A row that enters an event and goes on, in a scene. -/
theorem event_in_scene (m : Nat) (p : Phase) : (orEv i m (s.scene i x tr rest)).setPhase i p =
    s.scene i { x with ev := x.ev ||| m, phase := p } tr rest := by
  rw [event_scene, scene_eng _ _ _ _ _ h.stored, scene_scene, scene_trace, scene_agenda]

/-! ### Variant A -/

/-- The row of an identification value that is no line error enters its event, without a receive callback. -/
theorem exec_decodeIirA_plain {w : Nat} (hcb : x.cfg.rxCb = none) (hline : w &&& s.conf.iirA.mask ≠ s.conf.iirA.lineErr) :
    exec (decodeIirA s.conf i w) (s.scene i x tr rest) =
      .next (s.scene i { x with ev := x.ev ||| plainEventA s.conf w, phase := .cDispatch } tr rest) := by
  have heng := scene_eng s i x tr rest h.stored
  rw [← event_in_scene h]
  simp only [decodeIirA, plainEventA, beq_iff_eq, if_neg hline]
  split_ifs
  · exact (if_pos h.1).trans (congrArg _ (by rw [hRxData, heng, hcb]; rfl))
  · exact if_pos h.1
  · exact (if_pos h.1).trans (congrArg _ (by rw [hTimeout, heng, hcb]; rfl))
  · exact if_pos h.1
  · exact (if_pos h.1).trans (congrArg _ (by simp [orEv]))
  · exact if_pos h.1
  · exact if_pos h.1

/-- Step 3 of variant A. -/
theorem turn_decode_A (hA : s.conf.variant = .A) (hp : x.phase = .cDecode) (hcb : x.cfg.rxCb = none)
    (hline : s.answer i .IIR &&& s.conf.iirA.mask ≠ s.conf.iirA.lineErr) :
    step (s.scene i x tr (.run i :: rest)) = .next ((regRead i .IIR s).2.scene i
      { x with
        v := s.answer i .IIR &&& s.conf.iirA.mask
        ev := x.ev ||| plainEventA s.conf (s.answer i .IIR)
        phase := .cDispatch }
      (tr ++ [.regRead i .IIR (s.answer i .IIR)]) rest) := by
  have turn : step (s.scene i x tr (.run i :: rest)) = exec (decodeIirA s.conf i (State.answer (s.scene i x tr _) i .IIR))
      ((regRead i .IIR (s.scene i x tr rest)).2.upd i fun x => { x with v := _ &&& s.conf.iirA.mask }) :=
    step_decode_A h.1 rfl (by rw [scene_eng _ _ _ _ _ h.stored, hp]) hA
  have row := exec_decodeIirA_plain ((live_read i .IIR).2 h) (w := s.answer i .IIR)
    (x := { x with v := s.answer i .IIR &&& s.conf.iirA.mask }) (tr := tr ++ [.regRead i .IIR (s.answer i .IIR)])
    (rest := rest) hcb (by rwa [regRead_conf])
  rw [regRead_conf] at row
  rw [turn, scene_read, scene_upd, scene_answer]
  exact row

/-- An activation on variant A: entry, steps 1 and 2 without DMA, step 3, step 9. -/
theorem run_plain_A (hA : s.conf.variant = .A) (hidle : x.phase = .idle) (htx : x.cfg.txDmaEn = false)
    (hrx : x.cfg.rxDmaEn = false) (hcb : x.cfg.rxCb = none)
    (hline : s.answer i .IIR &&& s.conf.iirA.mask ≠ s.conf.iirA.lineErr) :
    Sys2Proof.core.run 5 (s.scene i x tr (.irq i :: List.replicate 4 (.run i))) = .next ((regRead i .IIR s).2.scene i
      { x with
        v := s.answer i .IIR &&& s.conf.iirA.mask
        ev := 0 ||| plainEventA s.conf (s.answer i .IIR)
        phase := .idle }
      (tr ++ [.regRead i .IIR (s.answer i .IIR)] ++
        if x.cfg.evCb = none then [] else [.eventSink i (0 ||| plainEventA s.conf (s.answer i .IIR))]) []) := by
  have h1 : (regRead i .IIR s).2.live i := (live_read i .IIR).2 h
  have run := run_succ (turn_irq_A h (tr := tr) (rest := [.run i, .run i, .run i, .run i]) hA hidle) 4
  rwa [run_succ (turn_txDma_of_disabled h rfl (by exact htx)) 3,
    run_succ (turn_rxDma_of_disabled h rfl (by exact hrx)) 2,
    run_succ (turn_decode_A h hA rfl (by exact hcb) hline) 1,
    run_succ (turn_dispatch h1 rfl) 0] at run

end

/-- Settles O41: the five turns of the activation, from the entry to the return. -/
theorem plainActivationOnVariantA : Obligations.PlainActivationOnVariantA := by
  intro s i h hwf hA x w hidle htx hrx hcb hline hagenda
  have hs : s.scene i (s.eng i) s.trace (.irq i :: List.replicate 4 (.run i)) = s := hagenda ▸ scene_self s i
  have run := run_plain_A h (tr := s.trace) hA hidle htx hrx hcb hline
  rw [hs, Nat.zero_or] at run
  refine ⟨_, run, rfl, ((OnlyEngine.refl i s).read .IIR).scene _ _ _, rfl, rfl, ?_⟩
  rw [scene_eng _ _ _ _ _ (stored_read.2 h.stored), ← hidle]

end Sys2Proof.Machine
end

section
/-! PROOF. A whole activation of variant B (spec/40_classifier.md R123 to R125): the five tests, each in its turn, and what they
add up to. -/

namespace Sys2Proof.Machine

/-! ### The events of one activation -/

/-- What a test of `w` adds to `ev`: the events `e` if its bit is set. -/
def testEvents (w m e : Nat) : Nat := if hasBit w m then e else 0

/-- What the first four tests add up to, `l` the line status. -/
def testedEvents (c : Config) (w l : Nat) : Nat :=
  testEvents w c.iirB.rxData c.ev.rxReady ||| testEvents w c.iirB.thrEmpty c.ev.txComplete
    ||| testEvents w c.iirB.lineErr (lineErrors c l) ||| testEvents w c.iirB.timeout c.ev.rxMaybeReady

/-- What the last test makes of the events so far: the unexpected event where no bit matched and there is none. -/
def lastEvents (c : Config) (v ev : Nat) : Nat :=
  if v &&& c.iirB.modem ≠ 0 then ev ||| c.ev.hwFc
  else if v &&& c.iirB.nonDmaMask &&& c.iirB.known = 0 ∧ ev = 0 then c.ev.unexpected
  else ev

/-- The five bits lie inside the mask. -/
theorem nonDma_masked {e : EncIirB} (h : e.wf = true) : ∀ m ∈ e.nonDma, m &&& e.nonDmaMask = m := by
  simp only [EncIirB.wf, Bool.and_eq_true, beq_iff_eq, List.all_eq_true] at h
  obtain ⟨⟨⟨⟨⟨⟨-, inside⟩, -⟩, -⟩, -⟩, -⟩, -⟩ := h
  exact inside

/-- A value has no known bit exactly when it has none of the five. -/
theorem and_known_eq_zero {e : EncIirB} (h : e.wf = true) (w : Nat) : w &&& e.known = 0 ↔ ∀ m ∈ e.nonDma, w &&& m = 0 := by
  have inside := nonDma_masked h
  have hknown : e.known &&& e.nonDmaMask = e.known := by
    simp only [EncIirB.wf, Bool.and_eq_true, beq_iff_eq] at h
    simp only [EncIirB.nonDma, List.forall_mem_cons] at inside
    simp [h.2, EncIirB.nonDma, Nat.and_or_distrib_right, inside]
  rw [← masked_bit hknown, known_eq_zero h]

/-- The five tests of the masked value report the events of the value. -/
theorem lastEvents_testedEvents {c : Config} (h : c.iirB.wf = true) (w l : Nat) :
    lastEvents c (w &&& c.iirB.nonDmaMask) (testedEvents c (w &&& c.iirB.nonDmaMask) l) = plainEventsB c w l := by
  have inside := nonDma_masked h
  have hnone : w &&& c.iirB.nonDmaMask &&& c.iirB.nonDmaMask &&& c.iirB.known = 0 ↔ w &&& c.iirB.known = 0 := by
    rw [Nat.and_assoc w, Nat.and_self, known_eq_zero h, and_known_eq_zero h]
  simp only [lastEvents, hnone, testedEvents, testEvents, plainEventsB, hasBit]
  have hknown := and_known_eq_zero h w
  simp only [EncIirB.nonDma, List.forall_mem_cons, List.not_mem_nil, false_imp_iff, forall_const, and_true] at inside hknown
  obtain ⟨hrx, hthr, hline, htimeout, hmodem⟩ := inside
  simp only [masked_bit hrx, masked_bit hthr, masked_bit hline, masked_bit htimeout, masked_bit hmodem]
  by_cases hno : w &&& c.iirB.known = 0
  · obtain ⟨norx, nothr, noline, notimeout, nomodem⟩ := hknown.1 hno
    simp [hno, norx, nothr, noline, notimeout, nomodem]
  · by_cases hbit : w &&& c.iirB.modem = 0 <;> simp [hno, hbit]

/-! ### Turns of variant B -/

/-- The state whose answers are still to come after the test for a line error. -/
def afterLineTest (i : InstId) (v : Nat) (s : State) : State :=
  if v &&& s.conf.iirB.lineErr ≠ 0 then (regRead i .LSR s).2 else s

@[simp] theorem afterLineTest_conf (i : InstId) (v : Nat) (s : State) : (afterLineTest i v s).conf = s.conf := by
  rw [afterLineTest]
  split
  · exact regRead_conf s i .LSR
  · rfl

/-- The test leaves an instance live. -/
theorem live_afterLineTest {s : State} {i : InstId} (h : s.live i) (v : Nat) : (afterLineTest i v s).live i := by
  rw [afterLineTest]
  split
  · exact (live_read i .LSR).2 h
  · exact h

/-- The test changes the coming answers only. -/
theorem OnlyEngine.afterLineTest {i : InstId} {s t : State} (h : OnlyEngine i s t) (v : Nat) :
    OnlyEngine i s (afterLineTest i v t) := by
  rw [Machine.afterLineTest]
  split
  · exact h.read .LSR
  · exact h

section
variable {s : State} {i : InstId} {x : Engine} {tr : List Act} {rest : List Turn} (h : s.live i)
include h

/-- Step 3 masks the latched value. -/
theorem turn_decode_B (hB : s.conf.variant = .B) (hp : x.phase = .cDecode) :
    step (s.scene i x tr (.run i :: rest)) =
      .next (s.scene i { x with v := x.iir &&& s.conf.iirB.nonDmaMask, phase := .cRxData } tr rest) := by
  have heng := scene_eng s i x tr (.run i :: rest) h.stored
  rw [step_decode_B (s := s.scene i x tr (.run i :: rest)) h.1 rfl (by rw [heng, hp]) hB, scene_withAgenda, scene_upd]
  rfl

/-- A test whose row enters the event `e` and goes on. -/
theorem turn_test_B {m e : Nat} {row : InstId → Nat → Instr} {q : Phase}
    (htest : (x.phase, m, row, q) ∈
      [(Phase.cRxData, s.conf.iirB.rxData, Instr.iirBRxData, Phase.cThre),
       (Phase.cThre, s.conf.iirB.thrEmpty, Instr.iirBThrEmpty, Phase.cLine),
       (Phase.cLine, s.conf.iirB.lineErr, Instr.iirBLineErr, Phase.cTimeout),
       (Phase.cTimeout, s.conf.iirB.timeout, Instr.iirBTimeout, Phase.cModem)])
    (hrow : ∀ g, exec (row i g) (s.scene i x tr rest) = .next ((orEv i e (s.scene i x tr rest)).setPhase i q)) :
    step (s.scene i x tr (.run i :: rest)) =
      .next (s.scene i { x with ev := x.ev ||| testEvents x.v m e, phase := q } tr rest) := by
  have heng := scene_eng s i x tr (.run i :: rest) h.stored
  rw [step_test_B (s := s.scene i x tr (.run i :: rest)) h.1 rfl (by rwa [heng]), heng, scene_withAgenda, hrow,
    event_in_scene h, setPhase_eq, scene_upd, testEvents]
  by_cases hbit : x.v &&& m = 0 <;> simp [hbit]

/-- The test for received data, without a receive callback. -/
theorem turn_rxData_B (hp : x.phase = .cRxData) (hcb : x.cfg.rxCb = none) :
    step (s.scene i x tr (.run i :: rest)) = .next (s.scene i
      { x with ev := x.ev ||| testEvents x.v s.conf.iirB.rxData s.conf.ev.rxReady, phase := .cThre } tr rest) :=
  turn_test_B h (row := .iirBRxData) (by simp [hp]) fun _ =>
    (if_pos h.1).trans (congrArg _ (by rw [hRxData, scene_eng _ _ _ _ _ h.stored, hcb]; rfl))

/-- The test for an empty transmitter. -/
theorem turn_thrEmpty_B (hp : x.phase = .cThre) :
    step (s.scene i x tr (.run i :: rest)) = .next (s.scene i
      { x with ev := x.ev ||| testEvents x.v s.conf.iirB.thrEmpty s.conf.ev.txComplete, phase := .cLine } tr rest) :=
  turn_test_B h (row := .iirBThrEmpty) (by simp [hp]) fun _ => if_pos h.1

/-- The test for a timeout, without a receive callback. -/
theorem turn_timeout_B (hp : x.phase = .cTimeout) (hcb : x.cfg.rxCb = none) :
    step (s.scene i x tr (.run i :: rest)) = .next (s.scene i
      { x with ev := x.ev ||| testEvents x.v s.conf.iirB.timeout s.conf.ev.rxMaybeReady, phase := .cModem } tr rest) :=
  turn_test_B h (row := .iirBTimeout) (by simp [hp]) fun _ =>
    (if_pos h.1).trans (congrArg _ (by rw [hTimeout, scene_eng _ _ _ _ _ h.stored, hcb]; rfl))

/-- The bit of a line error set: the line status is read and the clear-pattern written. -/
theorem turn_lineErr_B_of_set (hwf : s.conf.wf = true) (hp : x.phase = .cLine) (hbit : x.v &&& s.conf.iirB.lineErr ≠ 0) :
    step (s.scene i x tr (.run i :: rest)) = .next ((regRead i .LSR s).2.scene i
      { x with l := s.answer i .LSR, ev := x.ev ||| lineErrors s.conf (s.answer i .LSR), phase := .cTimeout }
      (tr ++ [.regRead i .LSR (s.answer i .LSR), .regWrite i .LSR s.conf.lsr.bClear]) rest) := by
  have heng := scene_eng s i x tr (.run i :: rest) h.stored
  have clear : s.conf.reg s.conf.lsr.bClear = s.conf.lsr.bClear := reg_of_mem_regConsts hwf (by simp [Config.regConsts])
  have turn := step_test_B (s := s.scene i x tr (.run i :: rest)) h.1 rfl (m := s.conf.iirB.lineErr)
    (row := .iirBLineErr) (q := .cTimeout) (by simp [heng, hp])
  have row := hLine_scene_B (s := s.scene i x tr rest) (stored_scene.2 h.stored) .cTimeout
  rw [heng, if_pos hbit, scene_withAgenda] at turn
  simp only [scene_read, scene_scene, scene_answer, scene_eng _ _ _ _ _ h.stored, scene_trace, scene_agenda, scene_conf,
    clear] at row
  exact turn.trans ((if_pos h.1).trans (congrArg _ row))

/-- The bit clear: the engine only goes on. -/
theorem turn_lineErr_B_of_clear (hp : x.phase = .cLine) (hbit : x.v &&& s.conf.iirB.lineErr = 0) :
    step (s.scene i x tr (.run i :: rest)) = .next (s.scene i { x with phase := .cTimeout } tr rest) := by
  have heng := scene_eng s i x tr (.run i :: rest) h.stored
  rw [step_test_B (s := s.scene i x tr (.run i :: rest)) h.1 rfl (m := s.conf.iirB.lineErr) (row := .iirBLineErr)
    (q := .cTimeout) (by simp [heng, hp]), heng, if_neg (not_not_intro hbit), scene_withAgenda, setPhase_eq, scene_upd]

/-- The test for a line error, whether its bit is set or not. -/
theorem turn_lineErr_B (hwf : s.conf.wf = true) (hp : x.phase = .cLine) :
    step (s.scene i x tr (.run i :: rest)) = .next ((afterLineTest i x.v s).scene i
      { x with
        l := if x.v &&& s.conf.iirB.lineErr ≠ 0 then s.answer i .LSR else x.l
        ev := x.ev ||| testEvents x.v s.conf.iirB.lineErr (lineErrors s.conf (s.answer i .LSR))
        phase := .cTimeout }
      (tr ++ if x.v &&& s.conf.iirB.lineErr ≠ 0 then
        [.regRead i .LSR (s.answer i .LSR), .regWrite i .LSR s.conf.lsr.bClear] else []) rest) := by
  rw [afterLineTest, testEvents]
  by_cases hbit : x.v &&& s.conf.iirB.lineErr = 0
  · simpa [hbit] using turn_lineErr_B_of_clear h hp hbit
  · simpa [hbit] using turn_lineErr_B_of_set h hwf hp hbit

/-- The last test. -/
theorem turn_modem_B (hp : x.phase = .cModem) :
    step (s.scene i x tr (.run i :: rest)) =
      .next (s.scene i { x with ev := lastEvents s.conf x.v x.ev, phase := .cDispatch } tr rest) := by
  have heng := scene_eng s i x tr (.run i :: rest) h.stored
  have modem (g : Nat) : exec (.iirBModem i g) (s.scene i x tr rest) =
      .next (s.scene i { x with ev := x.ev ||| s.conf.ev.hwFc, phase := .cDispatch } tr rest) :=
    (if_pos h.1).trans (congrArg _ (event_in_scene h _ _))
  have noneMatched (w : Nat) : exec (.iirBNoneMatched i w) (s.scene i x tr rest) = .next (s.scene i
      { x with ev := if x.ev = 0 then s.conf.ev.unexpected else x.ev, phase := .cDispatch } tr rest) := by
    refine (if_pos h.1).trans (congrArg _ ((unexpectedIfNone_scene _).trans ?_))
    rw [scene_eng _ _ _ _ _ h.stored, scene_scene, scene_conf, scene_trace, scene_agenda]
  rw [step_modem (s := s.scene i x tr (.run i :: rest)) h.1 rfl (by rw [heng, hp]), heng, scene_withAgenda, modem,
    noneMatched, setPhase_eq, scene_upd, scene_conf, lastEvents]
  by_cases hbit : x.v &&& s.conf.iirB.modem = 0
  · by_cases hnone : x.v &&& s.conf.iirB.nonDmaMask &&& s.conf.iirB.known = 0 <;> simp [hbit, hnone]
  · simp [hbit]

/-! ### The run -/

/-- The record in which an activation comes to the test for a line error, having latched `w`. -/
def testedRecord (c : Config) (x : Engine) (w : Nat) : Engine :=
  { x with
    iir := w
    v := w &&& c.iirB.nonDmaMask
    ev := testEvents (w &&& c.iirB.nonDmaMask) c.iirB.rxData c.ev.rxReady
      ||| testEvents (w &&& c.iirB.nonDmaMask) c.iirB.thrEmpty c.ev.txComplete
    phase := .cLine }

/-- The first six turns: entry, steps 1 and 2 without DMA, step 3, the tests for data and an empty transmitter. -/
theorem run_first_tests_B (hB : s.conf.variant = .B) (hidle : x.phase = .idle) (htx : x.cfg.txDmaEn = false)
    (hrx : x.cfg.rxDmaEn = false) (hcb : x.cfg.rxCb = none) (k : Nat) :
    Sys2Proof.core.run (k + 6) (s.scene i x tr (.irq i :: .run i :: .run i :: .run i :: .run i :: .run i :: rest)) =
      Sys2Proof.core.run k ((regRead i .IIR s).2.scene i (testedRecord s.conf x (s.answer i .IIR))
        (tr ++ [.regRead i .IIR (s.answer i .IIR)]) rest) := by
  have h1 : (regRead i .IIR s).2.live i := (live_read i .IIR).2 h
  rw [run_succ (turn_irq_B h hB hidle) (k + 5),
    run_succ (turn_txDma_of_disabled h1 rfl (by exact htx)) (k + 4),
    run_succ (turn_rxDma_of_disabled h1 rfl (by exact hrx)) (k + 3),
    run_succ (turn_decode_B h1 (by rwa [regRead_conf]) rfl) (k + 2),
    run_succ (turn_rxData_B h1 rfl (by exact hcb)) (k + 1),
    run_succ (turn_thrEmpty_B h1 rfl) k, Nat.zero_or, regRead_conf]
  rfl

/-- The last three: the tests for a timeout and for the modem, the dispatch. -/
theorem run_last_tests_B (hp : x.phase = .cTimeout) (hcb : x.cfg.rxCb = none) :
    Sys2Proof.core.run 3 (s.scene i x tr (List.replicate 3 (.run i))) = .next (s.scene i
      { x with
        ev := lastEvents s.conf x.v (x.ev ||| testEvents x.v s.conf.iirB.timeout s.conf.ev.rxMaybeReady)
        phase := .idle }
      (tr ++ if x.cfg.evCb = none then [] else
        [.eventSink i (lastEvents s.conf x.v (x.ev ||| testEvents x.v s.conf.iirB.timeout s.conf.ev.rxMaybeReady))]) []) := by
  have run := run_succ (turn_timeout_B h (tr := tr) (rest := [.run i, .run i]) hp hcb) 2
  rwa [run_succ (turn_modem_B h rfl) 1, run_succ (turn_dispatch h rfl) 0] at run

/-- An activation on variant B. -/
theorem run_plain_B (hwf : s.conf.wf = true) (hB : s.conf.variant = .B) (hidle : x.phase = .idle)
    (htx : x.cfg.txDmaEn = false) (hrx : x.cfg.rxDmaEn = false) (hcb : x.cfg.rxCb = none) :
    let w := s.answer i .IIR
    let v := w &&& s.conf.iirB.nonDmaMask
    let s1 := (regRead i .IIR s).2
    let l := s1.answer i .LSR
    Sys2Proof.core.run 10 (s.scene i x tr (.irq i :: List.replicate 9 (.run i))) = .next ((afterLineTest i v s1).scene i
      { testedRecord s.conf x w with
        l := if v &&& s.conf.iirB.lineErr ≠ 0 then l else x.l
        ev := lastEvents s.conf v (testedEvents s.conf v l)
        phase := .idle }
      (tr ++ [.regRead i .IIR w] ++
        (if v &&& s.conf.iirB.lineErr ≠ 0 then [.regRead i .LSR l, .regWrite i .LSR s.conf.lsr.bClear] else []) ++
        if x.cfg.evCb = none then [] else [.eventSink i (lastEvents s.conf v (testedEvents s.conf v l))]) []) := by
  intro w v s1 l
  have h1 : s1.live i := (live_read i .IIR).2 h
  have hconf : s1.conf = s.conf := regRead_conf s i .IIR
  have line := turn_lineErr_B h1 (x := testedRecord s.conf x w) (tr := tr ++ [.regRead i .IIR w])
    (rest := List.replicate 3 (.run i)) (by rwa [hconf]) rfl
  have first := run_first_tests_B h (tr := tr) (rest := List.replicate 4 (.run i)) hB hidle htx hrx hcb 4
  refine first.trans ((run_succ line 3).trans ((run_last_tests_B (live_afterLineTest h1 _) rfl (by exact hcb)).trans ?_))
  rw [afterLineTest_conf, hconf]
  rfl

end

/-- Settles O42: the ten turns of the activation, and what their tests add up to. -/
theorem variantBHandlesEverySubset : Obligations.VariantBHandlesEverySubset := by
  intro s i h hwf hB x w s1 l line final hidle htx hrx hcb hagenda
  have hs : s.scene i (s.eng i) s.trace (.irq i :: List.replicate 9 (.run i)) = s := hagenda ▸ scene_self s i
  obtain ⟨-, hiirB, -⟩ := formats_of_wf hwf
  have hline : w &&& s.conf.iirB.nonDmaMask &&& s.conf.iirB.lineErr = w &&& s.conf.iirB.lineErr :=
    masked_bit (nonDma_masked hiirB _ (by simp [EncIirB.nonDma]))
  have hfinal : afterLineTest i (w &&& s.conf.iirB.nonDmaMask) s1 = final := by
    rw [afterLineTest, regRead_conf, hline]
  have run := run_plain_B h (tr := s.trace) hwf hB hidle htx hrx hcb
  simp only [lastEvents_testedEvents hiirB] at run
  rw [hs, hline] at run
  have only := (((OnlyEngine.refl i s).read .IIR).afterLineTest (w &&& s.conf.iirB.nonDmaMask)).scene
  refine ⟨_, run, rfl, only _ _ _, ?_⟩
  have stored := (live_afterLineTest ((live_read i .IIR).2 h) (w &&& s.conf.iirB.nonDmaMask)).stored
  rw [scene_eng _ _ _ _ _ stored, ← hfinal]
  exact ⟨rfl, rfl, rfl, rfl, rfl, rfl, rfl, rfl⟩

end Sys2Proof.Machine
end

section
/-! PROOF. The condition handlers (spec/41_condition_handlers.md R141 to R154): the rows of each on both variants, and the turn
that ends a receive loop. -/

namespace Sys2Proof.Machine

/-! ### Handlers with a receive callback -/

section
variable {s : State} {i : InstId} {r : Instr} {p : Phase}

/-- A row of received data reports readiness or delivers, as a receive callback is registered. -/
theorem runs_hRxData (h : s.live i) (hr : exec r s = .next (hRxData i p s)) :
    ((s.eng i).cfg.rxCb = none → Runs i r s [] { s.eng i with ev := (s.eng i).ev ||| s.conf.ev.rxReady, phase := p }) ∧
    ((s.eng i).cfg.rxCb ≠ none →
      RunsReading i .RBR r s [.regRead i .RBR (s.answer i .RBR), .byteSink i (BitVec.ofNat 8 (s.answer i .RBR))]
        { s.eng i with b := BitVec.ofNat 8 (s.answer i .RBR), phase := .cRxDataLoop }) := by
  rw [hRxData_scene] at hr
  refine ⟨fun hcb => runs_silent ?_ h, fun hcb => runsReading_scene ?_ h⟩
  · rw [hr, if_neg (by simp [hcb])]
  · rw [hr, if_pos (Option.isSome_iff_ne_none.2 hcb)]

/-- A row of the character timeout reports readiness or enters its loop, as a receive callback is registered. -/
theorem runs_hTimeout (h : s.live i) (hr : exec r s = .next (hTimeout i p s)) :
    ((s.eng i).cfg.rxCb = none →
      Runs i r s [] { s.eng i with ev := (s.eng i).ev ||| s.conf.ev.rxMaybeReady, phase := p }) ∧
    ((s.eng i).cfg.rxCb ≠ none → Runs i r s [] { s.eng i with n := 0, phase := .cTimeoutLoop }) := by
  rw [hTimeout_scene] at hr
  refine ⟨fun hcb => runs_silent ?_ h, fun hcb => runs_silent ?_ h⟩
  · rw [hr, if_neg (by simp [hcb])]
  · rw [hr, if_pos (Option.isSome_iff_ne_none.2 hcb)]

end

/-! ### The end of a receive loop -/

section
variable {s : State} {i : InstId} {rest : List Turn}

/-- A line status with data-ready clear has no row. -/
theorem rowLsrDr_of_clear {c : Config} {w : Nat} (h : w &&& c.lsr.dr = 0) : rowLsrDr c i w = none := if_neg (by simp [h])

/-- A loop opens its turn with a read of the line status. -/
theorem readLsr_withAgenda (l : List Turn) : readLsr i { s with agenda := l } = (s.answer i .LSR,
    (regRead i .LSR s).2.scene i { s.eng i with l := s.answer i .LSR }
      (s.trace ++ [.regRead i .LSR (s.answer i .LSR)]) l) := by
  rw [readLsr_eq, withAgenda_eq_scene s i, scene_read, scene_upd]

/-- A turn whose row is an event enters it in the scene the turn has made. -/
theorem step_eventRow {t : State} {r : Instr} {m : Nat} {x : Engine} {tr : List Act} (hi : t.has i)
    (turn : nextInstr s = (some r, t.scene i x tr rest)) (hr : (m, r) ∈ eventTable t.conf i) :
    step s = .next (t.scene i { x with ev := x.ev ||| m } tr rest) := by
  rw [step_some turn, exec_eventRow (s := t.scene i x tr rest) hi _ hr, orEv, scene_upd]

section
variable (h : s.live i) (hrun : s.agenda = .run i :: rest) (hdr : s.answer i .LSR &&& s.conf.lsr.dr = 0)
include h hrun hdr

/-- The loop of received data ends with the report of its delivery. -/
theorem step_rxDataLoop_ends (hp : (s.eng i).phase = .cRxDataLoop) :
    step s = .next ((regRead i .LSR s).2.scene i
      { s.eng i with
        l := s.answer i .LSR
        ev := (s.eng i).ev ||| s.conf.ev.rxToCb
        phase := afterRxData s.conf.variant }
      (s.trace ++ [.regRead i .LSR (s.answer i .LSR)]) rest) := by
  have turn := nextInstr_phase h.1 hrun hp
  simp only [seqEngine, withAgenda_eng, hp, seqRxDataLoop, readLsr_withAgenda, scene_conf, regRead_conf,
    rowLsrDr_of_clear hdr, setPhase_eq, scene_upd] at turn
  exact step_eventRow (by simpa using h.1) turn (by simp [eventTable])

/-- The loop of the timeout reports its delivery if it counted a byte. -/
theorem step_timeoutLoop_ends_of_bytes (hp : (s.eng i).phase = .cTimeoutLoop) (hn : (s.eng i).n ≠ 0) :
    step s = .next ((regRead i .LSR s).2.scene i
      { s.eng i with
        l := s.answer i .LSR
        ev := (s.eng i).ev ||| s.conf.ev.rxEndedToCb
        phase := afterTimeout s.conf.variant }
      (s.trace ++ [.regRead i .LSR (s.answer i .LSR)]) rest) := by
  have turn := nextInstr_phase h.1 hrun hp
  simp only [seqEngine, withAgenda_eng, hp, seqTimeoutLoop, readLsr_withAgenda, scene_conf, regRead_conf,
    rowLsrDr_of_clear hdr, scene_eng _ _ _ _ _ (stored_read.2 h.stored), if_neg hn, setPhase_eq, scene_upd] at turn
  exact step_eventRow (by simpa using h.1) turn (by simp [eventTable])

/-- If it counted none, it reads `RBR` once more and reports that no data came. -/
theorem step_timeoutLoop_ends_of_none (hp : (s.eng i).phase = .cTimeoutLoop) (hn : (s.eng i).n = 0) :
    let s1 := (regRead i .LSR s).2
    step s = .next ((regRead i .RBR s1).2.scene i
      { s.eng i with
        l := s.answer i .LSR
        ev := (s.eng i).ev ||| s.conf.ev.rxEndedNoData
        phase := afterTimeout s.conf.variant }
      (s.trace ++ [.regRead i .LSR (s.answer i .LSR)] ++ [.regRead i .RBR (s1.answer i .RBR)]) rest) := by
  have turn := nextInstr_phase h.1 hrun hp
  simp only [seqEngine, withAgenda_eng, hp, seqTimeoutLoop, readLsr_withAgenda, scene_conf, regRead_conf,
    rowLsrDr_of_clear hdr, scene_eng _ _ _ _ _ (stored_read.2 h.stored), if_pos hn, scene_read, setPhase_eq,
    scene_upd] at turn
  exact step_eventRow (by simpa using h.1) turn (by simp [eventTable])

end

end

/-- Settles O39: the turn that ends each loop, with its report. -/
theorem receiveLoopEnds : Obligations.ReceiveLoopEnds := by
  intro s i rest h hrun l s1 x read after hdr
  have only := (OnlyEngine.refl i s).read .LSR
  have afterData : after .cDispatch .cThre = afterRxData s.conf.variant := rfl
  have afterTimer : after .cDispatch .cModem = afterTimeout s.conf.variant := rfl
  rw [afterData, afterTimer]
  refine ⟨fun hp => ?_, fun hp hn => ?_, fun hp hn => ?_⟩
  · exact takes_scene h only (step_rxDataLoop_ends h hrun hdr hp)
  · exact takes_scene h only (step_timeoutLoop_ends_of_bytes h hrun hdr hp hn)
  · refine takes_scene h (only.read .RBR) ?_
    rw [step_timeoutLoop_ends_of_none h hrun hdr hp hn, List.append_assoc]

/-- Settles O29: both rows enter the event and go on. -/
theorem thrEmptyReportsTxComplete : Obligations.ThrEmptyReportsTxComplete := by
  intro s i g h
  have rowA : exec (.iirAThrEmpty i g) s = .next (hThre i .cDispatch s) := onInst_of_has h.1
  have rowB : exec (.iirBThrEmpty i g) s = .next (hThre i .cLine s) := onInst_of_has h.1
  exact ⟨runs_event h rowA, runs_event h rowB⟩

/-- Settles O30: both rows enter the event and go on. -/
theorem modemStatusIsReportedNotCleared : Obligations.ModemStatusIsReportedNotCleared := by
  intro s i g h
  have rowA : exec (.iirAModem i g) s = .next (hModem i .cDispatch s) := onInst_of_has h.1
  have rowB : exec (.iirBModem i g) s = .next (hModem i .cDispatch s) := onInst_of_has h.1
  exact ⟨runs_event h rowA, runs_event h rowB⟩

/-- Settles O31: the handler of each variant, where the clear-pattern has `REGW` bits. -/
theorem lineErrorReportsEveryErrorPresent : Obligations.LineErrorReportsEveryErrorPresent := by
  intro s i g h hwf l x
  have clear : s.conf.reg s.conf.lsr.bClear = s.conf.lsr.bClear := reg_of_mem_regConsts hwf (by simp [Config.regConsts])
  have rowA : exec (.iirALineErr i g) s = .next (hLine .A i .cDispatch s) := onInst_of_has h.1
  have rowB : exec (.iirBLineErr i g) s = .next (hLine .B i .cTimeout s) := onInst_of_has h.1
  rw [hLine_scene_A] at rowA
  rw [hLine_scene_B h.stored, clear] at rowB
  exact ⟨runsReading_scene rowA h, runsReading_scene rowB h⟩

/-- Settles O32: the rows of both variants run one handler. -/
theorem rxDataReportsOrDelivers : Obligations.RxDataReportsOrDelivers := by
  intro s i g h x b acts
  obtain ⟨reportsA, deliversA⟩ := runs_hRxData h (r := .iirARxData i g) (p := .cDispatch) (onInst_of_has h.1)
  obtain ⟨reportsB, deliversB⟩ := runs_hRxData h (r := .iirBRxData i g) (p := .cThre) (onInst_of_has h.1)
  exact ⟨fun hcb => ⟨reportsA hcb, reportsB hcb⟩, fun hcb => ⟨deliversA hcb, deliversB hcb⟩⟩

/-- Settles O33: the rows of both variants run one handler. -/
theorem timeoutReportsOrEntersItsLoop : Obligations.TimeoutReportsOrEntersItsLoop := by
  intro s i g h x
  obtain ⟨reportsA, entersA⟩ := runs_hTimeout h (r := .iirATimeout i g) (p := .cDispatch) (onInst_of_has h.1)
  obtain ⟨reportsB, entersB⟩ := runs_hTimeout h (r := .iirBTimeout i g) (p := .cModem) (onInst_of_has h.1)
  exact ⟨fun hcb => ⟨reportsA hcb, reportsB hcb⟩, fun hcb => ⟨entersA hcb, entersB hcb⟩⟩

end Sys2Proof.Machine
end

section
/-! PROOF. The commands (spec/42_dma_cursor.md R170 to R184): their checks are the failures of spec/60_exceptions.md R191, and
past its checks the command of an idle engine leaves a scene. -/

namespace Sys2Proof.Machine

/-! ### Checks -/

section
variable {s : State} {i : InstId} (a b : Nat)

/-- After the range check `INIT_COMMIT` fails by its validator check (R176). -/
theorem failure_initCommit : s.failure (.initCommit i a b) =
    if s.has i then checkInit s.conf (sampled s.conf s.cfgIn) else some .invalidId := by
  simp only [State.failure, Instr.inst, checkInit, Nat.dvd_iff_mod_eq_zero, ite_not]

/-- Readiness is checked before the flag of the direction. -/
theorem checkDma_eq_orElse (x : Engine) (enabled : Bool) :
    checkDma x enabled = (checkReady x <|> if enabled = false then some .dmaNotEnabled else none) := by
  rw [checkDma]
  cases checkReady x <;> rfl

/-- The length is checked last. -/
theorem checkSwap_eq_orElse (c : Config) (x : Engine) (n : Nat) : checkSwap c x n =
    (checkReady x <|> if x.cfg.rxDmaEn = false then some .dmaNotEnabled
      else if n < c.rxDmaMinLen then some .bufferTooSmall else none) := by
  rw [checkSwap, checkDma_eq_orElse]
  cases checkReady x
  · split_ifs <;> rfl
  · rfl

/-- After the range check `LEFT` fails by readiness and the receive direction (R180). -/
theorem failure_left : s.failure (.left i a b) =
    if s.has i then checkDma (s.eng i) (s.eng i).cfg.rxDmaEn else some .invalidId := by
  rw [checkDma_eq_orElse]
  exact ite_not (s.has i) _ _

/-- After the range check `TXDMA_START` fails by readiness and the transmit direction (R182). -/
theorem failure_txdmaStart : s.failure (.txdmaStart i a b) =
    if s.has i then checkDma (s.eng i) (s.eng i).cfg.txDmaEn else some .invalidId := by
  rw [checkDma_eq_orElse]
  exact ite_not (s.has i) _ _

/-- After the range check `SWAP` fails by readiness, the receive direction and the length (R171, R173). -/
theorem failure_swap : s.failure (.swap i a b) =
    if s.has i then checkSwap s.conf (s.eng i) (s.conf.len b) else some .invalidId := by
  rw [checkSwap_eq_orElse]
  exact ite_not (s.has i) _ _

/-- A command that does not fail names an instance that exists, and has passed its own checks. -/
theorem passes_of_no_failure {fails : Option Status} (h : (if s.has i then fails else some .invalidId) = none) :
    s.has i ∧ fails = none := by
  split at h
  · next hi => exact ⟨hi, h⟩
  · cases h

end

/-! ### A command with its checks -/

section
variable {s : State} {i : InstId} {w : Nat}

/-- Past the checks the command has its effect. -/
theorem checked_of_none {fails : Option Status} {effect : State → Result} (h : fails = none) :
    checked i fails effect s = effect s := by rw [h]; rfl

variable {own effect : State → Result} {fails : Option Status} (hown : own s = checked i fails effect s)
include hown

/-- A command of an idle engine whose rule is its checks and an effect. -/
theorem checkedCommand_passes (hi : s.has i) (hidle : (s.eng i).phase = .idle) (h : fails = none) :
    command w i own s = effect s :=
  (command_of_idle hi hidle).trans (hown.trans (checked_of_none h))

/-- It answers the check that fails, the range check before the others, and changes nothing. -/
theorem checkedCommand_fails (hsize : s.engines.length = s.conf.nInst) (hidle : s.has i → (s.eng i).phase = .idle)
    {status : Status} (h : (if s.has i then fails else some .invalidId) = some status) :
    command w i own s = .next { s with trace := s.trace ++ [.ret i status 0] } := by
  split at h
  · next hi =>
    rw [command_of_idle hi (hidle hi), hown, h, ← respond_of_idle (hidle hi)]
    rfl
  · next hi => rw [command_of_absent hi, respond_of_absent hsize hi, Option.some.inj h]

end

/-! ### Accesses in a scene -/

section
variable {s : State} {i : InstId} {x : Engine} {tr : List Act} {l : List Turn}

/-- A response of a scene. -/
theorem respond_in_scene (st : Status) (v : Nat) :
    respond i st v (s.scene i x tr l) = s.scene i { x with phase := .idle } (tr ++ [.ret i st v]) l := by
  rw [respond, setPhase_eq, scene_upd, scene_emit]

/-- A register write of a scene. -/
theorem regWrite_in_scene (h : s.stored i) (r : Reg) (v : Nat) : regWrite i r v (s.scene i x tr l) =
    s.scene i { x with uart := x.uart.write r (s.conf.reg v) } (tr ++ [.regWrite i r (s.conf.reg v)]) l := by
  rw [regWrite_scene, scene_eng _ _ _ _ _ h, scene_scene, scene_conf, scene_trace, scene_agenda]

/-- The four writes of `SWAP` (R171): the receive DMA has latched the new buffer when it is enabled again
(spec/20_memory.md R64). -/
theorem write_swap_bracket (u : Uart) (a n : Nat) :
    (((u.write .DMA_RX_EN 0).write .DMA_RX_ADDR a).write .DMA_RX_LEN n).write .DMA_RX_EN 1 =
      { u with dmaRxEn := 1, dmaRxAddr := a, dmaRxLen := n, rxLatchedAddr := a, rxLatchedLen := n } := by
  simp [Uart.write]

/-- The actions of the four writes. -/
def swapWrites (c : Config) (i : InstId) (a n : Nat) : List Act :=
  [.regWrite i .DMA_RX_EN 0, .regWrite i .DMA_RX_ADDR (c.reg a), .regWrite i .DMA_RX_LEN (c.reg n),
   .regWrite i .DMA_RX_EN 1]

/-- The record that `SWAP` leaves (R175). -/
def swappedRecord (c : Config) (x : Engine) (a n : Nat) : Engine :=
  { x with
    cfg := { x.cfg with rxDmaBuffer := a, rxDmaBuffLength := n }
    cursor := 0
    uart := { x.uart with
      dmaRxEn := 1, dmaRxAddr := c.reg a, dmaRxLen := c.reg n, rxLatchedAddr := c.reg a, rxLatchedLen := c.reg n } }

/-- `SWAP` makes its four writes and the bookkeeping. -/
theorem swapCommit_in_scene (h : s.stored i) (hwf : s.conf.wf = true) (a n : Nat) :
    swapCommit i a n (s.scene i x tr l) =
      s.scene i (swappedRecord s.conf x a n) (tr ++ swapWrites s.conf i a n) l := by
  simp only [swapCommit, regWrite_in_scene h, scene_upd, reg_zero, reg_one hwf, write_swap_bracket, List.append_assoc]
  rfl

end

/-! ### The commands past their checks -/

section
variable {s : State} {i : InstId} (a b : Nat)

/-- `INIT_COMMIT` writes the record, and answers or goes on to the fill. -/
theorem exec_initCommit_of_pass (hi : s.has i) (hidle : (s.eng i).phase = .idle)
    (hpass : s.failure (.initCommit i a b) = none)
    (hfits : fits s.conf (sampled s.conf s.cfgIn).rxDmaBuffer (sampled s.conf s.cfgIn).rxDmaBuffLength) :
    exec (.initCommit i a b) s =
      let committed := commitRecord (sampled s.conf s.cfgIn) (s.eng i)
      if (sampled s.conf s.cfgIn).rxDmaEn = true then
        .next (s.scene i { committed with phase := .kExecFill 0 } s.trace s.agenda)
      else .next (s.scene i { committed with phase := .idle } (s.trace ++ [.ret i .ok 0]) s.agenda) := by
  rw [failure_initCommit] at hpass
  refine (command_of_idle hi hidle).trans ((withinSpace_of_fits hfits).trans
    ((checked_of_none (passes_of_no_failure hpass).2).trans ?_))
  simp only [upd_eq_scene s, setPhase_eq, scene_upd, respond_in_scene]

/-- `SWAP` makes its writes and answers, or begins the force-drain. -/
theorem exec_swap_of_pass (h : s.live i) (hwf : s.conf.wf = true) (hidle : (s.eng i).phase = .idle)
    (hpass : s.failure (.swap i a b) = none) (hfits : fits s.conf (s.conf.addr a) (s.conf.len b)) :
    exec (.swap i a b) s =
      if (s.eng i).cfg.rxCb.isSome then
        .next (s.scene i { s.eng i with phase := .kDrain (s.conf.addr a) (s.conf.len b) } s.trace s.agenda)
      else .next (s.scene i { swappedRecord s.conf (s.eng i) (s.conf.addr a) (s.conf.len b) with phase := .idle }
        (s.trace ++ swapWrites s.conf i (s.conf.addr a) (s.conf.len b) ++ [.ret i .ok 0]) s.agenda) := by
  have commit := swapCommit_in_scene (x := s.eng i) (tr := s.trace) (l := s.agenda) h.stored hwf
    (s.conf.addr a) (s.conf.len b)
  rw [scene_self] at commit
  rw [failure_swap] at hpass
  refine (command_of_idle h.1 hidle).trans ((withinSpace_of_fits hfits).trans
    ((checked_of_none (passes_of_no_failure hpass).2).trans ?_))
  simp only [commit, respond_in_scene, setPhase_eq, upd_eq_scene s]

/-- A mark of an initialized instance is an update of its flags and a response. -/
theorem runs_mark (h : s.live i) (hidle : (s.eng i).phase = .idle) (hinit : (s.eng i).initialized = true) {w : Nat}
    {r : Instr} {f : Engine → Engine} (hf : (f (s.eng i)).phase = (s.eng i).phase)
    (hr : exec r s = command w i (fun s =>
      checked i (checkInitialized (s.eng i)) (fun s => .next (respond i .ok 0 (s.upd i f))) s) s) :
    Runs i r s [.ret i .ok 0] (f (s.eng i)) := by
  refine runs_scene (hr.trans ((checkedCommand_passes rfl h.1 hidle (if_neg (by simp [hinit]))).trans ?_)) h
  rw [upd_eq_scene, respond_in_scene, ← hidle, ← hf]

/-- Where the instance does not exist or is not initialized, a mark answers that. -/
theorem mark_fails (hsize : s.engines.length = s.conf.nInst) (hidle : s.has i → (s.eng i).phase = .idle) {w : Nat}
    {r : Instr} {effect : State → Result}
    (hr : exec r s = command w i (fun s => checked i (checkInitialized (s.eng i)) effect s) s) :
    (¬ s.has i → exec r s = .next { s with trace := s.trace ++ [.ret i .invalidId 0] }) ∧
    (s.has i → (s.eng i).initialized = false →
      exec r s = .next { s with trace := s.trace ++ [.ret i .notInit 0] }) := by
  rw [hr]
  exact ⟨fun hi => checkedCommand_fails rfl hsize hidle (if_neg hi),
    fun hi hinit => checkedCommand_fails rfl hsize hidle ((if_pos hi).trans (if_pos hinit))⟩

end

/-- Settles O45: past its checks the command writes the record, and then answers or not. -/
theorem initCommitWritesTheRecord : Obligations.InitCommitWritesTheRecord := by
  intro s i a b h hidle hpass k x hfits
  have row := exec_initCommit_of_pass a b h.1 hidle hpass hfits
  refine ⟨fun hen => ?_, fun hen => ?_⟩
  · refine runs_scene (row.trans ((if_neg (by simp [k, hen])).trans ?_)) h
    rw [← hidle]
    rfl
  · exact runs_silent (row.trans (if_pos hen)) h

/-- Settles O48: past its checks the command makes its writes, or the force-drain begins. -/
theorem swapReprogramsTheReceiver : Obligations.SwapReprogramsTheReceiver := by
  intro s i a b h hwf hidle hpass nb nl ra rl hfits x
  have row := exec_swap_of_pass a b h hwf hidle hpass hfits
  refine ⟨fun hcb => ?_, fun hcb => ?_⟩
  · refine runs_scene (row.trans ((if_neg (by simpa [x] using hcb)).trans ?_)) h
    rw [List.append_assoc, ← hidle]
    rfl
  · exact runs_silent (row.trans (if_pos (Option.isSome_iff_ne_none.2 hcb))) h

/-- Settles O50: past its checks the command is one read and a response. -/
theorem leftAnswersTheRemainingLength : Obligations.LeftAnswersTheRemainingLength := by
  intro s i a b hsize hidle v left
  rw [failure_left]
  refine ⟨fun hpass => ?_, fun status hfail => checkedCommand_fails rfl hsize hidle hfail⟩
  obtain ⟨hi, hchecks⟩ := passes_of_no_failure hpass
  refine runsReading_scene ((checkedCommand_passes rfl hi (hidle hi) hchecks).trans ?_) ⟨hi, hsize⟩
  simp only [readLeft_scene, respond_in_scene, List.append_assoc]
  rw [← hidle hi]
  rfl

/-- Settles O51: past its checks the command is three writes and a response. -/
theorem txDmaStartProgramsTheTransmitter : Obligations.TxDmaStartProgramsTheTransmitter := by
  intro s i a b hsize hwf hidle buffer length
  rw [failure_txdmaStart]
  refine ⟨fun hpass => ?_, fun status hfail => checkedCommand_fails rfl hsize hidle hfail⟩
  obtain ⟨hi, hchecks⟩ := passes_of_no_failure hpass
  have h : s.live i := ⟨hi, hsize⟩
  refine runs_scene ((checkedCommand_passes rfl hi (hidle hi) hchecks).trans ?_) h
  simp only [regWrite_scene (s := s), regWrite_in_scene h.stored, respond_in_scene, reg_one hwf, List.append_assoc]
  rw [← hidle hi]
  rfl

/-- Settles O52: a mark is an update of the flags, or answers the check that fails. -/
theorem marksChangeTheFlagsOnly : Obligations.MarksChangeTheFlagsOnly := by
  intro s i a b hsize hidle
  refine ⟨fun hi hinit => ?_, ?_⟩
  · have h : s.live i := ⟨hi, hsize⟩
    exact ⟨runs_mark h (hidle hi) hinit (f := fun x => { x with powered := false }) rfl rfl,
      runs_mark h (hidle hi) hinit (f := fun x => { x with powered := true }) rfl rfl,
      runs_mark h (hidle hi) hinit (f := fun x => { x with powered := false, initialized := false }) rfl rfl⟩
  · simp only [List.forall_mem_cons, List.not_mem_nil, false_implies, implies_true, and_true]
    exact ⟨mark_fails hsize hidle rfl, mark_fails hsize hidle rfl, mark_fails hsize hidle rfl⟩

end Sys2Proof.Machine
end

section
/-! PROOF. Turns of engine `i` in a row, and the turn that takes a command from the port: the first turn of a whole command. -/

namespace Sys2Proof.Machine

/-- A run of `m` turns of engine `i`, each of which leads from one stage to the next. -/
theorem run_turns {i : InstId} (m : Nat) {stage : Nat → List Turn → State}
    (h : ∀ k < m, ∀ l, step (stage k (.run i :: l)) = .next (stage (k + 1) l)) (q : Nat) (rest : List Turn) :
    Sys2Proof.core.run (m + q) (stage 0 (List.replicate m (.run i) ++ rest)) = Sys2Proof.core.run q (stage m rest) := by
  induction m generalizing stage with
  | zero => rw [Nat.zero_add, List.replicate_zero, List.nil_append]
  | succ m ih =>
    rw [Nat.succ_add, List.replicate_succ, List.cons_append, run_succ (h 0 (Nat.succ_pos m) _)]
    exact ih (stage := fun k => stage (k + 1)) fun k hk => h (k + 1) (Nat.succ_lt_succ hk)

/-- The state in which a command is executed that has arrived at an empty port, with its record. -/
def State.taken (s : State) (rest : List Turn) (c : Cfg) : State := { s with agenda := rest, cmdq := [], cfgIn := c }

/-- A command that arrives at an empty port of an idle engine is taken, with the bits of its operands that the word has. -/
theorem step_command {s : State} {i : InstId} {op : BitVec 3} {row : InstId → Nat → Nat → Instr} {a b : Nat} {c : Cfg}
    {rest : List Turn} (hwf : s.conf.wf = true) (hrow : (op, row) ∈ commandRows s.conf.cmd)
    (hinst : (row i (s.conf.addr a) (s.conf.len b)).inst = i) (hidle : (s.eng i).phase = .idle) (hq : s.cmdq = [])
    (hcmd : s.agenda = .cmd (cmdWord s.conf op i a b) c :: rest) :
    step s = exec (row i (s.conf.addr a) (s.conf.len b)) (s.taken rest c) := by
  obtain ⟨-, -, -, -, -, hcmdWf, -⟩ := formats_of_wf hwf
  obtain ⟨hop, hi, harg0, harg1⟩ := cmdWord_fields hcmdWf op i a b
  have hdecode : decodeCmd s.conf (cmdWord s.conf op i a b) = row i (s.conf.addr a) (s.conf.len b) := by
    rw [decodeCmd_of_code hcmdWf (by rwa [hop]), hi, harg0, harg1]
  have port := nextInstr_cmd hcmd
  rw [hq, List.nil_append, hostTurn_take rfl (by rw [hdecode, hinst]; exact fun hbusy => hbusy.2 hidle), hdecode] at port
  exact step_some port

/-- A turn of a busy engine, in a scene. -/
theorem nextInstr_in_scene {s : State} {i : InstId} {x : Engine} {tr : List Act} {rest : List Turn} (h : s.live i)
    (hb : x.phase ≠ .idle) : nextInstr (s.scene i x tr (.run i :: rest)) = seqEngine i (s.scene i x tr rest) :=
  nextInstr_seq (s := s.scene i x tr (.run i :: rest)) h.1 (by rwa [scene_eng _ _ _ _ _ h.stored]) rfl

/-- The row that ends a command answers it, in a scene. -/
theorem exec_rspOk_in_scene {s : State} {i : InstId} {x : Engine} {tr : List Act} {l : List Turn} :
    exec (.rspOk i 0) (s.scene i x tr l) = .next (s.scene i { x with phase := .idle } (tr ++ [.ret i .ok 0]) l) := by
  show Host.Outcome.next (respond i .ok (s.conf.len 0) _) = _
  rw [len_zero, respond_in_scene]

end Sys2Proof.Machine
end

section
/-! PROOF. The drain (spec/42_dma_cursor.md R164 to R166, R174): the scene each of its turns leaves, and the run of a `SWAP` that
drains the old buffer first. -/

namespace Sys2Proof.Machine

/-! ### Turns -/

/-- The address of the byte at the cursor. -/
def cursorAddr (c : Config) (x : Engine) : Nat := bufByte c x.cfg.rxDmaBuffer x.cursor

/-- The cursor is inside the buffer, whose end is that of the scan. -/
abbrev Engine.inside (c : Config) (x : Engine) : Prop := x.cursor < scanEnd c x

/-- The record after the byte at the cursor is delivered. -/
def deliveredRecord (s : State) (x : Engine) : Engine :=
  { x with b := s.byteAt (cursorAddr s.conf x), cursor := x.cursor + 1 }

/-- The read and the delivery of the byte at the cursor. -/
def deliveryActs (i : InstId) (s : State) (x : Engine) : List Act :=
  [.memRead i (cursorAddr s.conf x) (s.byteAt (cursorAddr s.conf x)), .byteSink i (s.byteAt (cursorAddr s.conf x))]

/-- The record at the end of the scan: inside the buffer a zero byte was read. -/
def scannedRecord (c : Config) (x : Engine) : Engine := { x with b := if x.inside c then 0 else x.b }

/-- The read that ends the scan inside the buffer. -/
def scanEndActs (c : Config) (i : InstId) (x : Engine) : List Act :=
  if x.inside c then [.memRead i (cursorAddr c x) 0] else []

section
variable {s : State} {i : InstId} {x : Engine} {tr : List Act} {rest : List Turn} (h : s.live i)
include h

/-- The byte at the cursor is read, delivered and passed. -/
theorem drainTurn_scene_delivers (hin : x.inside s.conf) (hb : s.byteAt (cursorAddr s.conf x) ≠ 0) :
    drainTurn i (s.scene i x tr rest) =
      (true, s.scene i (deliveredRecord s x) (tr ++ deliveryActs i s x) rest) := by
  have heng := scene_eng s i x tr rest h.stored
  rw [drainTurn_deliver (by rwa [heng]) (by rwa [heng]), heng]
  simp [deliveredRecord, deliveryActs, cursorAddr]

/-- The scan ends at a zero byte, or at the end of the buffer. -/
theorem drainTurn_scene_ends (hb : x.inside s.conf → s.byteAt (cursorAddr s.conf x) = 0) :
    drainTurn i (s.scene i x tr rest) =
      (false, s.scene i (scannedRecord s.conf x) (tr ++ scanEndActs s.conf i x) rest) := by
  have heng := scene_eng s i x tr rest h.stored
  by_cases hin : x.inside s.conf
  · rw [drainTurn_zero (by rwa [heng]) (by rw [heng]; exact hb hin), heng]
    simp [scannedRecord, scanEndActs, cursorAddr, hin]
  · rw [drainTurn_end (by rwa [heng])]
    simp [scannedRecord, scanEndActs, hin]

/-- A turn of a drain that goes on. -/
theorem turn_drain_delivers (hp : x.phase = .cDrain ∨ ∃ a n, x.phase = .kDrain a n) (hin : x.inside s.conf)
    (hb : s.byteAt (cursorAddr s.conf x) ≠ 0) : step (s.scene i x tr (.run i :: rest)) =
      .next (s.scene i (deliveredRecord s x) (tr ++ deliveryActs i s x) rest) := by
  rcases hp with hp | ⟨a, n, hp⟩
  · refine step_none ((nextInstr_in_scene h (by simp [hp])).trans ?_)
    simp only [seqEngine, scene_eng _ _ _ _ _ h.stored, hp, seqDrain, drainTurn_scene_delivers h hin hb]
  · refine step_none ((nextInstr_in_scene h (by simp [hp])).trans ?_)
    simp only [seqEngine, scene_eng _ _ _ _ _ h.stored, hp, seqSwapDrain, drainTurn_scene_delivers h hin hb]

/-- The turn that ends the drain of step 2 has the row of its event. -/
theorem turn_drain_ends (hp : x.phase = .cDrain) (hb : x.inside s.conf → s.byteAt (cursorAddr s.conf x) = 0) :
    step (s.scene i x tr (.run i :: rest)) = .next (s.scene i
      { scannedRecord s.conf x with ev := (scannedRecord s.conf x).ev ||| s.conf.ev.dmaRxToCb, phase := .cDecode }
      (tr ++ scanEndActs s.conf i x) rest) := by
  have turn := nextInstr_in_scene h (tr := tr) (rest := rest) (show x.phase ≠ .idle by simp [hp])
  simp only [seqEngine, scene_eng _ _ _ _ _ h.stored, hp, seqDrain, drainTurn_scene_ends h hb, setPhase_eq, scene_upd] at turn
  exact step_eventRow h.1 turn (by simp [eventTable])

/-- The turn that ends the force-drain of a `SWAP` goes on to its writes. -/
theorem turn_swapDrain_ends {a n : Nat} (hp : x.phase = .kDrain a n)
    (hb : x.inside s.conf → s.byteAt (cursorAddr s.conf x) = 0) :
    step (s.scene i x tr (.run i :: rest)) = .next (s.scene i
      { scannedRecord s.conf x with phase := .kExecSwap a n } (tr ++ scanEndActs s.conf i x) rest) := by
  refine step_none ((nextInstr_in_scene h (by simp [hp])).trans ?_)
  simp only [seqEngine, scene_eng _ _ _ _ _ h.stored, hp, seqSwapDrain, drainTurn_scene_ends h hb, advance, setPhase_eq,
    scene_upd]

/-- The last turn of a `SWAP`: its writes and its response. -/
theorem turn_execSwap {a n : Nat} (hwf : s.conf.wf = true) (hp : x.phase = .kExecSwap a n) :
    step (s.scene i x tr (.run i :: rest)) = .next (s.scene i { swappedRecord s.conf x a n with phase := .idle }
      (tr ++ swapWrites s.conf i a n ++ [.ret i .ok 0]) rest) := by
  have turn := nextInstr_in_scene h (tr := tr) (rest := rest) (show x.phase ≠ .idle by simp [hp])
  simp only [seqEngine, scene_eng _ _ _ _ _ h.stored, hp, swapCommit_in_scene h.stored hwf] at turn
  rw [step_some turn, exec_rspOk_in_scene]

end

end Sys2Proof.Machine

namespace Sys2Proof
open Machine

/-- Settles O38: the byte at the cursor is delivered, or the scan ends. -/
theorem drainTurn : Obligations.DrainTurn := by
  intro s i rest h hrun x a b inside ends hp
  have hs : s.scene i x s.trace (.run i :: rest) = s := hrun ▸ scene_self s i
  have only (y : Engine) (tr : List Act) : OnlyEngine i { s with agenda := rest } (s.scene i y tr rest) :=
    (OnlyEngine.refl i s).scene y tr rest
  have record (y : Engine) (tr : List Act) : (s.scene i y tr rest).eng i = y := scene_eng _ _ _ _ _ h.stored
  refine ⟨fun hw hlen => ?_, ?_⟩
  · show x.inside s.conf ↔ _
    rw [Engine.inside, scanEnd_eq hw hlen]
  by_cases hdelivers : inside ∧ b ≠ 0
  · obtain ⟨hin, hb⟩ := hdelivers
    have turn := turn_drain_delivers h (tr := s.trace) (rest := rest) hp hin hb
    rw [hs] at turn
    exact ⟨_, turn, only _ _, fun _ _ => ⟨⟨rfl, rfl, rfl⟩, record _ _⟩, fun _ hzero => absurd hzero hb,
      fun hout => absurd hin hout⟩
  · have hzero (hin : inside) : b = 0 := by_contra fun hb => hdelivers ⟨hin, hb⟩
    have turn : step s = .next (s.scene i (ends (scannedRecord s.conf x)) (s.trace ++ scanEndActs s.conf i x) rest) := by
      rcases hp with hp | ⟨nb, nl, hp⟩
      · simpa only [hs, ends, hp] using turn_drain_ends h (tr := s.trace) (rest := rest) hp hzero
      · simpa only [hs, ends, hp] using turn_swapDrain_ends h (tr := s.trace) (rest := rest) hp hzero
    refine ⟨_, turn, only _ _, fun hin hb => absurd (hzero hin) hb, fun hin _ => ?_, fun hout => ?_⟩
    · rw [record, scanEndActs, scannedRecord, if_pos (c := x.inside s.conf) hin, if_pos (c := x.inside s.conf) hin]
      exact ⟨⟨rfl, rfl, rfl⟩, rfl⟩
    · rw [record, scanEndActs, scannedRecord, if_neg (c := x.inside s.conf) hout, if_neg (c := x.inside s.conf) hout]
      exact ⟨⟨rfl, rfl, rfl⟩, rfl⟩

end Sys2Proof

namespace Sys2Proof.Machine

/-! ### The run of a `SWAP` with a receive callback -/

/-- The record after `k` delivered bytes. -/
def drainedRecord (s : State) (x : Engine) : Nat → Engine
  | 0 => x
  | k + 1 => { x with b := s.byteAt (bufByte s.conf x.cfg.rxDmaBuffer (x.cursor + k)), cursor := x.cursor + (k + 1) }

/-- The deliveries move the cursor, and leave configuration, phase and events. -/
theorem drainedRecord_fields (s : State) (x : Engine) (k : Nat) : (drainedRecord s x k).cursor = x.cursor + k ∧
    (drainedRecord s x k).cfg = x.cfg ∧ (drainedRecord s x k).phase = x.phase ∧ (drainedRecord s x k).ev = x.ev := by
  cases k <;> exact ⟨rfl, rfl, rfl, rfl⟩

/-- One more delivery. -/
theorem deliveredRecord_drained (s : State) (x : Engine) (k : Nat) :
    deliveredRecord s (drainedRecord s x k) = drainedRecord s x (k + 1) := by
  cases k <;> rfl

/-- The reads and deliveries of `k` bytes from the cursor on. -/
def drainedActs (i : InstId) (s : State) (x : Engine) (k : Nat) : List Act :=
  (List.range k).flatMap fun k => deliveryActs i s (drainedRecord s x k)

section
variable {s : State} {i : InstId} {x : Engine} {tr : List Act} {a n m : Nat} (h : s.live i) (hp : x.phase = .kDrain a n)
  (hpending : pendingBytes s x m)
include h hp hpending


/-- The force-drain delivers the `k`-th pending byte. -/
theorem turn_swapDrain {k : Nat} (hk : k < m) (l : List Turn) :
    step (s.scene i (drainedRecord s x k) (tr ++ drainedActs i s x k) (.run i :: l)) =
      .next (s.scene i (drainedRecord s x (k + 1)) (tr ++ drainedActs i s x (k + 1)) l) := by
  obtain ⟨hend, hbytes, -⟩ := hpending
  obtain ⟨hcursor, hcfg, hphase, -⟩ := drainedRecord_fields s x k
  have hin : (drainedRecord s x k).inside s.conf := by
    rw [Engine.inside, scanEnd, hcfg, hcursor]
    exact Nat.lt_of_lt_of_le (Nat.add_lt_add_left hk _) hend
  have hbyte : s.byteAt (cursorAddr s.conf (drainedRecord s x k)) ≠ 0 := by
    rw [cursorAddr, hcfg, hcursor]
    exact hbytes k hk
  rw [turn_drain_delivers h (.inr ⟨a, n, hphase.trans hp⟩) hin hbyte, deliveredRecord_drained]
  simp [drainedActs, List.range_succ]

omit h hp hpending in
/-- The deliveries and the read that ends the scan are all the force-drain does. -/
theorem drainedActs_append_scanEnd :
    drainedActs i s x m ++ scanEndActs s.conf i (drainedRecord s x m) = drainActs i s x m := by
  have delivery (k : Nat) : deliveryActs i s (drainedRecord s x k) =
      let a := bufByte s.conf x.cfg.rxDmaBuffer (x.cursor + k)
      [.memRead i a (s.byteAt a), .byteSink i (s.byteAt a)] := by
    cases k <;> rfl
  simp only [drainedActs, drainActs, delivery]
  cases m <;> rfl

/-- The force-drain, the turn that ends it, and the turn of the writes. -/
theorem run_swapDrain (hwf : s.conf.wf = true) :
    Sys2Proof.core.run (m + 2) (s.scene i x tr (List.replicate (m + 2) (.run i))) = .next (s.scene i
      { swappedRecord s.conf (scannedRecord s.conf (drainedRecord s x m)) a n with phase := .idle }
      (tr ++ drainActs i s x m ++ swapWrites s.conf i a n ++ [.ret i .ok 0]) []) := by
  obtain ⟨hcursor, hcfg, hphase, -⟩ := drainedRecord_fields s x m
  have drain := run_turns m (stage := fun k l => s.scene i (drainedRecord s x k) (tr ++ drainedActs i s x k) l)
    (fun _ hk l => turn_swapDrain h hp hpending hk l) 2 [.run i, .run i]
  have hend : (drainedRecord s x m).inside s.conf → s.byteAt (cursorAddr s.conf (drainedRecord s x m)) = 0 := by
    rw [Engine.inside, scanEnd, cursorAddr, hcfg, hcursor]
    exact hpending.2.2
  rw [List.replicate_add, ← drainedActs_append_scanEnd]
  rw [run_succ (turn_swapDrain_ends h (hphase.trans hp) hend) 1, run_succ (turn_execSwap h hwf rfl) 0] at drain
  rwa [show tr ++ drainedActs i s x 0 = tr from List.append_nil tr, List.append_assoc tr] at drain

end

/-- Settles O49: the turn that takes the command begins the force-drain. -/
theorem swapDeliversPendingBytesFirst : Obligations.SwapDeliversPendingBytesFirst := by
  intro s i a b c m h hidle hq hwf hpass nb nl hfits x hcb hpending hagenda
  let s1 := s.taken (List.replicate (m + 2) (.run i)) c
  have take : step s = exec (.swap i nb nl) s1 :=
    step_command (row := .swap) hwf (by simp [commandRows, EncCmd.codes]) rfl hidle hq hagenda
  have hnb : s1.conf.addr nb = nb := addr_addr s.conf a
  have hnl : s1.conf.len nl = nl := len_len s.conf b
  have hpass1 : s1.failure (.swap i nb nl) = none := by
    rw [failure_swap] at hpass ⊢
    rwa [hnl]
  have begins := exec_swap_of_pass nb nl (s := s1) h hwf hidle hpass1 (by rwa [hnb, hnl])
  have hcb1 : (s1.eng i).cfg.rxCb.isSome = true := Option.isSome_iff_ne_none.2 hcb
  rw [if_pos hcb1, hnb, hnl] at begins
  have drains := run_swapDrain (s := s1) (x := { x with phase := .kDrain nb nl }) (tr := s.trace) h rfl hpending hwf
  refine ⟨_, (run_succ (take.trans begins) (m + 2)).trans drains, List.append_assoc _ _ _, ?_⟩
  obtain ⟨-, hcfg, -, hev⟩ := drainedRecord_fields s1 { x with phase := .kDrain nb nl } m
  rw [scene_eng s1 _ _ _ _ h.stored]
  simp only [swappedRecord, scannedRecord, hcfg, hev, true_and]
  exact ⟨fun _ => rfl, fun j hj => upd_eng_ne _ _ _ _ hj, rfl⟩

end Sys2Proof.Machine
end

section
/-! PROOF. The zero fill of `INIT_COMMIT` (spec/42_dma_cursor.md R177, R178): what it makes of memory, the scene each of its turns
leaves, and the run of the command. -/

namespace Sys2Proof.Machine

/-! ### Memory -/

/-- Memory with the first `k` bytes of a buffer cleared, in ascending order. -/
def Memory.cleared (c : Config) (m : Memory) (buffer : Nat) : Nat → Memory
  | 0 => m
  | k + 1 => Memory.put (Memory.cleared c m buffer k) (bufByte c buffer k) 0

/-- The state with the first `k` bytes of a buffer cleared. -/
def State.cleared (s : State) (buffer k : Nat) : State := { s with mem := Memory.cleared s.conf s.mem buffer k }

/-- Inside the address space the bytes of a buffer follow one another. -/
theorem bufByte_of_lt {c : Config} {buffer k : Nat} (h : buffer + k < 2 ^ c.addrw) : bufByte c buffer k = buffer + k :=
  (clip_eq_self _ _).2 h

/-- Clearing keeps the canonical form; the cleared bytes read as zero and no other byte is changed. -/
theorem Memory.cleared_get {c : Config} {m : Memory} {buffer k : Nat} (hm : Memory.wf m) (h : buffer + k ≤ 2 ^ c.addrw) :
    Memory.wf (Memory.cleared c m buffer k) ∧ ∀ p, Memory.get (Memory.cleared c m buffer k) p =
      if buffer ≤ p ∧ p < buffer + k then 0 else Memory.get m p := by
  induction k with
  | zero => exact ⟨hm, fun p => (if_neg (by omega)).symm⟩
  | succ k ih =>
    obtain ⟨hwf, hget⟩ := ih (by omega)
    refine ⟨Memory.put_wf _ _ _ hwf, fun p => ?_⟩
    rw [Memory.cleared, Memory.get_put _ _ _ _ hwf.1, hget, bufByte_of_lt (by omega)]
    by_cases hp : p = buffer + k
    · rw [if_pos hp, if_pos (by omega)]
    · rw [if_neg hp]
      exact if_congr (by omega) rfl rfl

/-! ### Turns -/

/-- The writes of `k` zero bytes. -/
def fillWrites (c : Config) (i : InstId) (buffer k : Nat) : List Act :=
  (List.range k).map fun j => .memWrite i (bufByte c buffer j) 0

section
variable {s : State} {i : InstId} {x : Engine} {tr : List Act} {rest : List Turn} {k : Nat} (h : s.live i)
include h

/-- A turn of the fill inside the buffer. -/
theorem turn_fill_writes (hp : x.phase = .kExecFill k) (hk : k < x.cfg.rxDmaBuffLength) :
    let a := bufByte s.conf x.cfg.rxDmaBuffer k
    step (s.scene i x tr (.run i :: rest)) =
      .next ((s.putByte a 0).scene i { x with phase := .kExecFill (k + 1) } (tr ++ [.memWrite i a 0]) rest) := by
  have heng := scene_eng s i x tr rest h.stored
  refine step_none ((nextInstr_in_scene h (by simp [hp])).trans ?_)
  simp only [seqEngine, heng, hp, seqFill]
  rw [fillTurn_write (by rwa [heng]), heng]
  exact congrArg (Prod.mk none) (scene_upd (s.putByte _ 0) i x _ rest _)

/-- The turn that ends the fill has the row of the response. -/
theorem turn_fill_ends (hp : x.phase = .kExecFill k) (hk : ¬ k < x.cfg.rxDmaBuffLength) :
    step (s.scene i x tr (.run i :: rest)) = .next (s.scene i { x with phase := .idle } (tr ++ [.ret i .ok 0]) rest) := by
  have heng := scene_eng s i x tr rest h.stored
  have turn := nextInstr_in_scene h (tr := tr) (rest := rest) (show x.phase ≠ .idle by simp [hp])
  simp only [seqEngine, heng, hp, seqFill] at turn
  rw [fillTurn_end (by rwa [heng])] at turn
  rw [step_some turn, exec_rspOk_in_scene]

/-- The fill clears the `k`-th byte. -/
theorem turn_fill (hk : k < x.cfg.rxDmaBuffLength) (l : List Turn) :
    step ((s.cleared x.cfg.rxDmaBuffer k).scene i { x with phase := .kExecFill k }
        (tr ++ fillWrites s.conf i x.cfg.rxDmaBuffer k) (.run i :: l)) =
      .next ((s.cleared x.cfg.rxDmaBuffer (k + 1)).scene i { x with phase := .kExecFill (k + 1) }
        (tr ++ fillWrites s.conf i x.cfg.rxDmaBuffer (k + 1)) l) := by
  have hwrites : fillWrites s.conf i x.cfg.rxDmaBuffer (k + 1) =
      fillWrites s.conf i x.cfg.rxDmaBuffer k ++ [.memWrite i (bufByte s.conf x.cfg.rxDmaBuffer k) 0] := by
    simp [fillWrites, List.range_succ]
  rw [hwrites, ← List.append_assoc]
  exact turn_fill_writes (s := s.cleared x.cfg.rxDmaBuffer k) h rfl hk

/-- The fill and the turn of the response. -/
theorem run_fill : Sys2Proof.core.run (x.cfg.rxDmaBuffLength + 1)
      (s.scene i { x with phase := .kExecFill 0 } tr (List.replicate (x.cfg.rxDmaBuffLength + 1) (.run i))) =
    .next ((s.cleared x.cfg.rxDmaBuffer x.cfg.rxDmaBuffLength).scene i { x with phase := .idle }
      (tr ++ fillWrites s.conf i x.cfg.rxDmaBuffer x.cfg.rxDmaBuffLength ++ [.ret i .ok 0]) []) := by
  have fill := run_turns x.cfg.rxDmaBuffLength
    (stage := fun k l => (s.cleared x.cfg.rxDmaBuffer k).scene i { x with phase := .kExecFill k }
      (tr ++ fillWrites s.conf i x.cfg.rxDmaBuffer k) l)
    (fun _ hk l => turn_fill h hk l) 1 [.run i]
  have ends := turn_fill_ends (s := s.cleared x.cfg.rxDmaBuffer x.cfg.rxDmaBuffLength)
    (x := { x with phase := .kExecFill x.cfg.rxDmaBuffLength })
    (tr := tr ++ fillWrites s.conf i x.cfg.rxDmaBuffer x.cfg.rxDmaBuffLength) (rest := []) h rfl (Nat.lt_irrefl _)
  rw [List.replicate_add]
  rwa [run_succ ends 0, show tr ++ fillWrites s.conf i x.cfg.rxDmaBuffer 0 = tr from List.append_nil tr] at fill

end

/-- Settles O46: the turn that takes the command begins the fill. -/
theorem initCommitClearsTheBuffer : Obligations.InitCommitClearsTheBuffer := by
  intro s i a b c h hidle hm hwf hq hpass k len hen hfits hagenda
  let s1 := s.taken (List.replicate (len + 1) (.run i)) c
  have take : step s = exec (.initCommit i (s.conf.addr a) (s.conf.len b)) s1 :=
    step_command (row := .initCommit) hwf (by simp [commandRows, EncCmd.codes]) rfl hidle hq hagenda
  have hpass1 : s1.failure (.initCommit i (s.conf.addr a) (s.conf.len b)) = none := by
    rw [failure_initCommit] at hpass ⊢
    exact hpass
  have begins := exec_initCommit_of_pass _ _ (s := s1) h.1 hidle hpass1 hfits
  have fills := run_fill (s := s1) (x := commitRecord k (s.eng i)) (tr := s.trace) h
  refine ⟨_, (run_succ (take.trans (begins.trans (if_pos hen))) (len + 1)).trans fills, rfl,
    (Memory.cleared_get hm hfits).2, ?_, fun j hj => upd_eng_ne _ _ _ _ hj, rfl⟩
  rw [scene_eng (s1.cleared _ _) _ _ _ _ h.stored, ← hidle]
  rfl

end Sys2Proof.Machine
end

section
/-! PROOF. The cursors along a step (spec/42_dma_cursor.md R160, R164 to R166): which operations leave every cursor, which clear
one, and that only a turn of the drain moves one on. -/

namespace Sys2Proof.Machine

/-! ### Operations -/

section
variable {s : State} {i : InstId} {j : InstId}

/-- An update that leaves the cursor of a record leaves every cursor. -/
theorem upd_cursor {f : Engine → Engine} (hf : ∀ x, (f x).cursor = x.cursor := by exact fun _ => rfl) :
    ((s.upd i f).eng j).cursor = (s.eng j).cursor := by
  by_cases hj : j = i
  · subst hj
    by_cases hs : s.stored j
    · rw [upd_eng_self s j f hs, hf]
    · rw [upd_of_not_stored hs]
  · rw [upd_eng_ne s i j f hj]

theorem respond_cursor (st : Status) (v : Nat) : ((respond i st v s).eng j).cursor = (s.eng j).cursor := upd_cursor

theorem regWrite_cursor (r : Reg) (v : Nat) : ((regWrite i r v s).eng j).cursor = (s.eng j).cursor := upd_cursor

theorem regRead_cursor (r : Reg) : ((regRead i r s).2.eng j).cursor = (s.eng j).cursor :=
  congrArg Engine.cursor (regRead_eng s i j r)

theorem readLeft_cursor : ((readLeft i s).2.eng j).cursor = (s.eng j).cursor := by
  rw [readLeft_eq, upd_cursor, regRead_cursor]

theorem readLsr_cursor : ((readLsr i s).2.eng j).cursor = (s.eng j).cursor := by
  rw [readLsr_eq, upd_cursor, regRead_cursor]

/-- An update that clears a cursor. -/
theorem upd_clears {f : Engine → Engine} (hf : ∀ x, (f x).cursor = 0) :
    ((s.upd i f).eng j).cursor = (s.eng j).cursor ∨ ((s.upd i f).eng j).cursor = 0 ∧ j = i := by
  by_cases hj : j = i
  · subst hj
    by_cases hs : s.stored j
    · exact .inr ⟨by rw [upd_eng_self s j f hs, hf], rfl⟩
    · exact .inl (by rw [upd_of_not_stored hs])
  · exact .inl (by rw [upd_eng_ne s i j f hj])

/-- The bookkeeping of `SWAP` clears the cursor of its instance. -/
theorem swapCommit_cursor (a n : Nat) : ((swapCommit i a n s).eng j).cursor = (s.eng j).cursor ∨
    ((swapCommit i a n s).eng j).cursor = 0 ∧ j = i := by
  have written : ((regWrite i .DMA_RX_EN 1 (regWrite i .DMA_RX_LEN n (regWrite i .DMA_RX_ADDR a
      (regWrite i .DMA_RX_EN 0 s)))).eng j).cursor = (s.eng j).cursor := by simp only [regWrite_cursor]
  exact (upd_clears fun _ => rfl).imp_left fun h => h.trans written

end

/-! ### Rows -/

/-- A next state that the answer holds has the cursors of `s`, but for those it has cleared, where `p` allows it. -/
def ClearsOnly (p : InstId → Prop) (s : State) (r : Result) : Prop :=
  ∀ t, r = .next t → ∀ j, (t.eng j).cursor = (s.eng j).cursor ∨ (t.eng j).cursor = 0 ∧ p j

section
variable {p : InstId → Prop} {s t : State} {i : InstId}

/-- A next state with the same cursors. -/
theorem clearsOnly_next (h : ∀ j, (t.eng j).cursor = (s.eng j).cursor) : ClearsOnly p s (.next t) := by
  rintro u ⟨⟩ j
  exact .inl (h j)

theorem withinSpace_clearsOnly {buffer length : Nat} {own : State → Result} (h : ClearsOnly p s (own s)) :
    ClearsOnly p s (withinSpace buffer length own s) :=
  fun t ht => h t (withinSpace_next ht).2

theorem checked_clearsOnly {fails : Option Status} {effect : State → Result} (h : ClearsOnly p s (effect s)) :
    ClearsOnly p s (checked i fails effect s) := by
  cases fails with
  | none => exact h
  | some st => exact clearsOnly_next fun _ => respond_cursor st 0

/-- The own rule of a command runs on an idle engine. -/
theorem command_clearsOnly {w : Nat} {own : State → Result}
    (h : (s.eng i).phase = .idle → ClearsOnly p s (own s)) : ClearsOnly p s (command w i own s) := by
  unfold command
  split
  · split
    · next hidle => exact h hidle
    · exact clearsOnly_next fun _ => rfl
  · exact clearsOnly_next fun _ => respond_cursor .invalidId 0

/-- `INIT_COMMIT` clears the cursor of its instance, on an idle engine. -/
theorem execInitCommit_clearsOnly (a b : Nat) (hp : (s.eng i).phase = .idle → p i) :
    ClearsOnly p s (execInitCommit i a b s) := by
  refine command_clearsOnly fun hidle => withinSpace_clearsOnly (checked_clearsOnly ?_)
  have committed (j : InstId) : let u := s.upd i (commitRecord (sampled s.conf s.cfgIn))
      (u.eng j).cursor = (s.eng j).cursor ∨ (u.eng j).cursor = 0 ∧ p j :=
    (upd_clears fun _ => rfl).imp_right fun ⟨hzero, hj⟩ => ⟨hzero, hj ▸ hp hidle⟩
  split
  · rintro t ⟨⟩ j
    rw [setPhase_eq, upd_cursor]
    exact committed j
  · rintro t ⟨⟩ j
    rw [respond_cursor]
    exact committed j

/-- So does `SWAP`, where no force-drain comes first. -/
theorem execSwap_clearsOnly (a b : Nat) (hp : (s.eng i).phase = .idle → p i) :
    ClearsOnly p s (execSwap i a b s) := by
  refine command_clearsOnly fun hidle => withinSpace_clearsOnly (checked_clearsOnly ?_)
  split
  · exact clearsOnly_next fun _ => upd_cursor
  · rintro t ⟨⟩ j
    rw [respond_cursor]
    exact (swapCommit_cursor _ _).imp_right fun ⟨hzero, hj⟩ => ⟨hzero, hj ▸ hp hidle⟩

/-- A row of an activation leaves every cursor. -/
theorem exec_ofActivation_clearsOnly {r : Instr} (hr : r.ofActivation = true) : ClearsOnly p s (exec r s) := by
  intro t ht j
  obtain ⟨-, same⟩ := activationRowsLeaveTheRecord r s hr
  exact .inl ((same t ht).1 j).2.2.2

/-- A row clears the cursor of its instance if it is `INIT_COMMIT` or `SWAP` on an idle engine, and leaves all others. -/
theorem exec_clearsOnly (r : Instr) :
    ClearsOnly (fun j => (s.eng j).phase = .idle ∧ ∃ a b, r = .initCommit j a b ∨ r = .swap j a b) s (exec r s) := by
  cases r
  case initCommit a b => exact execInitCommit_clearsOnly a b fun hidle => ⟨hidle, a, b, .inl rfl⟩
  case swap a b => exact execSwap_clearsOnly a b fun hidle => ⟨hidle, a, b, .inr rfl⟩
  case left =>
    exact command_clearsOnly fun _ => checked_clearsOnly
      (clearsOnly_next fun _ => (respond_cursor _ _).trans readLeft_cursor)
  case txdmaStart =>
    exact command_clearsOnly fun _ => checked_clearsOnly
      (clearsOnly_next fun _ => by simp only [respond_cursor, regWrite_cursor])
  case powerOffMark | powerOnMark | uninitMark =>
    exact command_clearsOnly fun _ => checked_clearsOnly (clearsOnly_next fun j => by rw [respond_cursor, upd_cursor])
  case reserved7 i _ _ =>
    exact command_clearsOnly (own := fun s => .next (respond i .unsupported 0 s)) fun _ =>
      clearsOnly_next fun _ => respond_cursor _ _
  case rspOk | rspInvalidId | rspNotInit | rspNotPowered | rspDmaNotEnabled
      | rspBufferTooSmall | rspBadDmaBuffer | rspUnsupported =>
    exact clearsOnly_next fun _ => respond_cursor _ _
  -- the rows of an activation
  all_goals exact exec_ofActivation_clearsOnly rfl

end

/-! ### Turns -/

/-- The drain moves the cursor of instance `i` past a byte to `y`: one further, inside the scan, past a byte that is not
zero. -/
def State.passesByte (s : State) (i : InstId) (y : Nat) : Prop :=
  y = (s.eng i).cursor + 1 ∧ (s.eng i).inside s.conf ∧
    ((s.eng i).phase = .cDrain ∨ ∃ a n, (s.eng i).phase = .kDrain a n) ∧ s.byteAt (cursorAddr s.conf (s.eng i)) ≠ 0

/-- What a turn of engine `i` makes of its cursor: it stays, or the drain moves it, or the end of a `SWAP` clears it. -/
def TurnCursor (i : InstId) (s : State) (turn : Option Instr × State) : Prop :=
  (turn.2.eng i).cursor = (s.eng i).cursor ∨ s.passesByte i (turn.2.eng i).cursor ∨
    (turn.2.eng i).cursor = 0 ∧ (∃ a n, (s.eng i).phase = .kExecSwap a n) ∧ turn.1 = some (.rspOk i 0)

section
variable {s : State} {i : InstId}

theorem test_cursor (row : Option Instr) (p : Phase) : ((test row i p s).2.eng i).cursor = (s.eng i).cursor := by
  cases row with
  | none => exact upd_cursor
  | some r => rfl

theorem seqTxDma_cursor : ((seqTxDma i s).2.eng i).cursor = (s.eng i).cursor := by
  unfold seqTxDma
  split
  · split
    · exact (test_cursor _ _).trans (regRead_cursor _)
    · exact upd_cursor
  · exact test_cursor _ _

theorem seqRxDma_cursor : ((seqRxDma i s).2.eng i).cursor = (s.eng i).cursor := by
  unfold seqRxDma
  split
  · split
    · exact (test_cursor _ _).trans (regRead_cursor _)
    · exact upd_cursor
  · exact test_cursor _ _

theorem seqDecode_cursor : ((seqDecode i s).2.eng i).cursor = (s.eng i).cursor := by
  unfold seqDecode
  split
  · exact Eq.trans upd_cursor (regRead_cursor _)
  · exact upd_cursor

theorem seqModem_cursor : ((seqModem i s).2.eng i).cursor = (s.eng i).cursor := by
  unfold seqModem
  split
  · rfl
  · exact test_cursor _ _

theorem seqRxDataLoop_cursor : ((seqRxDataLoop i s).2.eng i).cursor = (s.eng i).cursor := by
  simp only [seqRxDataLoop]
  split
  · exact readLsr_cursor
  · exact Eq.trans upd_cursor readLsr_cursor

theorem seqTimeoutLoop_cursor : ((seqTimeoutLoop i s).2.eng i).cursor = (s.eng i).cursor := by
  simp only [seqTimeoutLoop]
  split
  · exact readLsr_cursor
  · split
    · exact Eq.trans upd_cursor ((regRead_cursor _).trans readLsr_cursor)
    · exact Eq.trans upd_cursor readLsr_cursor

theorem leaveActivation_cursor : ((leaveActivation i s).eng i).cursor = (s.eng i).cursor := by
  simp only [leaveActivation]
  split
  · exact upd_cursor
  · exact upd_cursor

theorem seqFill_cursor (k : Nat) : ((seqFill i k s).2.eng i).cursor = (s.eng i).cursor := by
  by_cases hk : k < (s.eng i).cfg.rxDmaBuffLength
  · simp only [seqFill, fillTurn_write hk]
    exact upd_cursor
  · simp only [seqFill, fillTurn_end hk]

/-- An engine in the middle of an operation has its record. -/
theorem stored_of_busy (h : s.busy i) : s.stored i := by
  by_contra hs
  have hnone : s.engines[i.toNat]? = none := List.getElem?_eq_none (Nat.le_of_not_lt hs)
  exact h (by rw [State.eng, hnone]; rfl)

/-- A turn of the drain moves the cursor past a byte, or leaves it. -/
theorem drainTurn_cursor (hp : (s.eng i).phase = .cDrain ∨ ∃ a n, (s.eng i).phase = .kDrain a n) :
    (((drainTurn i s).2.eng i).cursor = (s.eng i).cursor) ∨
      s.passesByte i ((drainTurn i s).2.eng i).cursor := by
  have hs : s.stored i := stored_of_busy (by rcases hp with hp | ⟨a, n, hp⟩ <;> simp [State.busy, hp])
  by_cases hin : (s.eng i).inside s.conf
  · by_cases hb : s.byteAt (cursorAddr s.conf (s.eng i)) = 0
    · rw [drainTurn_zero hin hb]
      exact .inl upd_cursor
    · rw [drainTurn_deliver hin hb]
      exact .inr ⟨congrArg Engine.cursor (upd_eng_self ((s.emit _).emit _) i _ hs), hin, hp, hb⟩
  · rw [drainTurn_end hin]
    exact .inl rfl

/-- The drain of step 2 and the force-drain change the cursor by a turn of the drain only. -/
theorem seqDrain_cursor : ((seqDrain i s).2.eng i).cursor = ((drainTurn i s).2.eng i).cursor := by
  unfold seqDrain
  rcases drainTurn i s with ⟨_ | _, t⟩
  · exact upd_cursor
  · rfl

/-- See `seqDrain_cursor`. -/
theorem seqSwapDrain_cursor (a n : Nat) :
    ((seqSwapDrain i a n s).2.eng i).cursor = ((drainTurn i s).2.eng i).cursor := by
  unfold seqSwapDrain
  rcases drainTurn i s with ⟨_ | _, t⟩
  · exact upd_cursor
  · rfl

/-- What each phase makes of the cursor. -/
theorem seqEngine_cursor : TurnCursor i s (seqEngine i s) := by
  unfold seqEngine
  cases hp : (s.eng i).phase
  case idle => exact .inl rfl
  case cTxDma => exact .inl seqTxDma_cursor
  case cRxDma => exact .inl seqRxDma_cursor
  case cDrain =>
    rw [TurnCursor, seqDrain_cursor]
    exact (drainTurn_cursor (.inl hp)).imp_right .inl
  case cDecode => exact .inl seqDecode_cursor
  case cRxData | cThre | cLine | cTimeout => exact .inl (test_cursor _ _)
  case cRxDataLoop => exact .inl seqRxDataLoop_cursor
  case cTimeoutLoop => exact .inl seqTimeoutLoop_cursor
  case cModem => exact .inl seqModem_cursor
  case cDispatch => exact .inl leaveActivation_cursor
  case kDrain a n =>
    rw [TurnCursor, seqSwapDrain_cursor]
    exact (drainTurn_cursor (.inr ⟨a, n, hp⟩)).imp_right .inl
  case kExecSwap a n =>
    exact (swapCommit_cursor a n).imp_right fun ⟨hzero, _⟩ => .inr ⟨hzero, ⟨a, n, hp⟩, rfl⟩
  case kExecFill k => exact .inl (seqFill_cursor k)

theorem engineTurn_cursor : TurnCursor i s (engineTurn i s) := by
  unfold engineTurn
  split
  · exact .inl rfl
  · split
    · exact seqEngine_cursor
    · split
      · exact .inl rfl
      · exact .inl upd_cursor

end

/-! ### Steps -/

section
variable {s t : State}

/-- A turn of port `cmd` leaves every record. -/
theorem hostTurn_engines : (hostTurn s).2.engines = s.engines := by
  unfold hostTurn
  split
  · rfl
  · dsimp only
    split <;> rfl

/-- A step is a turn of an engine, or leaves every record before its row, or is a restart. -/
theorem nextInstr_cases (s : State) : (∃ k l, nextInstr s = engineTurn k { s with agenda := l }) ∨
    (nextInstr s).2.engines = s.engines ∨ ∃ rest, s.agenda = .reset :: rest := by
  unfold nextInstr
  rcases s.agenda with _ | ⟨turn, rest⟩
  · dsimp only
    unfold autoTurn
    split
    · next k _ => exact .inl ⟨k, s.agenda, rfl⟩
    · split
      · next k _ => exact .inl ⟨k, s.agenda, rfl⟩
      · exact .inr (.inl hostTurn_engines)
  · cases turn
    case irq | dmaStore => exact .inr (.inl rfl)
    case cmd | host => exact .inr (.inl hostTurn_engines)
    case reset => exact .inr (.inr ⟨rest, rfl⟩)
    case run k => exact .inl ⟨k, rest, rfl⟩

/-- The row of an engine's turn leaves every cursor. -/
theorem exec_ofTurn_cursor {r : Instr} (hr : OfTurn r) (h : exec r s = .next t) (j : InstId) :
    (t.eng j).cursor = (s.eng j).cursor := by
  have clears : ClearsOnly (fun _ => False) s (exec r s) := by
    rcases hr with hr | ⟨i, v, rfl⟩
    · exact exec_ofActivation_clearsOnly hr
    · exact clearsOnly_next fun _ => respond_cursor _ _
  exact (clears t h j).resolve_right And.right

/-- What a step that is a turn of engine `k` makes of a cursor. -/
theorem step_engineTurn_cursor {k : InstId} {l : List Turn} (hturn : nextInstr s = engineTurn k { s with agenda := l })
    (hstep : step s = .next t) (i : InstId) : TurnCursor i s ((nextInstr s).1, t) := by
  have turn : TurnOf k { s with agenda := l } (nextInstr s) := hturn ▸ engineTurn_turn
  have cursor : TurnCursor k s (nextInstr s) := hturn ▸ engineTurn_cursor (s := { s with agenda := l })
  have rows {r : Instr} (hr : (nextInstr s).1 = some r) : OfTurn r := engineTurn_ofTurn (hturn ▸ hr)
  have executed : (t.eng i).cursor = ((nextInstr s).2.eng i).cursor := by
    rcases step_next hstep with hn | ⟨r, u, hn, hr⟩ <;> rw [hn] at rows ⊢
    exact exec_ofTurn_cursor (rows rfl) hr i
  rw [TurnCursor, executed]
  by_cases hi : i = k
  · exact hi ▸ cursor
  · exact .inl (congrArg Engine.cursor (turn.state.others i hi))

/-- The records are those of the list. -/
theorem eng_congr (h : t.engines = s.engines) (i : InstId) : t.eng i = s.eng i := by
  rw [State.eng, State.eng, h]

end

/-- Settles O14: a turn of an engine moves or clears its own cursor, a row clears a cursor or none, and a restart all. -/
theorem onlyTheDrainAdvancesTheCursor : Obligations.OnlyTheDrainAdvancesTheCursor := by
  intro s t i hstep x y
  rcases nextInstr_cases s with ⟨k, l, hturn⟩ | hsame | ⟨rest, hreset⟩
  · rcases step_engineTurn_cursor hturn hstep i with hkept | ⟨hy, hin, hp, hb⟩ | ⟨hzero, hp, hrow⟩
    · exact .inl hkept
    · have hend : y.cursor ≤ scanEnd s.conf x := hy.trans_le hin
      exact .inr (.inl ⟨hy, hend, hend.trans scanEnd_le, hp, hb⟩)
    · exact .inr (.inr ⟨hzero, .inr (.inl ⟨hp, hrow⟩)⟩)
  · rcases step_next hstep with hn | ⟨r, u, hn, hr⟩ <;> rw [hn] at hsame
    · exact .inl (congrArg Engine.cursor (eng_congr hsame i))
    · have row := exec_clearsOnly r t hr i
      simp only [eng_congr hsame i] at row
      refine row.imp_right fun ⟨hzero, hidle, a, b, hcommand⟩ => .inr ⟨hzero, .inl ⟨hidle, a, b, ?_⟩⟩
      rw [hn]
      exact hcommand.imp (congrArg some) (congrArg some)
  · rw [step_none (nextInstr_reset hreset)] at hstep
    obtain rfl := Host.Outcome.next.inj hstep
    exact .inr (.inr ⟨congrArg Engine.cursor (restart_eng _ i), .inr (.inr (congrArg List.head? hreset))⟩)

end Sys2Proof.Machine
end

section
/-! PROOF. The exceptions that do not trap (spec/60_exceptions.md): a failing command is answered, and an interrupt entry that
finds its engine busy is held. -/

namespace Sys2Proof.Machine

/-! ### Interrupt entries -/

/-- An interrupt entry of a busy engine is held. -/
theorem exec_irq_of_busy {s : State} {i : InstId} (hi : s.has i) (hbusy : (s.eng i).phase ≠ .idle) :
    exec (.irq i) s = .next (holdIrq i s) := by
  show execIrq i s = _
  rw [execIrq, onInst_of_has hi, if_neg hbusy]

/-- Settles O24: holding an entry is an update of the engine's own count. -/
theorem activationsDoNotNest : Obligations.ActivationsDoNotNest := fun _ _ h hbusy =>
  runs_upd h (exec_irq_of_busy h.1 hbusy)

/-! ### Failing commands -/

/-- Every command word decodes to a row that encodes to a command word, also where operation codes coincide. -/
theorem decodeCmd_is_command (c : Config) (w : Nat) : ∃ w', encode c (decodeCmd c w) = .cmd w' := by
  simp only [decodeCmd]
  split_ifs
  all_goals exact ⟨_, rfl⟩

section
variable {s : State} {i : InstId}

/-- After the range check the reserved command fails in any case (R191). -/
theorem failure_reserved7 (a b : Nat) : s.failure (.reserved7 i a b) =
    if s.has i then some .unsupported else some .invalidId := ite_not (s.has i) _ _

/-- After the range check a mark fails where the instance is not initialized (R183, R184). -/
theorem failure_mark {r : Instr} (a b : Nat) (hr : r ∈ [.powerOffMark i a b, .powerOnMark i a b, .uninitMark i a b]) :
    s.failure r = if s.has i then checkInitialized (s.eng i) else some .invalidId := by
  simp only [List.mem_cons, List.not_mem_nil, or_false] at hr
  rcases hr with rfl | rfl | rfl
  all_goals exact ite_not (s.has i) _ _

variable (hsize : s.engines.length = s.conf.nInst) (hidle : s.has i → (s.eng i).phase = .idle) {status : Status}
include hsize hidle

/-- A command that names a buffer answers its failing check where the buffer lies in the address space; the range check
comes before both (R94). -/
theorem bufferCommand_fails {w buffer length : Nat} {effect : State → Result} {fails : Option Status}
    {own : State → Result} (hown : own s = withinSpace buffer length (checked i fails effect) s)
    (hfits : s.has i → fits s.conf buffer length)
    (h : (if s.has i then fails else some .invalidId) = some status) :
    command w i own s = .next { s with trace := s.trace ++ [.ret i status 0] } := by
  by_cases hi : s.has i
  · exact checkedCommand_fails (hown.trans (withinSpace_of_fits (hfits hi))) hsize hidle h
  · rw [if_neg hi] at h
    rw [command_of_absent hi, respond_of_absent hsize hi, Option.some.inj h]

end

/-- Each command's own checks are the causes of its failure, so the cause that answers is the check that fails. -/
theorem exec_of_failure {s : State} {r : Instr} {w : Nat} {status : Status} (hw : encode s.conf r = .cmd w)
    (hsize : s.engines.length = s.conf.nInst) (hidle : s.has r.inst → (s.eng r.inst).phase = .idle)
    (hpremise : s.has r.inst → s.meetsPremise r = true) (hfail : s.failure r = some status) :
    exec r s = .next { s with trace := s.trace ++ [.ret r.inst status 0] } := by
  cases r
  case initCommit i a b =>
    rw [failure_initCommit] at hfail
    exact bufferCommand_fails hsize hidle rfl (fun hi => of_decide_eq_true (hpremise hi)) hfail
  case swap i a b =>
    rw [failure_swap] at hfail
    exact bufferCommand_fails hsize hidle rfl (fun hi => of_decide_eq_true (hpremise hi)) hfail
  case left i a b => exact checkedCommand_fails rfl hsize hidle ((failure_left a b).symm.trans hfail)
  case txdmaStart i a b => exact checkedCommand_fails rfl hsize hidle ((failure_txdmaStart a b).symm.trans hfail)
  case powerOffMark i a b | powerOnMark i a b | uninitMark i a b =>
    exact checkedCommand_fails rfl hsize hidle ((failure_mark (i := i) a b (by simp)).symm.trans hfail)
  case reserved7 i a b =>
    exact checkedCommand_fails (effect := .next) rfl hsize hidle ((failure_reserved7 a b).symm.trans hfail)
  all_goals cases hw

/-- Settles O43: a decoded word is a command, and a command answers its failing check. -/
theorem failingCommandOnlyAnswers : Obligations.FailingCommandOnlyAnswers := by
  intro s w status r hsize hidle hpremise hfail
  obtain ⟨_, hw⟩ := decodeCmd_is_command s.conf w
  exact exec_of_failure hw hsize hidle hpremise hfail

end Sys2Proof.Machine
end

section
/-! PROOF. Reset and restart (spec/70_reset_and_hazards.md R220, R221): both leave every instance a record, and that record is
the one of reset. -/

namespace Sys2Proof.Machine

/-- Every record is that of reset, whatever the parameters. -/
@[simp] theorem resetWith_eng (c : Config) (i : InstId) : (State.resetWith c).eng i = Engine.reset :=
  restart_eng (State.resetWith c) i

/-- After reset every instance has a record. -/
theorem resetWith_live {c : Config} {i : InstId} (hi : i.toNat < c.nInst) : (State.resetWith c).live i :=
  ⟨hi, (resetWith_inv c).size⟩

/-- After a restart every instance has a record, also one that had none. -/
theorem restart_live {s : State} {i : InstId} (hi : s.has i) : (restart s).live i :=
  resetWith_live hi

/-- Settles O6: every record after reset is `Engine.reset`, whose fields are the values of R220. -/
theorem resetState : Obligations.ResetState := by
  intro c i hi x
  have hx : x = Engine.reset := resetWith_eng c i
  rw [hx]
  exact ⟨resetWith_live hi, rfl, rfl, rfl, rfl, rfl, rfl, rfl, rfl, rfl, rfl⟩

/-- Settles O59: the turn has no row, so the step ends in the state of `restart`. -/
theorem restartResetsEveryInstance : Obligations.RestartResetsEveryInstance := by
  intro s rest hreset
  have hrecords (i : InstId) : (restart { s with agenda := rest }).eng i = (State.resetWith s.conf).eng i := by
    rw [restart_eng, resetWith_eng]
  exact ⟨_, step_none (nextInstr_reset hreset), rfl, hrecords, fun _ hi => restart_live hi, rfl, rfl, rfl,
    fun _ => rfl, rfl, rfl, rfl⟩

end Sys2Proof.Machine
end
